-- ==== Sys2Proof/Word.lean ====
section
/-!
DEFINITION. The words of HCE: the command word, symbols, digits and codes.
-/

namespace Sys2Proof

/-- A command word: 8 bits, format CMD8 (rule R90). -/
abbrev CommandWord := BitVec 8

/-- A symbol. The rules compare symbols for equality only and never add, shift or order them by value
(rule R6); that a symbol has `SYM_W` bits is the check `symbolFits` (log entry 2). -/
abbrev Symbol := Nat

/-- A digit, one bit: `false` is the document's '0' and `true` its '1' (rule R96). -/
abbrev Digit := Bool

/-- A code or a binary sequence: digits, first digit first (rules R65, R96). -/
abbrev Code := List Digit

end Sys2Proof
end

