-- ==== Sys2Proof/Config.lean ====
section
/-!
DEFINITION. What an implementation of HCE fixes (rules R6 to R8), and the free value (U4).
-/

namespace Sys2Proof

/-- The implementation parameters. They are no state (rule R20): a `State` carries them so that every
statement about all states is about all parameter values, and no step changes them (log entry 1). -/
structure Config where
  /-- `SYM_W`, the width of a symbol in bits, at least 1 (rule R6). -/
  symW : Nat
  /-- `MAX_TEXT`; `none` is ∞ (rule R7). -/
  maxText : Option Nat
  /-- `MAX_BITS`; `none` is ∞ (rule R7). -/
  maxBits : Option Nat
  /-- Whether ROOT is one of the registers the host reads. DESIGN CHOICE: log entry 23. R41 says that ROOT has no host
  read port and R230 does not list it; section 3 of 10_state.md and its field table make it host read-only and R282
  lets the host read any register. -/
  rootPort : Bool
  deriving DecidableEq, Repr

/-- A bound is a positive integer or ∞ (rule R7). -/
def Config.boundPositive (bound : Option Nat) : Bool :=
  match bound with
  | none => true
  | some m => decide (0 < m)

/-- The parameter values rules R6 and R7 admit. -/
def Config.wf (c : Config) : Bool :=
  decide (1 ≤ c.symW) && Config.boundPositive c.maxText && Config.boundPositive c.maxBits

/-- `N_MAX = 2^SYM_W` (rule R8). -/
def Config.nMax (c : Config) : Nat := 2 ^ c.symW

/-- `SEQ_W = SYM_W + 1` (rule R8). -/
def Config.seqW (c : Config) : Nat := c.symW + 1

/-- `L_MAX = max(1, N_MAX − 1)` (rule R8). -/
def Config.lMax (c : Config) : Nat := max 1 (c.nMax - 1)

/-- `FREQ_W = ⌈log2(MAX_TEXT+1)⌉` when `MAX_TEXT` is finite (rule R8). -/
def Config.freqW (c : Config) : Option Nat := c.maxText.map fun m => Nat.clog 2 (m + 1)

/-- The parameters of the spec's examples: `SYM_W = 8` (rule R6) and no capacity bound
(95_test_vectors.md, Conventions). DESIGN CHOICE: log entry 1; that the host reads ROOT: log entry 23. -/
def Config.examples : Config := { symW := 8, maxText := none, maxBits := none, rootPort := true }

/-- FREE VALUE (U4 of 93_implementation_defined.md): the digits a command in progress has already put on
OUT, which the spec leaves as any value; what limits R64 sets is in `voidOut`. Applied to the counter `State.draws`. Log
entry 8. -/
opaque Config.voidDigits : Nat → List Digit

/-- FREE VALUE (U4): the symbols a command in progress has already put on OUT. Log entry 8. -/
opaque Config.voidText : Nat → List Symbol

end Sys2Proof
end

