-- ==== Sys2Proof/Syntax.lean ====
section
/-!
DEFINITION. The commands of HCE, one constructor per row of spec/opcode_table.json (rule R91).
-/

namespace Sys2Proof

/-- A command. A command word carries no operand (rule R92), so no constructor has one: the operand is
the sequence on the stream IN. -/
inductive Instr where
  /-- `BUILD`, word 0x01 (rule R175). -/
  | build
  /-- `COMPRESS`, word 0x02 (rule R190). -/
  | compress
  /-- `DECOMPRESS`, word 0x03 (rule R205). -/
  | decompress
  /-- `CLEAR`, word 0x04 (rule R183). -/
  | clear
  /-- `QFREQ`, word 0x05 (rule R226). -/
  | qfreq
  /-- `QCODE`, word 0x06 (rule R227). -/
  | qcode
  /-- `QMEMBER`, word 0x07 (rule R228). -/
  | qmember
  deriving DecidableEq, Repr

end Sys2Proof
end

