-- ==== Sys2Proof/Machine/Data.lean ====
section
/-!
DEFINITION. The data the state of HCE is made of: table entries, stream contents, responses, host actions.
-/

namespace Sys2Proof.Machine

/-- An entry of the frequency table FT (rule R25). -/
structure FtEntry where
  sym : Symbol
  count : Nat
  deriving DecidableEq, Repr

/-- A NODE entry: "a tagged sum type with two variants" (rules R27, R103). A child is held as its node id. -/
inductive TreeNode where
  | leaf (sym : Symbol) (freq : Nat)
  | internal (freq : Nat) (left right : Nat)
  deriving DecidableEq, Repr

/-- An entry of the priority collection PQ: its key `(freq, seq)` and the node id (rules R37, R102). -/
structure PqEntry where
  freq : Nat
  seq : Nat
  id : Nat
  deriving DecidableEq, Repr

/-- The operand of a command, the finite sequence on IN with its end marked (rules R62, R63). -/
inductive Operand where
  /-- No operand was sent. -/
  | none
  /-- A text: items of `SYM_W` bits, one symbol each. -/
  | text (items : List Symbol)
  /-- A binary sequence: items of one bit. -/
  | digits (items : List Digit)
  deriving DecidableEq, Repr

/-- The kinds of operand a command takes (rule R63). -/
inductive OperandKind where
  | text
  | digits
  | oneSymbol
  | none
  deriving DecidableEq, Repr

/-- What the command in progress has put on OUT: digits (COMPRESS) or symbols (DECOMPRESS); the other
commands emit nothing (rule R64). -/
structure Out where
  digits : List Digit
  text : List Symbol
  deriving DecidableEq, Repr

/-- An empty OUT. -/
def Out.empty : Out := { digits := [], text := [] }

/-- The error outcomes of a command (rules R24, R245). -/
inductive ErrCode where
  | ok
  | emptyInput
  | noTree
  | truncatedInput
  deriving DecidableEq, Repr

/-- The response of a command (rule R93). A field not listed for a command is absent. -/
inductive Response where
  | build (err : BitVec 2)
  | compress (err : BitVec 2) (out : List Digit)
  | decompress (err : BitVec 2) (out : List Symbol)
  | clear (err : BitVec 2)
  | qfreq (count : Nat)
  /-- `bits` is the value of the `L_MAX`-bit word of rule R104 (log entry 13). -/
  | qcode (found : Bool) (len : Nat) (bits : Nat)
  | qmember (found : Bool)
  deriving DecidableEq, Repr

/-- The registers of section 3 of 10_state.md, each with the access "read-only" in its field table (rules R230, R282).
Whether a host read of `root` is answered is `Config.rootPort`, for R41 says otherwise. DESIGN CHOICE: log entry 23. -/
inductive Reg where
  | valid
  | status
  | nsym
  | nodecount
  | root
  | height
  | skipcount
  | bitcount
  | symcount
  deriving DecidableEq, Repr

/-- What a host action gives back to the host (the table of rule R282). -/
inductive Observation where
  | response (r : Response)
  | register (r : Reg) (value : Nat)
  deriving DecidableEq, Repr

/-- What the host can do (rules R275, R280, R282). -/
inductive HostAction where
  /-- Send a command word and its whole operand, end marked. -/
  | issue (word : CommandWord) (operand : Operand)
  /-- Send a command word and an operand whose end is never marked: what rule R282 assumes never happens. -/
  | issueOpen (word : CommandWord) (operand : Operand)
  /-- Read a register. -/
  | read (r : Reg)
  /-- Assert reset. -/
  | reset
  deriving DecidableEq, Repr

end Sys2Proof.Machine
end

