-- ==== Sys2Proof/Machine/State.lean ====
section
/-!
DEFINITION. The state of HCE (10_state.md), the reasons a step can stop, and the state after reset (rule R44).
-/

namespace Sys2Proof.Machine

/-- The four persistent tables (rule R60). -/
structure Memory where
  /-- FT, entry 0 first (rule R25). -/
  ft : List FtEntry
  /-- NODE, the entry of id 0 first: the valid entries are those of the list (rule R27). -/
  node : List TreeNode
  /-- ENC, the symbol→code LUT, in strictly rising symbol order (rule R32; log entry 10). -/
  enc : List (Symbol × Code)
  /-- DEC, the code→symbol LUT, in strictly rising `Code.lt` order (rule R33; log entry 10). -/
  dec : List (Code × Symbol)
  deriving DecidableEq, Repr

/-- The persistent state of rule R20: what survives from one command to the next. -/
structure Persistent where
  /-- VALID, 1 bit (rule R23). -/
  valid : Bool
  /-- STATUS, 2 bits, the field ERR (rule R24). -/
  status : BitVec 2
  /-- NSYM (rule R26). -/
  nsym : Nat
  /-- NODECOUNT (rule R28). -/
  nodecount : Nat
  /-- ROOT (rule R29). -/
  root : Nat
  /-- HEIGHT (rule R31). -/
  height : Nat
  /-- SKIPCOUNT (rule R34). -/
  skipcount : Nat
  /-- BITCOUNT (rule R35). -/
  bitcount : Nat
  /-- SYMCOUNT (rule R36). -/
  symcount : Nat
  /-- FT, NODE, ENC and DEC (rules R25, R27, R32, R33). -/
  mem : Memory
  deriving DecidableEq, Repr

/-- The transient state of rule R20: initialised by a command before use, never read by a later one. -/
structure Transient where
  /-- PQ, in strictly rising key order (rule R37; log entry 11). -/
  pq : List PqEntry
  /-- SEQ (rule R38). -/
  seq : Nat
  /-- PATH (rule R39). -/
  path : Code
  /-- The walker's stack of pending nodes with their paths (rules R39, R168). Only the small steps use it. -/
  stack : List (Nat × Code)
  /-- BUF (rule R40). -/
  buf : Code
  deriving DecidableEq, Repr

/-- The state of HCE with its host. -/
structure State where
  /-- The parameters, fixed for the machine (rules R6, R7; log entry 1). -/
  cfg : Config
  /-- The persistent state (rule R20). -/
  per : Persistent
  /-- The transient state (rule R20). -/
  tr : Transient
  /-- MODEL's own: the operand on IN (rule R62; log entry 14). -/
  inp : Operand
  /-- MODEL's own: what the command has put on OUT (rule R64; log entry 14). -/
  out : Out
  /-- MODEL's own: what the last host action got back, if anything (rules R93, R230; log entry 14). -/
  resp : Option Observation
  /-- A command is in progress whose operand's end the host has not marked (rule R282; log entry 8). -/
  busy : Bool
  /-- MODEL's own: how many free values have been drawn (log entry 8). -/
  draws : Nat
  /-- MODEL's own: what the host will do, first action first (rules R10, R290; log entry 3). -/
  host : List HostAction
  deriving DecidableEq, Repr

/-- The reasons the machine stops with a fault. No run from reset raises one (log entry 12). -/
inductive Fault where
  /-- A stage of BUILD read a NODE entry that is not valid (U9). Raised by the merge step and the walk. Safe:
  no rule makes such a read. -/
  | invalidNode (id : Nat)
  /-- The HTB or the CA stage was entered with no symbols (U11, rule R148). Safe: BUILD ends before them on an
  empty text. -/
  | noSymbols
  /-- PQ did not come down to one entry, or the walk is deeper than NODECOUNT: NODE is no tree. Raised where
  the pseudocode's loops are cut off by their fuel. Safe: rules R150 and R169 say that it cannot happen. -/
  | brokenTree
  deriving DecidableEq, Repr

/-- The reasons an input is given no meaning. -/
inductive Refusal where
  /-- Raised by `exec`'s arm of an instruction that has no meaning yet. Safe. -/
  | notModelled (mnemonic : String)
  /-- A reserved command word (rule R94, U1). Raised by the fetch of a command. Safe: no state changes. -/
  | reservedWord (word : CommandWord)
  /-- A text longer than MAX_TEXT or a binary sequence longer than MAX_BITS (rule R7, U2). Raised by BUILD,
  COMPRESS, DECOMPRESS before any state change. Safe. -/
  | operandTooLong
  /-- A COMPRESS whose result would be longer than MAX_BITS (rule R7, U2). Raised by COMPRESS before any state
  change. Safe. -/
  | resultTooLong
  /-- An operand of the wrong kind: digits for a text command, symbols for DECOMPRESS, items for CLEAR, nothing
  at all for a command that takes an operand (rule R63). Raised by every command but CLEAR, and for CLEAR by
  the fetch. Safe. -/
  | operandKind
  /-- A symbol item that is no value of SYM_W bits (rule R6; log entry 2). Raised by every command that takes a
  text. Safe: the port cannot carry such an item. -/
  | itemTooWide
  /-- A query operand that is not exactly one symbol (rule R63, U10). Raised by QFREQ, QCODE, QMEMBER. Safe. -/
  | notOneSymbol
  /-- A command issued, or a register read, while a command is in progress (rules R280, R282, U3). Raised by
  the fetch. Safe in itself; that the host never does it is the spec's own assumption. -/
  | commandInProgress
  /-- A register read of ROOT on a machine whose parameter `rootPort` gives it no host read port (rule R41; log entry
  23). Raised by the fetch. Safe: nothing is read and no state changes. -/
  | noReadPort
  deriving DecidableEq, Repr

/-- The persistent state after reset (rule R44). -/
def Persistent.reset : Persistent :=
  { valid := false, status := 0#2, nsym := 0, nodecount := 0, root := 0, height := 0,
    skipcount := 0, bitcount := 0, symcount := 0,
    mem := { ft := [], node := [], enc := [], dec := [] } }

/-- The transient state after reset: nothing a rule reads (rule R44). DESIGN CHOICE: log entry 9. -/
def Transient.reset : Transient := { pq := [], seq := 0, path := [], stack := [], buf := [] }

/-- The machine with the parameters `c` right after reset, with no host action to come (rule R44). -/
def State.resetFor (c : Config) : State :=
  { cfg := c, per := Persistent.reset, tr := Transient.reset, inp := .none, out := Out.empty,
    resp := none, busy := false, draws := 0, host := [] }

/-- The machine right after reset, with the parameters of the spec's examples (rule R44; log entry 1). -/
def State.reset : State := State.resetFor Config.examples

end Sys2Proof.Machine
end

