-- ==== Sys2Proof/Machine/Flags.lean ====
section
/-!
DEFINITION. VALID, STATUS and the statistics registers: their values and every write of them
(10_state.md section 3).
-/

namespace Sys2Proof.Machine

/-- The number of an error outcome in `STATUS.ERR` and in the field `err` (rule R24). -/
def errBits : ErrCode → BitVec 2
  | .ok => 0#2
  | .emptyInput => 1#2
  | .noTree => 2#2
  | .truncatedInput => 3#2

/-- `STATUS.ERR <- e` (rule R24). -/
def setStatus (e : ErrCode) (s : State) : State :=
  { s with per := { s.per with status := errBits e } }

/-- `VALID <- v` (rule R23). -/
def setValid (v : Bool) (s : State) : State :=
  { s with per := { s.per with valid := v } }

/-- `SKIPCOUNT <- 0 ; BITCOUNT <- 0 ; SYMCOUNT <- 0` (rule R192). -/
def zeroStats (s : State) : State :=
  { s with per := { s.per with skipcount := 0, bitcount := 0, symcount := 0 } }

/-- `SYMCOUNT <- SYMCOUNT + 1` (rule R190). -/
def countSymbol (s : State) : State :=
  { s with per := { s.per with symcount := s.per.symcount + 1 } }

/-- `BITCOUNT <- BITCOUNT + n` (rule R190). -/
def countBits (n : Nat) (s : State) : State :=
  { s with per := { s.per with bitcount := s.per.bitcount + n } }

/-- `SKIPCOUNT <- SKIPCOUNT + 1` (rules R190, R193). -/
def countSkip (s : State) : State :=
  { s with per := { s.per with skipcount := s.per.skipcount + 1 } }

/-- `HEIGHT <- max(HEIGHT, d)` (rules R161, R166). -/
def raiseHeight (d : Nat) (s : State) : State :=
  { s with per := { s.per with height := max s.per.height d } }

end Sys2Proof.Machine
end

