-- ==== Sys2Proof/Machine/Ops.lean ====
section
/-!
DEFINITION. The named operations over the tables and the streams (20_memory.md), the start and the end of a
command, the discard (rule R176), and `raise`, the whole of "trap entry" in HCE (rule R250).
-/

namespace Sys2Proof.Machine

/-! ### Partial maps held as lists in rising key order -/

/-- The lexicographic order of codes in which DEC is listed. No rule reads it (rule R163, log entry 10). -/
def codeLt : Code → Code → Bool
  | _, [] => false
  | [], _ :: _ => true
  | a :: as, b :: bs => if a = b then codeLt as bs else b

/-- The order of symbols in which ENC is listed. No rule reads it (rule R6, log entry 10). -/
def symbolLt (a b : Nat) : Bool := decide (a < b)

/-- `M[k]` when `k ∈ M`, by exact match of the key (rules R68, R69). -/
def mapFind {κ ν : Type} [DecidableEq κ] (k : κ) : List (κ × ν) → Option ν
  | [] => none
  | e :: m => if e.1 = k then some e.2 else mapFind k m

/-- `M[k] <- v`, keeping the keys in rising order. -/
def mapWrite {κ ν : Type} [DecidableEq κ] (lt : κ → κ → Bool) (k : κ) (v : ν) :
    List (κ × ν) → List (κ × ν)
  | [] => [(k, v)]
  | e :: m =>
    if e.1 = k then (k, v) :: m
    else if lt k e.1 then (k, v) :: e :: m
    else e :: mapWrite lt k v m

/-! ### FT (rule R61) -/

/-- `FT.find(x)`: the index of the entry whose symbol is `x`, searched in index order. -/
def ftFind (x : Symbol) (s : State) : Option Nat :=
  s.per.mem.ft.findIdx? fun e => decide (e.sym = x)

/-- `FT.append(x, n)`: a new entry at index `NSYM`, and `NSYM <- NSYM + 1`. -/
def ftAppend (x : Symbol) (n : Nat) (s : State) : State :=
  { s with per := { s.per with
      nsym := s.per.nsym + 1
      mem := { s.per.mem with ft := s.per.mem.ft ++ [{ sym := x, count := n }] } } }

/-- `FT[i].count <- FT[i].count + 1`. -/
def ftIncrement (i : Nat) (s : State) : State :=
  { s with per := { s.per with
      mem := { s.per.mem with
        ft := s.per.mem.ft.modify i fun e => { e with count := e.count + 1 } } } }

/-- `FT <- ∅`, which also sets `NSYM <- 0`. -/
def ftClear (s : State) : State :=
  { s with per := { s.per with nsym := 0, mem := { s.per.mem with ft := [] } } }

/-! ### NODE (rule R67) -/

/-- `freq(v)`, the frequency field of either variant. -/
def nodeFreq : TreeNode → Nat
  | .leaf _ f => f
  | .internal f _ _ => f

/-- `NODE[i]`, the whole entry; none when `i` is not the id of a valid entry. -/
def nodeRead (i : Nat) (s : State) : Option TreeNode := s.per.mem.node[i]?

/-- `NODE[i] <- v`. The only writes are to the lowest unused id (rule R67), so the entry is appended; an entry
that is valid already is overwritten. Log entry 21. -/
def nodeWrite (i : Nat) (v : TreeNode) (s : State) : State :=
  { s with per := { s.per with
      mem := { s.per.mem with
        node := if i < s.per.mem.node.length then s.per.mem.node.set i v
                else s.per.mem.node ++ [v] } } }

/-! ### PQ and SEQ (rules R70, R102, R142, R143) -/

/-- The order of keys: frequency first, then sequence number (rule R102). -/
def keyLt (a b : PqEntry) : Bool :=
  decide (a.freq < b.freq) || (decide (a.freq = b.freq) && decide (a.seq < b.seq))

/-- The packed view of a key, `{freq, seq}` as one unsigned number with `SEQ_W = w` (rule R102). -/
def keyPacked (w : Nat) (e : PqEntry) : Nat := e.freq * 2 ^ w + e.seq

/-- The entry of smallest key among `m` and the entries of the list. -/
def pqLeast (m : PqEntry) : List PqEntry → PqEntry
  | [] => m
  | e :: q => pqLeast (if keyLt e m then e else m) q

/-- `PQ.insert(key, id)` on the entries present, kept in rising key order (rule R142). -/
def pqAdd (e : PqEntry) : List PqEntry → List PqEntry
  | [] => [e]
  | x :: q => if keyLt e x then e :: x :: q else x :: pqAdd e q

/-- `PQ.extract_min()` on the entries present: the entry of smallest key and the others (rule R143). -/
def pqTake : List PqEntry → Option (PqEntry × List PqEntry)
  | [] => none
  | e :: q => some (pqLeast e q, (e :: q).erase (pqLeast e q))

/-- `PQ.insert((f, SEQ), SEQ)`: the key's second part and the node id are the current `SEQ` (rule R142). -/
def pqInsert (f : Nat) (s : State) : State :=
  { s with tr := { s.tr with pq := pqAdd { freq := f, seq := s.tr.seq, id := s.tr.seq } s.tr.pq } }

/-- `PQ.extract_min()` (rule R143); none when PQ is empty. -/
def pqExtract (s : State) : Option (PqEntry × State) :=
  match pqTake s.tr.pq with
  | none => none
  | some (e, q) => some (e, { s with tr := { s.tr with pq := q } })

/-- `PQ <- ∅ ; SEQ <- 0` (rule R141). -/
def pqClear (s : State) : State :=
  { s with tr := { s.tr with pq := [], seq := 0 } }

/-- `SEQ <- SEQ + 1` (rules R141, R146). -/
def nextSeq (s : State) : State :=
  { s with tr := { s.tr with seq := s.tr.seq + 1 } }

/-- `ROOT <- id ; NODECOUNT <- SEQ` (rule R147). -/
def setRoot (id : Nat) (s : State) : State :=
  { s with per := { s.per with root := id, nodecount := s.tr.seq } }

/-! ### ENC and DEC (rules R68, R69, R162) -/

/-- `ENC[x]` when `x ∈ ENC`. -/
def encFind (x : Symbol) (s : State) : Option Code := mapFind x s.per.mem.enc

/-- `DEC[c]` when `c ∈ DEC`: the same length and the same digit at every position. -/
def decFind (c : Code) (s : State) : Option Symbol := mapFind c s.per.mem.dec

/-- `ENC[x] <- c ; DEC[c] <- x`, the same pair in both LUTs (rule R162). -/
def recordCode (x : Symbol) (c : Code) (s : State) : State :=
  { s with per := { s.per with
      mem := { s.per.mem with
        enc := mapWrite symbolLt x c s.per.mem.enc
        dec := mapWrite codeLt c x s.per.mem.dec } } }

/-- `ENC <- ∅ ; DEC <- ∅ ; HEIGHT <- 0` (rule R165). -/
def mapsClear (s : State) : State :=
  { s with per := { s.per with height := 0, mem := { s.per.mem with enc := [], dec := [] } } }

/-! ### PATH and BUF (rules R39, R40) -/

/-- `PATH <- c`. -/
def setPath (c : Code) (s : State) : State := { s with tr := { s.tr with path := c } }

/-- The walker's stack of pending nodes `<- st`. -/
def setStack (st : List (Nat × Code)) (s : State) : State := { s with tr := { s.tr with stack := st } }

/-- `BUF <- c`. -/
def setBuf (c : Code) (s : State) : State := { s with tr := { s.tr with buf := c } }

/-! ### The streams (rules R62, R64) -/

/-- `OUT.emit(d)` for the digits of `c`, first digit first. -/
def emitDigits (c : Code) (s : State) : State :=
  { s with out := { s.out with digits := s.out.digits ++ c } }

/-- `OUT.emit(x)`. -/
def emitSymbol (x : Symbol) (s : State) : State :=
  { s with out := { s.out with text := s.out.text ++ [x] } }

/-! ### The start and the end of a command -/

/-- The start of a command: its whole operand is taken from IN, "no item is left for a later command" (rule
R62); OUT starts empty (rule R64); there is no response yet (rule R93). -/
def startCommand (s : State) : State :=
  { s with inp := .none, out := Out.empty, resp := none }

/-- The end of a command: its response (rule R93). -/
def respond (r : Response) (s : State) : State :=
  { s with resp := some (.response r) }

/-- The block `discard`: what the last build left is gone (rule R176). STATUS is not part of it. -/
def discard (s : State) : State :=
  { s with per := { Persistent.reset with status := s.per.status } }

/-- `raise E` (rule R250), after which the command ends: the code of `E` in `STATUS.ERR`, and nothing else.
The same code goes into the field `err` of the response, which each command builds from `STATUS.ERR`. -/
def raiseError (e : ErrCode) (s : State) : State := setStatus e s

end Sys2Proof.Machine
end

