-- ==== Sys2Proof/Machine/CodeAssigner.lean ====
section
/-!
DEFINITION. The CodeAssigner unit: the CA stage of BUILD, which fills the two LUTs (42_code_assigner.md).
-/

namespace Sys2Proof.Machine

/-- The Leaf action of the walk (rules R161, R162). -/
def leafAction (x : Symbol) (path : Code) (s : State) : State :=
  raiseHeight path.length (recordCode x path s)

/-- `walk(id, path)` of rule R161, left before right; `path` is PATH. The fuel bounds the depth (rule R168). -/
def walk : Nat → Nat → Code → State → Except Fault State
  | 0, _, _, _ => .error .brokenTree
  | fuel + 1, id, path, s =>
    match nodeRead id (setPath path s) with
    | none => .error (.invalidNode id)
    | some (.leaf x _) => .ok (leafAction x path (setPath path s))
    | some (.internal _ l r) =>
      match walk fuel l (path ++ [false]) (setPath path s) with
      | .error f => .error f
      | .ok s1 => walk fuel r (path ++ [true]) s1

/-- The forced code `"0"` of a tree that is one Leaf; HEIGHT stays 0 (rules R164, R99). -/
def forcedCode : Code := [false]

/-- The walker at the start of the stage: both LUTs empty, HEIGHT 0, PATH empty, nothing pending (rules R160,
R165). -/
def startWalk (s : State) : State := setPath [] (setStack [] (mapsClear s))

/-- The CA stage (rule R165); entered with no tree it faults (U11). -/
def caStage (s : State) : Except Fault State :=
  match nodeRead s.per.root s with
  | none => .error .noSymbols
  | some (.leaf x _) => .ok (recordCode x forcedCode (startWalk s))
  | some (.internal _ _ _) => walk s.per.nodecount s.per.root [] (startWalk s)

end Sys2Proof.Machine
end

