-- ==== Sys2Proof/Machine/FrequencyTable.lean ====
section
/-!
DEFINITION. The FrequencyTable unit: the FT stage of BUILD (40_frequency_table.md).
-/

namespace Sys2Proof.Machine

/-- The body of the loop of rule R131 for one symbol of the text. -/
def ftStep (s : State) (x : Symbol) : State :=
  match ftFind x s with
  | none => ftAppend x 1 s
  | some i => ftIncrement i s

/-- The FT stage: the text is visited once, first symbol first (rule R131). -/
def ftStage (text : List Symbol) (s : State) : State := text.foldl ftStep (ftClear s)

end Sys2Proof.Machine
end

