-- ==== Sys2Proof/Machine/Operands.lean ====
section
/-!
DEFINITION. The operand forms (rules R6, R7, R62, R63): the operand on IN read as a text, as a binary sequence or
as one symbol, or refused under a name.
-/

namespace Sys2Proof.Machine

/-- The bound of rule R7: `none` is ∞, which every length is within. -/
def within (bound : Option Nat) (n : Nat) : Bool :=
  match bound with
  | none => true
  | some m => decide (n ≤ m)

/-- A symbol is a value of `SYM_W` bits (rule R6). -/
def symbolFits (c : Config) (s : Nat) : Bool := decide (s < c.nMax)

/-- Every item of a text is a value of `SYM_W` bits (rule R6). -/
def itemsFit (c : Config) (t : List Symbol) : Bool := t.all (symbolFits c)

/-- The kind of operand each command takes (rules R63, R91). -/
def operandKindOf : Instr → OperandKind
  | .build => .text
  | .compress => .text
  | .decompress => .digits
  | .clear => .none
  | .qfreq => .oneSymbol
  | .qcode => .oneSymbol
  | .qmember => .oneSymbol

/-- The operand as a text. An operand with no item has no kind, so the empty one is a text too (rule R62:
"An operand may be empty"; log entry 6). -/
def asText : Operand → Option (List Symbol)
  | .text t => some t
  | .digits [] => some []
  | .digits (_ :: _) => none
  | .none => none

/-- The operand as a binary sequence; the empty one is a binary sequence too (log entry 6). -/
def asDigits : Operand → Option (List Digit)
  | .digits b => some b
  | .text [] => some []
  | .text (_ :: _) => none
  | .none => none

/-- No item was sent: what a command with no operand admits (rule R63). -/
def noItems : Operand → Bool
  | .none => true
  | .text t => t.isEmpty
  | .digits b => b.isEmpty

/-- The text operand of BUILD and COMPRESS: items of `SYM_W` bits, at most `MAX_TEXT` of them (rules R7, R63). -/
def textOperand (c : Config) (op : Operand) : Except Refusal (List Symbol) :=
  match asText op with
  | none => .error .operandKind
  | some t =>
    if itemsFit c t then
      if within c.maxText t.length then .ok t else .error .operandTooLong
    else .error .itemTooWide

/-- The binary operand of DECOMPRESS: at most `MAX_BITS` digits (rules R7, R63). -/
def digitsOperand (c : Config) (op : Operand) : Except Refusal (List Digit) :=
  match asDigits op with
  | none => .error .operandKind
  | some b => if within c.maxBits b.length then .ok b else .error .operandTooLong

/-- The query operand: "a text of exactly one symbol" (rule R63); any other length is refused (U10). -/
def symbolOperand (c : Config) (op : Operand) : Except Refusal Symbol :=
  match asText op with
  | none => .error .operandKind
  | some [s] => if symbolFits c s then .ok s else .error .itemTooWide
  | some _ => .error .notOneSymbol

end Sys2Proof.Machine
end

