-- ==== Sys2Proof/Machine/TreeBuilder.lean ====
section
/-!
DEFINITION. The HuffmanTreeBuilder unit: the HTB stage of BUILD (41_tree_builder.md).
-/

namespace Sys2Proof.Machine

/-- The seed step for one entry of FT (rule R141). -/
def seedStep (s : State) (e : FtEntry) : State :=
  nextSeq (pqInsert e.count (nodeWrite s.tr.seq (.leaf e.sym e.count) s))

/-- The whole seed step, in FT order (rule R141). -/
def seedStage (s : State) : State := s.per.mem.ft.foldl seedStep (pqClear s)

/-- The new Internal node of a merge: `a` is left and `b` right, its frequency their sum (rules R145, R146). -/
def mergeNodes (a b : PqEntry) (s : State) : Except Fault State :=
  match nodeRead a.id s with
  | none => .error (.invalidNode a.id)
  | some va =>
    match nodeRead b.id s with
    | none => .error (.invalidNode b.id)
    | some vb =>
      .ok (nextSeq (pqInsert (nodeFreq va + nodeFreq vb)
        (nodeWrite s.tr.seq (.internal (nodeFreq va + nodeFreq vb) a.id b.id) s)))

/-- The merge step: the two entries of smallest key leave PQ, the first extracted is left (rules R145, R146). -/
def mergeStep (s : State) : Except Fault State :=
  match pqExtract s with
  | none => .error .brokenTree
  | some (a, s1) =>
    match pqExtract s1 with
    | none => .error .brokenTree
    | some (b, s2) => mergeNodes a b s2

/-- `while |PQ| > 1` (rules R144, R147), cut off after as many merges as the fuel says; rule R150 says that
`n − 1` merges are all there are. -/
def mergeLoop : Nat → State → Except Fault State
  | 0, s => .ok s
  | fuel + 1, s =>
    if 1 < s.tr.pq.length then
      match mergeStep s with
      | .error f => .error f
      | .ok s1 => mergeLoop fuel s1
    else .ok s

/-- "The last remaining node is the root" (rules R147, R149). -/
def takeRoot (s : State) : Except Fault State :=
  match s.tr.pq with
  | [r] => .ok (setRoot r.id s)
  | _ => .error .brokenTree

/-- The HTB stage (rule R147); entered with no symbols it faults (rule R148, U11). -/
def htbStage (s : State) : Except Fault State :=
  if s.per.nsym = 0 then .error .noSymbols
  else
    match mergeLoop s.per.nsym (seedStage s) with
    | .error f => .error f
    | .ok s1 => takeRoot s1

end Sys2Proof.Machine
end

