-- ==== Sys2Proof/Machine/BuildClear.lean ====
section
/-!
DEFINITION. The commands BUILD and CLEAR (43_build_clear.md).
-/

namespace Sys2Proof.Machine

/-- The three stages in the document's order (rule R175). -/
def buildStages (text : List Symbol) (s : State) : Except Fault State :=
  match htbStage (ftStage text s) with
  | .error f => .error f
  | .ok s1 => caStage s1

/-- The response of BUILD: `err` is what STATUS.ERR holds (rule R93). -/
def respondBuild (s : State) : State := respond (.build s.per.status) s

/-- The end of a BUILD that failed: EmptyInputError (rule R177). -/
def buildFailed (s : State) : State := respondBuild (raiseError .emptyInput s)

/-- The end of a BUILD that succeeded: `VALID <- 1 ; STATUS.ERR <- 0` (rules R175, R178). -/
def buildDone (s : State) : State := respondBuild (setStatus .ok (setValid true s))

/-- BUILD of an admitted text (rule R175). -/
def buildText (text : List Symbol) (s : State) : Host.Outcome State Fault Refusal :=
  if text = [] then .next (buildFailed (discard s))
  else
    match buildStages text (discard s) with
    | .error f => .fault f
    | .ok s1 => .next (buildDone s1)

/-- `BUILD` (rules R175 to R181). -/
def execBuild (s : State) : Host.Outcome State Fault Refusal :=
  match textOperand s.cfg s.inp with
  | .error r => .refused r
  | .ok text => buildText text (startCommand s)

/-- The response of CLEAR (rule R93). -/
def respondClear (s : State) : State := respond (.clear s.per.status) s

/-- `CLEAR` (rules R183, R184): no operand, no error, legal in every state. -/
def execClear (s : State) : Host.Outcome State Fault Refusal :=
  .next (respondClear (setStatus .ok (discard (startCommand s))))

end Sys2Proof.Machine
end

