-- ==== Sys2Proof/Machine/Decoder.lean ====
section
/-!
DEFINITION. The Decoder unit and the command DECOMPRESS (45_decoder.md).
-/

namespace Sys2Proof.Machine

/-- The step of `Accumulating(buffer)` on one digit: append first, look the buffer up, emit and start again on
a match (rules R208, R209). -/
def digitStep (s : State) (d : Digit) : State :=
  match decFind (s.tr.buf ++ [d]) s with
  | some x => setBuf [] (emitSymbol x s)
  | none => setBuf (s.tr.buf ++ [d]) s

/-- The response of DECOMPRESS: `err` and what was emitted on OUT (rules R93, R212). -/
def respondDecompress (s : State) : State := respond (.decompress s.per.status s.out.text) s

/-- DECOMPRESS with no tree: NoTreeError, whatever the operand (rule R206). -/
def decompressNoTree (s : State) : State := respondDecompress (raiseError .noTree s)

/-- The end of the operand: success when BUF is empty, TruncatedInputError when it is not (rule R210). -/
def decompressEnd (s : State) : State :=
  if s.tr.buf = [] then respondDecompress (setStatus .ok s)
  else respondDecompress (raiseError .truncatedInput s)

/-- DECOMPRESS of an admitted binary sequence (rule R205). -/
def decompressDigits (bits : List Digit) (s : State) : State :=
  if s.per.valid then decompressEnd (bits.foldl digitStep (setBuf [] s))
  else decompressNoTree s

/-- `DECOMPRESS` (rules R205 to R215). -/
def execDecompress (s : State) : Host.Outcome State Fault Refusal :=
  match digitsOperand s.cfg s.inp with
  | .error r => .refused r
  | .ok bits => .next (decompressDigits bits (startCommand s))

end Sys2Proof.Machine
end

