-- ==== Sys2Proof/Machine/Encoder.lean ====
section
/-!
DEFINITION. The Encoder unit and the command COMPRESS (44_encoder.md).
-/

namespace Sys2Proof.Machine

/-- The body of the outer loop of rule R190 for one symbol: its code, or the skip of rule R193. -/
def compressStep (s : State) (x : Symbol) : State :=
  match encFind x (countSymbol s) with
  | some c => countBits c.length (emitDigits c (countSymbol s))
  | none => countSkip (countSymbol s)

/-- The response of COMPRESS: `err` and what was emitted on OUT (rule R93). -/
def respondCompress (s : State) : State := respond (.compress s.per.status s.out.digits) s

/-- COMPRESS with no tree: NoTreeError, whatever the operand (rule R191). -/
def compressNoTree (s : State) : State := respondCompress (raiseError .noTree s)

/-- The end of a COMPRESS that found a tree (rule R190). -/
def compressDone (s : State) : State := respondCompress (setStatus .ok s)

/-- COMPRESS of an admitted text (rule R190); a result longer than MAX_BITS is refused (rule R7, U2). -/
def compressText (text : List Symbol) (s : State) : Host.Outcome State Fault Refusal :=
  if s.per.valid then
    if within s.cfg.maxBits (text.foldl compressStep (zeroStats s)).per.bitcount then
      .next (compressDone (text.foldl compressStep (zeroStats s)))
    else .refused .resultTooLong
  else .next (compressNoTree s)

/-- `COMPRESS` (rules R190 to R198). -/
def execCompress (s : State) : Host.Outcome State Fault Refusal :=
  match textOperand s.cfg s.inp with
  | .error r => .refused r
  | .ok text => compressText text (startCommand s)

end Sys2Proof.Machine
end

