-- ==== Sys2Proof/Machine/Introspection.lean ====
section
/-!
DEFINITION. Introspection (46_introspection.md): QFREQ, QCODE, QMEMBER, the register reads and RATIO.
-/

namespace Sys2Proof.Machine

/-- The packed view of a code: its numeral, first digit most significant (rule R104). -/
def packedBits (c : Code) : Nat := c.foldl (fun n d => 2 * n + d.toNat) 0

/-- The answer of QFREQ: the count of `x` in FT, 0 when it has no entry (rule R226). -/
def freqAnswer (x : Symbol) (s : State) : Nat :=
  match ftFind x s with
  | none => 0
  | some i =>
    match s.per.mem.ft[i]? with
    | none => 0
    | some e => e.count

/-- The answer of QCODE (rule R227). -/
def codeAnswer (x : Symbol) (s : State) : Response :=
  match encFind x s with
  | some c => .qcode true c.length (packedBits c)
  | none => .qcode false 0 0

/-- The answer of QMEMBER: `x ∈ ENC` (rule R228). -/
def memberAnswer (x : Symbol) (s : State) : Response := .qmember (encFind x s).isSome

/-- A query of one admitted symbol: the answer in the response, and nothing else changes (rule R225). -/
def query (answer : Symbol → State → Response) (s : State) : Host.Outcome State Fault Refusal :=
  match symbolOperand s.cfg s.inp with
  | .error r => .refused r
  | .ok x => .next (respond (answer x s) (startCommand s))

/-- `QFREQ` (rule R226). -/
def execQfreq (s : State) : Host.Outcome State Fault Refusal := query (fun x s => .qfreq (freqAnswer x s)) s

/-- `QCODE` (rule R227). -/
def execQcode (s : State) : Host.Outcome State Fault Refusal := query codeAnswer s

/-- `QMEMBER` (rule R228). -/
def execQmember (s : State) : Host.Outcome State Fault Refusal := query memberAnswer s

/-- The register has a host read port: every register of R230's table, and ROOT when the parameter says so. DESIGN
CHOICE: log entry 23 (R41 and R230 against section 3 of 10_state.md and R282). -/
def hasReadPort (c : Config) (r : Reg) : Bool :=
  match r with
  | .valid => true
  | .status => true
  | .nsym => true
  | .nodecount => true
  | .root => c.rootPort
  | .height => true
  | .skipcount => true
  | .bitcount => true
  | .symcount => true

/-- The value of a register; the host reads it where `hasReadPort` says so (rule R230, log entry 23). -/
def readReg (r : Reg) (p : Persistent) : Nat :=
  match r with
  | .valid => p.valid.toNat
  | .status => p.status.toNat
  | .nsym => p.nsym
  | .nodecount => p.nodecount
  | .root => p.root
  | .height => p.height
  | .skipcount => p.skipcount
  | .bitcount => p.bitcount
  | .symcount => p.symcount

/-- RATIO, an exact rational in percent, which the host evaluates on BITCOUNT and SYMCOUNT (rule R236); it has
no value when SYMCOUNT = 0 (rule R237, U5). -/
def ratio (p : Persistent) : Option Rat :=
  if p.symcount = 0 then none
  else some (100 * (1 - (p.bitcount : Rat) / (8 * (p.symcount : Rat))))

end Sys2Proof.Machine
end

