-- ==== Sys2Proof/Machine/Dispatch.lean ====
section
/-!
DEFINITION. The dispatch: one arm per command (rule R91).
-/

namespace Sys2Proof.Machine

def exec (i : Instr) (s : State) : Host.Outcome State Fault Refusal :=
  match i with
  | .build => Sys2Proof.Machine.execBuild s
  | .compress => Sys2Proof.Machine.execCompress s
  | .decompress => Sys2Proof.Machine.execDecompress s
  | .clear => Sys2Proof.Machine.execClear s
  | .qfreq => Sys2Proof.Machine.execQfreq s
  | .qcode => Sys2Proof.Machine.execQcode s
  | .qmember => Sys2Proof.Machine.execQmember s

end Sys2Proof.Machine
end

