-- ==== Sys2Proof/Decode.lean ====
section
/-!
DEFINITION. The command decoder (rules R90, R91, R94) and, after it, the encoder.
-/

namespace Sys2Proof

/-- Why a word is no command: it is a reserved word (rule R94). -/
inductive DecodeError where
  /-- The field `RSV` is not `0000`. -/
  | reservedField (rsv : BitVec 4)
  /-- The field `OP` is `0x0` or `0x8` to `0xF`. -/
  | reservedOpcode (op : BitVec 4)
  deriving DecidableEq, Repr

/-- The field `RSV`, bits 7:4 (rule R90). -/
def rsvField (w : CommandWord) : BitVec 4 := w.extractLsb' 4 4

/-- The field `OP`, bits 3:0 (rule R90). -/
def opField (w : CommandWord) : BitVec 4 := w.extractLsb' 0 4

/-- The opcode map of rule R91. -/
def opcodeMap (op : BitVec 4) : Option Instr :=
  match op.toNat with
  | 0x1 => some .build
  | 0x2 => some .compress
  | 0x3 => some .decompress
  | 0x4 => some .clear
  | 0x5 => some .qfreq
  | 0x6 => some .qcode
  | 0x7 => some .qmember
  | _ => none

/-- The command decoder: total, and it reads `OP` and `RSV` and nothing else (rules R90, R94). -/
def decode (w : CommandWord) : Except DecodeError Instr :=
  if rsvField w = 0#4 then
    match opcodeMap (opField w) with
    | some i => .ok i
    | none => .error (.reservedOpcode (opField w))
  else .error (.reservedField (rsvField w))

/-- The opcode of a command (rule R91). -/
def opcodeOf : Instr → BitVec 4
  | .build => 0x1#4
  | .compress => 0x2#4
  | .decompress => 0x3#4
  | .clear => 0x4#4
  | .qfreq => 0x5#4
  | .qcode => 0x6#4
  | .qmember => 0x7#4

/-- The command word of a command: `{RSV = 0000, OP}` (rule R90). -/
def encode (i : Instr) : CommandWord := 0#4 ++ opcodeOf i

/-- The command word whose low `nbits` bits are `w`, the bits above them 0. -/
def tableWord (nbits w : Nat) : CommandWord := BitVec.ofNat 8 (w % 2 ^ nbits)

/-- The command the decoder reads from the one word of a table row; `none` where the decoder refuses it, and
for more than the 8 bits every command word has (rule R90). -/
def decodeTableWord (nbits w : Nat) : Option Instr :=
  if nbits ≤ 8 then
    match decode (tableWord nbits w) with
    | .ok i => some i
    | .error _ => none
  else none

end Sys2Proof
end

