-- ==== Sys2Proof/Machine/Port.lean ====
section
/-!
DEFINITION. The host's side of HCE (70_reset_and_hazards.md section 3): taking the next host action, fetching a
command word with its operand, register reads, reset, and the command whose operand never ends.
-/

namespace Sys2Proof.Machine

/-- What the next host action asks of HCE. -/
inductive Fetched where
  /-- Run this command on this state. -/
  | run (i : Instr) (s : State)
  /-- No command: this is the next state. -/
  | stay (s : State)
  /-- No meaning. -/
  | refuse (r : Refusal)
  deriving DecidableEq, Repr

/-- The command's operand is on IN, OUT is empty and there is no response yet (rules R62, R64, R280). -/
def accept (op : Operand) (rest : List HostAction) (s : State) : State :=
  { s with inp := op, out := Out.empty, resp := none, host := rest }

/-- Reset (rules R44, R275, R276): whatever was in progress is abandoned. The parameters and the host stay. -/
def hostReset (rest : List HostAction) (s : State) : State :=
  { State.resetFor s.cfg with draws := s.draws, host := rest }

/-- A register read: its value, and no side effect (rule R230). -/
def hostRead (r : Reg) (rest : List HostAction) (s : State) : State :=
  { s with resp := some (.register r (readReg r s.per)), host := rest }

/-- No more items than the bound of rule R7 allows. -/
def upTo {α : Type} (bound : Option Nat) (l : List α) : List α :=
  match bound with
  | none => l
  | some m => l.take m

/-- What a command in progress has put on OUT so far: a free value (U4, log entry 8) within the limits of R64. COMPRESS
emits digits, at most MAX_BITS; DECOMPRESS emits symbols of SYM_W bits, at most as many as digits were sent; both emit
nothing with no tree (rules R191, R206), and the other commands emit nothing. -/
def voidOut (i : Instr) (op : Operand) (s : State) : Out :=
  match i with
  | .build => Out.empty
  | .compress =>
    if s.per.valid then { digits := upTo s.cfg.maxBits (Config.voidDigits s.draws), text := [] } else Out.empty
  | .decompress =>
    if s.per.valid then
      { digits := [],
        text := ((Config.voidText s.draws).filter (symbolFits s.cfg)).take ((asDigits op).getD []).length }
    else Out.empty
  | .clear => Out.empty
  | .qfreq => Out.empty
  | .qcode => Out.empty
  | .qmember => Out.empty

/-- A command whose operand's end is never marked is in progress and stays so (rule R282, U12). What it has
put on OUT so far is a free value (U4; log entry 8). -/
def hang (i : Instr) (op : Operand) (rest : List HostAction) (s : State) : State :=
  { s with inp := op,
           out := voidOut i op s,
           resp := none, busy := true, draws := s.draws + 1, host := rest }

/-- The command a word sent now stands for: a word is looked at only when no command is in progress (rule R280,
U3), and a reserved word is refused (rule R94, U1). -/
def legalWord (w : CommandWord) (s : State) : Except Refusal Instr :=
  if s.busy then .error .commandInProgress
  else
    match decode w with
    | .error _ => .error (.reservedWord w)
    | .ok i => .ok i

/-- A word with its whole operand: CLEAR takes no item, so one that is sent with items is refused (rule R63; log
entry 7). -/
def fetchWhole (w : CommandWord) (op : Operand) (rest : List HostAction) (s : State) : Fetched :=
  match legalWord w s with
  | .error r => .refuse r
  | .ok i =>
    if operandKindOf i = .none && !noItems op then .refuse .operandKind
    else .run i (accept op rest s)

/-- A word whose operand's end is never marked: a command that takes an operand waits for it for ever, whatever its
items are; CLEAR takes none and runs. DESIGN CHOICE, log entry 24: items that are already too many (R7, U2), of the wrong
kind (R63) or too wide (R6) do not end the wait (R282, U12). -/
def fetchOpen (w : CommandWord) (op : Operand) (rest : List HostAction) (s : State) : Fetched :=
  match legalWord w s with
  | .error r => .refuse r
  | .ok i =>
    if operandKindOf i = .none then fetchWhole w op rest s
    else .stay (hang i op rest s)

/-- A register read, between commands only (rules R230, R280), of a register that has a host read port (log entry
23). -/
def fetchRead (r : Reg) (rest : List HostAction) (s : State) : Fetched :=
  if s.busy then .refuse .commandInProgress
  else if hasReadPort s.cfg r then .stay (hostRead r rest s)
  else .refuse .noReadPort

/-- The next host action (rules R275, R280, R282). With none left HCE is idle and keeps its state (rule R272);
a command that waits for its operand's end does nothing (U12). Log entry 15. -/
def fetch (s : State) : Fetched :=
  match s.host with
  | [] => .stay s
  | .reset :: rest => .stay (hostReset rest s)
  | .read r :: rest => fetchRead r rest s
  | .issue w op :: rest => fetchWhole w op rest s
  | .issueOpen w op :: rest => fetchOpen w op rest s

/-- An operand of one item that is 0, of the kind the command takes; none for CLEAR and for a word that is no
command (log entry 4). -/
def zeroOperand (i : Option Instr) : Operand :=
  match i with
  | none => .none
  | some i =>
    match operandKindOf i with
    | .text => .text [0]
    | .digits => .digits [false]
    | .oneSymbol => .text [0]
    | .none => .none

/-- The host's next action is to issue the word `w` with that operand, and no command is in progress. -/
def placeWord (nbits w : Nat) (s : State) : State :=
  { s with busy := false,
           host := .issue (tableWord nbits w) (zeroOperand (decodeTableWord nbits w)) :: s.host }

end Sys2Proof.Machine
end

