-- ==== Sys2Proof/Machine/Step.lean ====
section
/-!
DEFINITION. One step: the next host action, a command being one atomic transition (rule R9).
-/

namespace Sys2Proof.Machine

def step (s : State) : Host.Outcome State Fault Refusal :=
  match fetch s with
  | .run i s1 => exec i s1
  | .stay s1 => .next s1
  | .refuse r => .refused r

/-- `s` with the word `w` as the host's next command (log entries 3, 4). HCE fetches no instructions (rule R21):
a program is the sequence of the host's commands, given from outside. -/
def State.withFetchWord (s : State) (nbits w : Nat) : State := placeWord nbits w s

end Sys2Proof.Machine
end

