-- ==== Sys2Proof/Machine/SmallStep.lean ====
section
/-!
DEFINITION. The step-level refinements of the commands (rules R135, R154, R169, R180, R199, R216): a command in
progress, one small step at a time, over the same loop bodies as the atomic commands. Reset may come between any
two small steps (rule R276). The atomic `step` does not use this file (log entry 16).
-/

namespace Sys2Proof.Machine

/-- What is left to do of the command in progress. -/
inductive Work where
  /-- BUILD, before its discard step (rule R180). -/
  | discard (text : List Symbol)
  /-- BUILD of an empty text, before its error step (rule R180). -/
  | emptyText
  /-- The FT stage, with the symbols not yet visited (rule R135). -/
  | ft (rest : List Symbol)
  /-- The HTB stage, with the FT entries not yet seeded (rule R154). -/
  | seed (rest : List FtEntry)
  /-- The HTB stage, before a merge (rule R154). -/
  | merge
  /-- The CA stage of a tree that is one Leaf: its one step (rule R169). -/
  | single (x : Symbol)
  /-- The CA stage, before a node is visited (rule R169). -/
  | walk
  /-- BUILD, before its final step (rule R180). -/
  | buildEnd
  /-- COMPRESS with a tree, and the operand symbols not yet consumed (rule R199). -/
  | compress (rest : List Symbol)
  /-- COMPRESS with no tree, and the operand symbols not yet dropped (rule R191). -/
  | compressDrop (rest : List Symbol)
  /-- DECOMPRESS with a tree, and the operand digits not yet consumed (rule R216). -/
  | decompress (rest : List Digit)
  /-- DECOMPRESS with no tree, and the operand digits not yet dropped (rule R206). -/
  | decompressDrop (rest : List Digit)
  /-- CLEAR: its one step (rule R289). -/
  | clear
  /-- A query with its answer: its one step (rule R289). -/
  | query (r : Response)
  /-- The command has ended. -/
  | done
  deriving DecidableEq, Repr

/-- A command in progress. -/
structure Micro where
  work : Work
  st : State
  deriving DecidableEq, Repr

/-- After a visit: the next pending node, or the final step of BUILD. -/
def enterVisit (s : State) : Micro :=
  if s.tr.stack = [] then { work := .buildEnd, st := s } else { work := .walk, st := s }

/-- The start of the CA stage (rule R165). -/
def enterWalk (s : State) : Except Fault Micro :=
  match nodeRead s.per.root s with
  | none => .error .noSymbols
  | some (.leaf x _) => .ok { work := .single x, st := startWalk s }
  | some (.internal _ _ _) => .ok { work := .walk, st := setStack [(s.per.root, [])] (startWalk s) }

/-- The test of the merge loop (rule R144); when it ends, the root (rule R149) and the CA stage. -/
def enterMerge (s : State) : Except Fault Micro :=
  if 1 < s.tr.pq.length then .ok { work := .merge, st := s }
  else
    match takeRoot s with
    | .error f => .error f
    | .ok s1 => enterWalk s1

/-- The next entry to seed, or the merge loop. -/
def enterSeed (rest : List FtEntry) (s : State) : Except Fault Micro :=
  match rest with
  | [] => enterMerge s
  | e :: es => .ok { work := .seed (e :: es), st := s }

/-- The next symbol of the FT stage, or the HTB stage. -/
def enterFt (rest : List Symbol) (s : State) : Except Fault Micro :=
  match rest with
  | [] => enterSeed s.per.mem.ft (pqClear s)
  | x :: xs => .ok { work := .ft (x :: xs), st := s }

/-- The next symbol of COMPRESS, or its end. R199 gives the write of STATUS and the response no step of their own.
DESIGN CHOICE, log entry 16: they go with the last symbol's step, and for an empty text with the start. -/
def enterCompress (rest : List Symbol) (s : State) : Micro :=
  match rest with
  | [] => { work := .done, st := compressDone s }
  | x :: xs => { work := .compress (x :: xs), st := s }

/-- The next symbol to drop, or the end with NoTreeError, which goes with the last symbol dropped. DESIGN CHOICE: log
entry 16. -/
def enterCompressDrop (rest : List Symbol) (s : State) : Micro :=
  match rest with
  | [] => { work := .done, st := compressNoTree s }
  | x :: xs => { work := .compressDrop (x :: xs), st := s }

/-- A visit of the walk with an explicit stack (rules R168, R169): the node on top, a Leaf recorded, an Internal
node's children left pending, the left one on top (rule R163). -/
def visitStep (s : State) : Except Fault State :=
  match s.tr.stack with
  | [] => .ok s
  | (id, path) :: pending =>
    match nodeRead id s with
    | none => .error (.invalidNode id)
    | some (.leaf x _) => .ok (leafAction x path (setPath path (setStack pending s)))
    | some (.internal _ l r) =>
      .ok (setPath path (setStack ((l, path ++ [false]) :: (r, path ++ [true]) :: pending) s))

/-- One small step. -/
def microStep (m : Micro) : Except Fault Micro :=
  match m.work with
  | .discard [] => .ok { work := .emptyText, st := discard m.st }
  | .discard (x :: xs) => enterFt (x :: xs) (ftClear (discard m.st))
  | .emptyText => .ok { work := .done, st := buildFailed m.st }
  | .ft [] => enterFt [] m.st
  | .ft (x :: xs) => enterFt xs (ftStep m.st x)
  | .seed [] => enterSeed [] m.st
  | .seed (e :: es) => enterSeed es (seedStep m.st e)
  | .merge =>
    match mergeStep m.st with
    | .error f => .error f
    | .ok s1 => enterMerge s1
  | .single x => .ok { work := .buildEnd, st := recordCode x forcedCode m.st }
  | .walk =>
    match visitStep m.st with
    | .error f => .error f
    | .ok s1 => .ok (enterVisit s1)
  | .buildEnd => .ok { work := .done, st := buildDone m.st }
  | .compress [] => .ok (enterCompress [] m.st)
  | .compress (x :: xs) => .ok (enterCompress xs (compressStep m.st x))
  | .compressDrop [] => .ok (enterCompressDrop [] m.st)
  | .compressDrop (_ :: xs) => .ok (enterCompressDrop xs m.st)
  | .decompress [] => .ok { work := .done, st := decompressEnd m.st }
  | .decompress (d :: ds) => .ok { work := .decompress ds, st := digitStep m.st d }
  | .decompressDrop [] => .ok { work := .done, st := decompressNoTree m.st }
  | .decompressDrop (_ :: ds) => .ok { work := .decompressDrop ds, st := m.st }
  | .clear => .ok { work := .done, st := respondClear (setStatus .ok (discard m.st)) }
  | .query r => .ok { work := .done, st := respond r m.st }
  | .done => .ok m

/-- `k` small steps. -/
def microRun : Nat → Micro → Except Fault Micro
  | 0, m => .ok m
  | k + 1, m =>
    match microStep m with
    | .error f => .error f
    | .ok m1 => microRun k m1

/-- The text on IN. -/
def inText (s : State) : List Symbol := (asText s.inp).getD []

/-- The digits on IN. -/
def inDigits (s : State) : List Digit := (asDigits s.inp).getD []

/-- The answer of the query command `i` to the symbol on IN. -/
def inAnswer (answer : Symbol → State → Response) (s : State) : Response := answer ((inText s).headD 0) s

/-- The command `i` before its first small step, its operand taken from IN. R199 and R216 count one step per item (and
the end test of DECOMPRESS) and give no step to what stands before the loop. DESIGN CHOICE, log entry 16: the VALID test
of COMPRESS and DECOMPRESS, the zeroing of the statistics (R192) and `BUF <- ""` (R207) are done before the first step,
so a COMPRESS of an empty text ends in no step at all. -/
def microStart (i : Instr) (s : State) : Micro :=
  match i with
  | .build => { work := .discard (inText s), st := startCommand s }
  | .compress =>
    if s.per.valid then enterCompress (inText s) (zeroStats (startCommand s))
    else enterCompressDrop (inText s) (startCommand s)
  | .decompress =>
    if s.per.valid then { work := .decompress (inDigits s), st := setBuf [] (startCommand s) }
    else { work := .decompressDrop (inDigits s), st := startCommand s }
  | .clear => { work := .clear, st := startCommand s }
  | .qfreq => { work := .query (inAnswer (fun x s => .qfreq (freqAnswer x s)) s), st := startCommand s }
  | .qcode => { work := .query (inAnswer codeAnswer s), st := startCommand s }
  | .qmember => { work := .query (inAnswer memberAnswer s), st := startCommand s }

/-- How many small steps the command `i` takes from `s` to its end in `t` (rules R180, R199, R216, R289). -/
def microCount (i : Instr) (s t : State) : Nat :=
  match i with
  | .build =>
    if inText s = [] then 2
    else 1 + (inText s).length + (2 * t.per.nsym - 1) + t.per.nodecount + 1
  | .compress => (inText s).length
  | .decompress => (inDigits s).length + 1
  | .clear => 1
  | .qfreq => 1
  | .qcode => 1
  | .qmember => 1

/-- Reset while a command is in progress: the command is abandoned, its response never produced, and HCE is in
the reset state (rule R276). -/
def microReset (m : Micro) : Micro := { work := .done, st := hostReset m.st.host m.st }

end Sys2Proof.Machine
end

