-- ==== Sys2Proof/Machine/Program.lean ====
section
/-!
DEFINITION. The syntax of the spec's programs (rule R106) and the pseudo-commands (rule R107): a line of text read
as host actions. A character stands for its ASCII value (G1 of 93_implementation_defined.md; log entry 17).
-/

namespace Sys2Proof.Machine

/-- A program line: a command with its operand, or the host's reset. -/
inductive Line where
  | command (i : Instr) (op : Operand)
  | reset
  /-- Nothing but blanks or a comment. -/
  | blank
  deriving DecidableEq, Repr

/-- A line assembles to one command word and the items of its operand (rule R106); `RESET` is no command word
(rule R107). -/
def assemble : Line → List HostAction
  | .command i op => [.issue (encode i) op]
  | .reset => [.reset]
  | .blank => []

/-- The mnemonics of rule R91 with their commands. -/
def mnemonicTable : List (List Char × Instr) :=
  [(['B', 'U', 'I', 'L', 'D'], .build),
   (['C', 'O', 'M', 'P', 'R', 'E', 'S', 'S'], .compress),
   (['D', 'E', 'C', 'O', 'M', 'P', 'R', 'E', 'S', 'S'], .decompress),
   (['C', 'L', 'E', 'A', 'R'], .clear),
   (['Q', 'F', 'R', 'E', 'Q'], .qfreq),
   (['Q', 'C', 'O', 'D', 'E'], .qcode),
   (['Q', 'M', 'E', 'M', 'B', 'E', 'R'], .qmember)]

/-- The pseudo-command `RESET` (rule R107). -/
def resetName : List Char := ['R', 'E', 'S', 'E', 'T']

/-- The line without its leading blanks. -/
def skipBlanks : List Char → List Char
  | [] => []
  | c :: cs => if c = ' ' then skipBlanks cs else c :: cs

/-- Nothing follows but blanks and a comment, which `;` starts (rule R106). -/
def lineEnds (cs : List Char) : Bool :=
  match skipBlanks cs with
  | [] => true
  | c :: _ => decide (c = ';')

/-- The first word of a line and what follows it. -/
def takeWord : List Char → List Char × List Char
  | [] => ([], [])
  | c :: cs =>
    if c = ' ' || c = ';' then ([], c :: cs)
    else ((c :: (takeWord cs).1), (takeWord cs).2)

/-- The characters up to the closing double quote, and what follows it. -/
def takeQuoted : List Char → Option (List Char × List Char)
  | [] => none
  | c :: cs =>
    if c.toNat = 34 then some ([], cs)
    else
      match takeQuoted cs with
      | none => none
      | some (q, rest) => some (c :: q, rest)

/-- The operand in double quotes that starts here. -/
def parseQuoted (cs : List Char) : Option (List Char × List Char) :=
  match skipBlanks cs with
  | [] => none
  | c :: rest => if c.toNat = 34 then takeQuoted rest else none

/-- The symbol of a character: its ASCII value (G1). -/
def symbolOfChar (c : Char) : Symbol := c.toNat

/-- A digit of a binary sequence: the character `0` or `1`. -/
def digitOfChar (c : Char) : Option Digit :=
  if c = '0' then some false else if c = '1' then some true else none

/-- The digits of a binary sequence. -/
def digitsOfChars : List Char → Option (List Digit)
  | [] => some []
  | c :: cs =>
    match digitOfChar c, digitsOfChars cs with
    | some d, some ds => some (d :: ds)
    | _, _ => none

/-- One symbol in single quotes, and what follows it. -/
def parseSymbol (cs : List Char) : Option (Symbol × List Char) :=
  match skipBlanks cs with
  | a :: c :: b :: rest => if a.toNat = 39 && b.toNat = 39 then some (symbolOfChar c, rest) else none
  | _ => none

/-- The operand of a command, as its kind is written (rule R106). -/
def parseOperand (k : OperandKind) (cs : List Char) : Option (Operand × List Char) :=
  match k with
  | .none => some (.none, cs)
  | .oneSymbol => (parseSymbol cs).map fun p => (.text [p.1], p.2)
  | .text => (parseQuoted cs).map fun p => (.text (p.1.map symbolOfChar), p.2)
  | .digits =>
    match parseQuoted cs with
    | none => none
    | some (q, rest) => (digitsOfChars q).map fun b => (.digits b, rest)

/-- A program line (rules R106, R107); none when it is not of the syntax. -/
def parseLine (cs : List Char) : Option Line :=
  if lineEnds cs then some .blank
  else
    match mapFind (takeWord (skipBlanks cs)).1 mnemonicTable with
    | some i =>
      match parseOperand (operandKindOf i) (takeWord (skipBlanks cs)).2 with
      | none => none
      | some (op, rest) => if lineEnds rest then some (.command i op) else none
    | none =>
      if (takeWord (skipBlanks cs)).1 = resetName && lineEnds (takeWord (skipBlanks cs)).2
      then some .reset else none

/-- A program: its lines, first line first, as host actions; none when a line is not of the syntax. -/
def assembleProgram : List (List Char) → Option (List HostAction)
  | [] => some []
  | l :: ls =>
    match parseLine l, assembleProgram ls with
    | some a, some as => some (assemble a ++ as)
    | _, _ => none

/-- The command `i` with the operand `op`, from `s`. -/
def runCommand (i : Instr) (op : Operand) (s : State) : Host.Outcome State Fault Refusal :=
  exec i (accept op s.host s)

/-- `ROUNDTRIP "t"`: COMPRESS of `t`, then DECOMPRESS of the binary sequence it returned (rule R107). -/
def roundTrip (t : List Symbol) (s : State) : Host.Outcome State Fault Refusal :=
  match runCommand .compress (.text t) s with
  | .next s1 => runCommand .decompress (.digits s1.out.digits) s1
  | .fault f => .fault f
  | .refused r => .refused r

end Sys2Proof.Machine
end

