-- ==== Sys2Proof/WellFormed.lean ====
section
/-!
DEFINITION. Which operand a command admits (rules R6, R7, R62, R63): its kind, its number of items and the width
of its items. A command word itself has no ill-formed value: every `Instr` is one of the seven legal words.
-/

namespace Sys2Proof

open Sys2Proof.Machine

/-- An operand form was read and not refused. -/
def admitted {α : Type} (r : Except Refusal α) : Bool :=
  match r with
  | .ok _ => true
  | .error _ => false

/-- The operand `op` is in the admitted domain of the command `i` under the parameters `c`. -/
def WellFormed (c : Config) (i : Instr) (op : Operand) : Bool :=
  match operandKindOf i with
  | .text => admitted (textOperand c op)
  | .digits => admitted (digitsOperand c op)
  | .oneSymbol => admitted (symbolOperand c op)
  | .none => noItems op

end Sys2Proof
end

