-- ==== Sys2Proof/Safety.lean ====
section
/-!
DEFINITION. What holds of a good state: the canonical form of the tables, the invariants of rules R42 and R43, the
decoder as a machine on its own (rule R207), and the observations of a run (rule R290).
-/

namespace Sys2Proof.Machine

/-! ### The canonical form of the memory -/

/-- The canonical form of the tables: ENC and DEC in rising key order, FT with no symbol twice (log entry 10). -/
abbrev Memory.wf (m : Memory) : Prop :=
  m.enc.Pairwise (fun a b => symbolLt a.1 b.1 = true) ∧
  m.dec.Pairwise (fun a b => codeLt a.1 b.1 = true) ∧
  (m.ft.map FtEntry.sym).Nodup

/-- The canonical form of PQ: keys rise strictly (log entry 11). -/
abbrev pqSorted (q : List PqEntry) : Prop := q.Pairwise fun a b => keyLt a b = true

/-! ### The invariants of the persistent state when VALID = 1 (rule R42) -/

/-- Rule R42 item 1, with every symbol a value of `SYM_W` bits (rule R6). -/
abbrev ftOk (c : Config) (p : Persistent) : Prop :=
  1 ≤ p.nsym ∧ p.mem.ft.length = p.nsym ∧ (p.mem.ft.map FtEntry.sym).Nodup ∧
  ∀ e ∈ p.mem.ft, 1 ≤ e.count ∧ symbolFits c e.sym = true

/-- The frequency of the NODE entry `k`, 0 when it is not valid. -/
def freqAt (node : List TreeNode) (k : Nat) : Nat :=
  match node[k]? with
  | some v => nodeFreq v
  | none => 0

/-- The children a NODE entry owns. -/
def childrenOf : TreeNode → List Nat
  | .leaf _ _ => []
  | .internal _ l r => [l, r]

/-- Rule R42 items 2 and 3 for the id `k`: below NSYM the Leaf of FT entry `k`; from NSYM on an Internal entry
with two different older children and the sum of their frequencies. -/
def nodeOk (p : Persistent) (k : Nat) : Bool :=
  match p.mem.node[k]? with
  | none => false
  | some (.leaf x f) => decide (k < p.nsym) && decide (p.mem.ft[k]? = some { sym := x, count := f })
  | some (.internal f l r) =>
    decide (p.nsym ≤ k) && decide (l < k) && decide (r < k) && decide (l ≠ r) &&
    decide (f = freqAt p.mem.node l + freqAt p.mem.node r)

/-- Rule R42 items 2 and 3: the counts, every entry, and every id but ROOT the child of exactly one entry. -/
abbrev treeOk (p : Persistent) : Prop :=
  p.nodecount = 2 * p.nsym - 1 ∧ p.mem.node.length = p.nodecount ∧ p.root = p.nodecount - 1 ∧
  (∀ k < p.nodecount, nodeOk p k = true) ∧
  ∀ k < p.nodecount, (p.mem.node.flatMap childrenOf).count k = if k = p.root then 0 else 1

/-- Rule R42 item 4, its part about the state alone: the root's frequency is the sum of the counts of FT. -/
abbrev frequencyOk (p : Persistent) : Prop :=
  freqAt p.mem.node p.root = (p.mem.ft.map FtEntry.count).sum

/-- Rule R42 item 5: the keys of ENC are the symbols of FT, and ENC and DEC are inverses of each other. -/
abbrev mapsOk (p : Persistent) : Prop :=
  p.mem.enc.length = p.nsym ∧ p.mem.dec.length = p.nsym ∧
  (∀ e ∈ p.mem.ft, (mapFind e.sym p.mem.enc).isSome = true) ∧
  (∀ e ∈ p.mem.enc, mapFind e.2 p.mem.dec = some e.1) ∧
  ∀ e ∈ p.mem.dec, mapFind e.2 p.mem.enc = some e.1

/-- No code of ENC is empty and the set of codes is prefix-free (rule R42 item 6). -/
abbrev codesOk (p : Persistent) : Prop :=
  (∀ e ∈ p.mem.enc, e.2 ≠ []) ∧
  ∀ a ∈ p.mem.enc, ∀ b ∈ p.mem.enc, a.1 ≠ b.1 → a.2.isPrefixOf b.2 = false

/-- Following the path `c` from the node `id`, `0` to the left and `1` to the right, leads to the Leaf of `x`
(rules R97, R98). -/
def leadsTo (node : List TreeNode) : Nat → Code → Symbol → Bool
  | id, [], x =>
    match node[id]? with
    | some (.leaf y _) => decide (x = y)
    | _ => false
  | id, d :: ds, x =>
    match node[id]? with
    | some (.internal _ l r) => leadsTo node (if d then r else l) ds x
    | _ => false

/-- The greatest length of a code. -/
def longestCode (enc : List (Symbol × Code)) : Nat := enc.foldr (fun e n => max e.2.length n) 0

/-- Rule R42 item 6: from two symbols on, codes are paths and HEIGHT is the greatest code length; with one
symbol the code is "0" and HEIGHT is 0. -/
abbrev pathsOk (p : Persistent) : Prop :=
  (2 ≤ p.nsym → (∀ e ∈ p.mem.enc, leadsTo p.mem.node p.root e.2 e.1 = true) ∧
    p.height = longestCode p.mem.enc) ∧
  (p.nsym = 1 → p.height = 0 ∧ ∀ e ∈ p.mem.enc, e.2 = [false])

/-- The invariants of rule R42. -/
abbrev builtOk (c : Config) (p : Persistent) : Prop :=
  ftOk c p ∧ treeOk p ∧ frequencyOk p ∧ mapsOk p ∧ codesOk p ∧ pathsOk p

/-- The invariant of rule R43: every table empty and every register but STATUS zero. -/
abbrev emptyOk (p : Persistent) : Prop := p = { Persistent.reset with status := p.status }

/-- The ranges of the statistics (rules R34 to R36). -/
abbrev statsOk (c : Config) (p : Persistent) : Prop :=
  p.skipcount ≤ p.symcount ∧ within c.maxText p.symcount = true ∧ within c.maxBits p.bitcount = true

/-- What holds of the persistent state between commands. -/
abbrev State.Inv (s : State) : Prop :=
  s.per.mem.wf ∧ statsOk s.cfg s.per ∧
  (s.per.valid = true → builtOk s.cfg s.per) ∧ (s.per.valid = false → emptyOk s.per)

/-- What COMPRESS emits for the symbol `x`: its code, or nothing when it has none (rules R193, R194). -/
def codeOrNothing (s : State) (x : Symbol) : Code := (encFind x s).getD []

/-- The symbol `x` has a code (rule R228). -/
def isMapped (s : State) (x : Symbol) : Bool := (encFind x s).isSome

/-! ### The decoder as a machine on its own -/

/-- The machine `Accumulating(buffer)` over a fixed map (rules R207 to R209): what it emits on the digits, and
the buffer it ends with. -/
def decodeFrom (dec : List (Code × Symbol)) : Code → List Digit → List Symbol × Code
  | buf, [] => ([], buf)
  | buf, d :: ds =>
    match mapFind (buf ++ [d]) dec with
    | some x => (x :: (decodeFrom dec [] ds).1, (decodeFrom dec [] ds).2)
    | none => decodeFrom dec (buf ++ [d]) ds

/-- A decoder whose buffer holds at most `cap` digits, with one "dead" bit that makes every later lookup miss once
the buffer would grow beyond them (rule R214): what it emits, and whether it ends with an empty buffer. -/
def decodeBounded (cap : Nat) (dec : List (Code × Symbol)) : Code → Bool → List Digit → List Symbol × Bool
  | buf, dead, [] => ([], !dead && buf.isEmpty)
  | buf, dead, d :: ds =>
    if dead || decide (cap ≤ buf.length) then decodeBounded cap dec buf true ds
    else
      match mapFind (buf ++ [d]) dec with
      | some x => (x :: (decodeBounded cap dec [] false ds).1, (decodeBounded cap dec [] false ds).2)
      | none => decodeBounded cap dec (buf ++ [d]) false ds

/-! ### Runs -/

/-- The command word a host action sends. -/
def actionWord : HostAction → Option CommandWord
  | .issue w _ => some w
  | .issueOpen w _ => some w
  | .read _ => none
  | .reset => none

/-- The next host action sends one of these words. -/
def nextWordIn (ws : List CommandWord) (s : State) : Bool :=
  match s.host with
  | [] => false
  | a :: _ =>
    match actionWord a with
    | none => false
    | some w => decide (w ∈ ws)

/-- The next host action is reset. -/
def nextIsReset (s : State) : Bool :=
  match s.host with
  | .reset :: _ => true
  | _ => false

/-- A machine with the parameters `c`, right after reset, whose host is going to do `acts`: the start of a run
(rule R290). -/
def runStart (c : Config) (acts : List HostAction) : State := { State.resetFor c with host := acts }

/-- What the host gets back, in order, in at most `k` steps (rule R290): the responses and register values. -/
def observations : Nat → State → List Observation
  | 0, _ => []
  | k + 1, s =>
    if s.host.isEmpty then []
    else
      match step s with
      | .next t => t.resp.toList ++ observations k t
      | .fault _ => []
      | .refused _ => []

/-- The state `k` steps lead to, when none of them stops. -/
def stateAfter : Nat → State → Option State
  | 0, s => some s
  | k + 1, s =>
    match step s with
    | .next t => stateAfter k t
    | .fault _ => none
    | .refused _ => none

end Sys2Proof.Machine
end

