-- ==== Sys2Proof/Certificates/Slice0/Obligations.lean ====
section
/-!
DEFINITION. The statements for the provers. Each docstring names the rules it formalises or rests on.
-/

open Sys2Proof Sys2Proof.Machine

/-! ### Command words (30_encoding.md) -/

/-- The words 0x01 to 0x07 of the opcode map of R91 decode to their commands. Words written out from the table. -/
def Obligations.OpcodeMapDecodes : Prop :=
  decode 0b00000001#8 = .ok .build ∧ decode 0b00000010#8 = .ok .compress ∧
  decode 0b00000011#8 = .ok .decompress ∧ decode 0b00000100#8 = .ok .clear ∧
  decode 0b00000101#8 = .ok .qfreq ∧ decode 0b00000110#8 = .ok .qcode ∧
  decode 0b00000111#8 = .ok .qmember

/-- R90, R91: encoding and decoding are inverse to each other, and every legal word is some command's. -/
def Obligations.DecodeEncodeAgree : Prop :=
  (∀ i : Instr, decode (encode i) = .ok i) ∧ ∀ (w : CommandWord) (i : Instr), decode w = .ok i → w = encode i

/-- R94: which words are legal; a reserved word is given no step, whether or not its operand is ended. -/
def Obligations.ReservedWordsRefused : Prop :=
  (∀ w : CommandWord, (∃ i, decode w = .ok i) ↔
    rsvField w = 0#4 ∧ 1 ≤ (opField w).toNat ∧ (opField w).toNat ≤ 7) ∧
  ((List.range 256).filter fun n => (decode (BitVec.ofNat 8 n)).toOption.isNone).length = 249 ∧
  ∀ (s : State) (w : CommandWord) (op : Operand) (rest : List HostAction),
    ¬ (rsvField w = 0#4 ∧ 1 ≤ (opField w).toNat ∧ (opField w).toNat ≤ 7) → s.busy = false →
    (s.host = .issue w op :: rest ∨ s.host = .issueOpen w op :: rest) → step s = .refused (.reservedWord w)

/-! ### The host's actions (70_reset_and_hazards.md) -/

/-- R9, R62, R64, R280: a legal word with its operand, sent while no command is in progress, is one step of that
command, whose operand is on IN and whose OUT and response start empty. CLEAR takes no item, and with items it is
refused (log entry 7). -/
def Obligations.StepRunsDecodedCommand : Prop :=
  (∀ (s : State) (w : CommandWord) (op : Operand) (rest : List HostAction) (i : Instr),
    s.busy = false → decode w = .ok i → (i = .clear → noItems op = true) →
    (s.host = .issue w op :: rest ∨ (i = .clear ∧ s.host = .issueOpen w op :: rest)) →
    step s = exec i { s with inp := op, out := { digits := [], text := [] }, resp := none, host := rest }) ∧
  ∀ (s : State) (w : CommandWord) (op : Operand) (rest : List HostAction),
    s.busy = false → decode w = .ok .clear → noItems op = false →
    (s.host = .issue w op :: rest ∨ s.host = .issueOpen w op :: rest) → step s = .refused .operandKind

/-- R230, R282: between commands a register read answers the register's value and has no side effect. ROOT is answered
where the parameter `rootPort` says so (R29 and the field table of 10_state.md) and refused where it does not (R41); that
both are models is log entry 23. -/
def Obligations.RegisterReadHasNoEffect : Prop :=
  (∀ (s : State) (r : Reg) (rest : List HostAction), s.busy = false → s.host = .read r :: rest →
    (r = .root → s.cfg.rootPort = true) →
    step s = .next { s with resp := some (.register r (readReg r s.per)), host := rest }) ∧
  (∀ (s : State) (rest : List HostAction), s.busy = false → s.host = .read .root :: rest →
    s.cfg.rootPort = false → step s = .refused .noReadPort) ∧
  ∀ p : Persistent,
    readReg .height p = p.height ∧ readReg .nodecount p = p.nodecount ∧ readReg .nsym p = p.nsym ∧
    readReg .valid p = (if p.valid then 1 else 0) ∧ readReg .status p = p.status.toNat ∧
    readReg .skipcount p = p.skipcount ∧ readReg .bitcount p = p.bitcount ∧ readReg .symcount p = p.symcount ∧
    readReg .root p = p.root

/-- R44: what reset leaves, for every value of the parameters, that it is the state CLEAR leaves, and that no command's
result depends on what the transients hold before it. -/
def Obligations.ResetStateValues : Prop :=
  (∀ c : Config,
    (State.resetFor c).per =
      { valid := false, status := 0#2, nsym := 0, nodecount := 0, root := 0, height := 0, skipcount := 0,
        bitcount := 0, symcount := 0, mem := { ft := [], node := [], enc := [], dec := [] } } ∧
    (State.resetFor c).busy = false ∧
    ∀ s t : State, exec .clear s = .next t → t.per = (State.resetFor c).per) ∧
  ∀ (i : Instr) (s t : State) (tr' : Transient), exec i s = .next t →
    ∃ t', exec i { s with tr := tr' } = .next t' ∧ t'.per = t.per ∧ t'.out = t.out ∧ t'.resp = t.resp

/-- R275, R276: reset is taken in every state, a command in progress is abandoned without a response, and HCE is in
the reset state, which is the state after CLEAR; the same between any two small steps of a command. That OUT is empty
then and that the parameters and the rest of the host's list are kept is the model's choice (log entry 22), and so is
where a command is cut into small steps (log entry 16). -/
def Obligations.ResetTakenInEveryState : Prop :=
  (∀ (s : State) (rest : List HostAction), s.host = .reset :: rest →
    ∃ t, step s = .next t ∧ t.per = Persistent.reset ∧ t.busy = false ∧ t.resp = none ∧
      t.out = { digits := [], text := [] } ∧ t.cfg = s.cfg ∧ t.host = rest) ∧
  (∀ s t : State, exec .clear s = .next t → t.per = Persistent.reset) ∧
  ∀ m : Micro, (microReset m).work = .done ∧ (microReset m).st.per = Persistent.reset ∧
    (microReset m).st.busy = false ∧ (microReset m).st.resp = none

/-- R280, R282, U3, U12: a command whose operand is never ended stays in progress, without a response, until reset;
while it is in progress every command and every register read is refused. What it has put on OUT is free within R64: only
COMPRESS emits digits, only DECOMPRESS symbols, and with no tree neither emits (R191, R206). The hanging state is the
model's choice (log entries 8 and 24), and the refusals are (log entry 18). -/
def Obligations.UnendedOperandWaitsForReset : Prop :=
  (∀ (s : State) (w : CommandWord) (op : Operand) (rest : List HostAction) (i : Instr),
    s.busy = false → s.host = .issueOpen w op :: rest → decode w = .ok i → i ≠ .clear →
    ∃ t, step s = .next t ∧ t.busy = true ∧ t.resp = none ∧ t.host = rest ∧
      (i ≠ .compress → t.out.digits = []) ∧ (i ≠ .decompress → t.out.text = []) ∧
      (s.per.valid = false → t.out = { digits := [], text := [] }) ∧
      within s.cfg.maxBits t.out.digits.length = true ∧ itemsFit s.cfg t.out.text = true ∧
      ∀ bits : List Digit, asDigits op = some bits → t.out.text.length ≤ bits.length) ∧
  (∀ s t : State, s.busy = true → step s = .next t →
    t = s ∨ (nextIsReset s = true ∧ t.busy = false ∧ t.per = Persistent.reset)) ∧
  ∀ (s : State) (w : CommandWord) (op : Operand) (r : Reg) (rest : List HostAction), s.busy = true →
    (s.host = .issue w op :: rest ∨ s.host = .issueOpen w op :: rest ∨ s.host = .read r :: rest) →
    step s = .refused .commandInProgress

/-- R272: with nothing asked of it HCE keeps its state; only CLEAR, BUILD and reset discard state, so no other step
changes a table, VALID, NSYM, NODECOUNT, ROOT or HEIGHT. That an idle step keeps the whole State, the transients and a
hanging command included, is the model's choice (log entry 15); R272 says it of the persistent state between commands. -/
def Obligations.OnlyBuildClearResetChangeTables : Prop :=
  (∀ s : State, s.host = [] → step s = .next s) ∧
  ∀ s t : State, step s = .next t → nextIsReset s = false → nextWordIn [0x01#8, 0x04#8] s = false →
    t.per.mem = s.per.mem ∧ t.per.valid = s.per.valid ∧ t.per.nsym = s.per.nsym ∧
    t.per.nodecount = s.per.nodecount ∧ t.per.root = s.per.root ∧ t.per.height = s.per.height

/-- R6, R7, R20: no step changes the parameters. -/
def Obligations.StepKeepsParameters : Prop :=
  ∀ s t : State, step s = .next t → t.cfg = s.cfg

/-! ### The admitted domain (rules R7, R63) -/

/-- R7: a text longer than MAX_TEXT, a binary sequence longer than MAX_BITS and a COMPRESS whose result would be
longer than MAX_BITS are refused. That COMPRESS and DECOMPRESS refuse such an operand with no tree too is the model's
reading of R7 against R191 and R206 (log entry 5, DEDUCED). -/
def Obligations.BeyondBoundsRefused : Prop :=
  (∀ (s : State) (text : List Symbol) (m : Nat), asText s.inp = some text → itemsFit s.cfg text = true →
    s.cfg.maxText = some m → m < text.length →
    exec .build s = .refused .operandTooLong ∧ exec .compress s = .refused .operandTooLong) ∧
  (∀ (s : State) (bits : List Digit) (m : Nat), asDigits s.inp = some bits → s.cfg.maxBits = some m →
    m < bits.length → exec .decompress s = .refused .operandTooLong) ∧
  ∀ (s : State) (text : List Symbol) (m : Nat), asText s.inp = some text → itemsFit s.cfg text = true →
    within s.cfg.maxText text.length = true → s.per.valid = true → s.cfg.maxBits = some m →
    m < (text.flatMap (codeOrNothing s)).length → exec .compress s = .refused .resultTooLong

/-- R63, U10: a query operand of any length but one is refused. -/
def Obligations.QueryOfOtherLengthRefused : Prop :=
  ∀ (s : State) (text : List Symbol), asText s.inp = some text → text.length ≠ 1 →
    exec .qfreq s = .refused .notOneSymbol ∧ exec .qcode s = .refused .notOneSymbol ∧
    exec .qmember s = .refused .notOneSymbol

/-- R178, R289 with R7, R63: a command answers a next state exactly when its operand is admitted (CLEAR always) and,
for a COMPRESS with a tree, its result is within MAX_BITS; no command faults in any state. The refusals with no tree are
the model's reading (log entry 5), and that CLEAR completes whatever is on IN is its choice (log entry 7). -/
def Obligations.CommandsCompleteWhenAdmitted : Prop :=
  (∀ (i : Instr) (s : State), (∃ t, exec i s = .next t) ↔
    (i = .clear ∨ WellFormed s.cfg i s.inp = true) ∧
    (i = .compress → s.per.valid = true →
      within s.cfg.maxBits ((inText s).flatMap (codeOrNothing s)).length = true)) ∧
  ∀ (i : Instr) (s : State) (f : Fault), exec i s ≠ .fault f

/-! ### The FrequencyTable unit (40_frequency_table.md) -/

/-- R131: FT holds the distinct symbols in order of first occurrence, each with its number of positions. -/
def Obligations.FtCountsInFirstOccurrenceOrder : Prop :=
  ∀ (text : List Symbol) (s : State),
    (ftStage text s).per.mem.ft = text.eraseDups.map (fun x => { sym := x, count := text.count x }) ∧
    (ftStage text s).per.nsym = text.eraseDups.length

/-- R132: the FT stage writes FT and NSYM and nothing else, and on an empty text leaves FT empty and NSYM 0. -/
def Obligations.FtStageWritesFtAndNsymOnly : Prop :=
  (∀ (text : List Symbol) (s : State), ftStage text s = { s with per := { s.per with
      nsym := (ftStage text s).per.nsym
      mem := { s.per.mem with ft := (ftStage text s).per.mem.ft } } }) ∧
  ∀ s : State, (ftStage [] s).per.mem.ft = [] ∧ (ftStage [] s).per.nsym = 0

/-- R133 (a) to (f): what holds of the table of any text. -/
def Obligations.FrequencyTableProperties : Prop :=
  ∀ (text : List Symbol) (s : State),
    ((ftStage text s).per.mem.ft.map FtEntry.sym).Nodup ∧
    (∀ e ∈ (ftStage text s).per.mem.ft, 1 ≤ e.count) ∧
    ((ftStage text s).per.mem.ft.map FtEntry.count).sum = text.length ∧
    (ftStage text s).per.nsym ≤ text.length ∧
    (itemsFit s.cfg text = true → (ftStage text s).per.nsym ≤ s.cfg.nMax) ∧
    ((ftStage text s).per.nsym = 0 ↔ text = []) ∧
    ∀ s' : State, (ftStage text s').per.mem.ft = (ftStage text s).per.mem.ft

/-! ### The HuffmanTreeBuilder unit (41_tree_builder.md) -/

/-- R102: keys are ordered lexicographically, the order is strict and, between different sequence numbers, total, and
it is the order of the packed words. -/
def Obligations.KeyOrderIsTotalAndPacked : Prop :=
  (∀ a b : PqEntry, keyLt a b = true ↔ a.freq < b.freq ∨ (a.freq = b.freq ∧ a.seq < b.seq)) ∧
  (∀ a b : PqEntry, a.seq ≠ b.seq → (keyLt a b = true ↔ keyLt b a = false)) ∧
  (∀ a b c : PqEntry, keyLt a b = true → keyLt b c = true → keyLt a c = true) ∧
  ∀ (w : Nat) (a b : PqEntry), a.seq < 2 ^ w → b.seq < 2 ^ w →
    (keyPacked w a < keyPacked w b ↔ keyLt a b = true)

/-- R143: among pairwise different keys an extraction takes the smallest and leaves the others, and what it takes does
not depend on the order in which PQ holds them. -/
def Obligations.ExtractMinTakesSmallestKey : Prop :=
  ∀ q : List PqEntry, (q.map fun e => (e.freq, e.seq)).Nodup →
    (q ≠ [] → (pqTake q).isSome = true) ∧
    (∀ (e : PqEntry) (rest : List PqEntry), pqTake q = some (e, rest) →
      q.Perm (e :: rest) ∧ ∀ a ∈ rest, keyLt e a = true) ∧
    ∀ q' : List PqEntry, q'.Perm q → (pqTake q').map Prod.fst = (pqTake q).map Prod.fst

/-- R149, R150, R38: a BUILD of n distinct symbols makes 2n−1 nodes, Leaf entries below n and Internal entries from n
on, each with older children; the root is the last; SEQ ends at NODECOUNT and one entry is left in PQ. That SEQ and PQ
keep what the stage left in them is the model's choice (log entry 9): by R37 the content of PQ after BUILD is not state. -/
def Obligations.BuildNodeCounts : Prop :=
  ∀ (s t : State) (text : List Symbol), asText s.inp = some text → text ≠ [] → exec .build s = .next t →
    t.per.nsym = text.eraseDups.length ∧ t.per.nodecount = 2 * t.per.nsym - 1 ∧
    t.per.mem.node.length = t.per.nodecount ∧ t.per.root = t.per.nodecount - 1 ∧
    t.tr.seq = t.per.nodecount ∧ t.tr.pq.length = 1 ∧
    (∀ (k : Nat) (x : Symbol) (f : Nat), t.per.mem.node[k]? = some (.leaf x f) → k < t.per.nsym) ∧
    ∀ (k f l r : Nat), t.per.mem.node[k]? = some (.internal f l r) → t.per.nsym ≤ k ∧ l < k ∧ r < k

/-- R145, R146, R151: a merge step takes the entry of smallest key as its left and the one of next smallest key as its
right child, and puts the sum back in with the next sequence number; the others stay. So in a built tree the children of
the Internal nodes, in the order they are made and left before right, which is the order of extraction, rise in frequency
and at equal frequency in id: (a) leaves of equal frequency in order of first occurrence, (b) a Leaf before an Internal
node, (c) Internal nodes in the order they are made, (d) the left child before the right; (e) the frequencies of the
Internal nodes never fall in the order they are made. -/
def Obligations.MergesInFrequencyOrder : Prop :=
  (∀ s : State, 2 ≤ s.tr.pq.length → (s.tr.pq.map fun e => (e.freq, e.seq)).Nodup →
    (∀ e ∈ s.tr.pq, e.id < s.per.mem.node.length) → s.tr.seq = s.per.mem.node.length →
    ∃ (a b : PqEntry) (rest q : List PqEntry), s.tr.pq.Perm (a :: b :: rest) ∧ keyLt a b = true ∧
      (∀ e ∈ rest, keyLt b e = true) ∧
      q.Perm ({ freq := freqAt s.per.mem.node a.id + freqAt s.per.mem.node b.id, seq := s.tr.seq, id := s.tr.seq } :: rest) ∧
      mergeStep s = .ok { s with
        per := { s.per with mem := { s.per.mem with node := s.per.mem.node ++
          [.internal (freqAt s.per.mem.node a.id + freqAt s.per.mem.node b.id) a.id b.id] } }
        tr := { s.tr with pq := q, seq := s.tr.seq + 1 } }) ∧
  ∀ (s t : State) (text : List Symbol), asText s.inp = some text → text ≠ [] → exec .build s = .next t →
    (t.per.mem.node.flatMap childrenOf).Pairwise (fun j k =>
      freqAt t.per.mem.node j < freqAt t.per.mem.node k ∨
      (freqAt t.per.mem.node j = freqAt t.per.mem.node k ∧ j < k)) ∧
    (∀ (k f l r : Nat), t.per.mem.node[k]? = some (.internal f l r) →
      freqAt t.per.mem.node l < freqAt t.per.mem.node r ∨
      (freqAt t.per.mem.node l = freqAt t.per.mem.node r ∧ l < r)) ∧
    ∀ j k : Nat, t.per.nsym ≤ j → j ≤ k → k < t.per.nodecount →
      freqAt t.per.mem.node j ≤ freqAt t.per.mem.node k

/-- R152: "root.frequency == sum(frequencyTable.values()) == length(text)"; no Leaf frequency is 0 and every Internal
frequency is at least 2. -/
def Obligations.RootFrequencyIsTextLength : Prop :=
  ∀ (s t : State) (text : List Symbol), asText s.inp = some text → text ≠ [] → exec .build s = .next t →
    freqAt t.per.mem.node t.per.root = text.length ∧ (t.per.mem.ft.map FtEntry.count).sum = text.length ∧
    (∀ (k : Nat) (x : Symbol) (f : Nat), t.per.mem.node[k]? = some (.leaf x f) → 1 ≤ f) ∧
    ∀ (k f l r : Nat), t.per.mem.node[k]? = some (.internal f l r) → 2 ≤ f

/-! ### The CodeAssigner unit (42_code_assigner.md) -/

/-- R164: when the root is a Leaf the code is forced to "0", HEIGHT stays 0 and the tree is unchanged. -/
def Obligations.SingleLeafGetsCodeZero : Prop :=
  ∀ (s : State) (x : Symbol) (f : Nat), s.per.mem.node[s.per.root]? = some (.leaf x f) →
    ∃ t, caStage s = .ok t ∧ t.per.mem.enc = [(x, [false])] ∧ t.per.mem.dec = [([false], x)] ∧
      t.per.height = 0 ∧ t.per.mem.node = s.per.mem.node ∧ t.per.root = s.per.root ∧
      t.per.nodecount = s.per.nodecount

/-- R97, R98: from two distinct symbols on, ENC has a code for every symbol of the text and no other, and
following it from the root leads to the symbol's leaf. -/
def Obligations.CodesArePathsToLeaves : Prop :=
  ∀ (s t : State) (text : List Symbol), asText s.inp = some text → 2 ≤ text.eraseDups.length →
    exec .build s = .next t →
    ∀ x : Symbol, (x ∈ text ↔ (encFind x t).isSome = true) ∧
      ∀ c : Code, encFind x t = some c → leadsTo t.per.mem.node t.per.root c x = true

/-- R167 items 1, 2 and 5: ENC and DEC are inverse to each other with NSYM entries each, no code is empty and no code
is a prefix of another symbol's. -/
def Obligations.CodesPrefixFreeAndInverse : Prop :=
  ∀ (s t : State), exec .build s = .next t →
    t.per.mem.enc.length = t.per.nsym ∧ t.per.mem.dec.length = t.per.nsym ∧
    (∀ (x : Symbol) (c : Code), encFind x t = some c ↔ decFind c t = some x) ∧
    (∀ (x : Symbol) (c : Code), encFind x t = some c → c ≠ []) ∧
    ∀ (x y : Symbol) (c d : Code), encFind x t = some c → encFind y t = some d → x ≠ y → ¬ c <+: d

/-- R167 item 3: from two symbols on the code is complete: the sum of 2^(−len) over all codes is 1, written with
2^HEIGHT as the common denominator, and every sequence of HEIGHT digits or more begins with exactly one code. -/
def Obligations.CodeIsComplete : Prop :=
  ∀ (s t : State) (text : List Symbol), asText s.inp = some text → 2 ≤ text.eraseDups.length →
    exec .build s = .next t →
    (t.per.mem.enc.map fun e => 2 ^ (t.per.height - e.2.length)).sum = 2 ^ t.per.height ∧
    ∀ bits : List Digit, t.per.height ≤ bits.length →
      ∃ e ∈ t.per.mem.enc, e.2 <+: bits ∧ ∀ e' ∈ t.per.mem.enc, e'.2 <+: bits → e' = e

/-- R166, R100: HEIGHT is 0 for one symbol; from two on it is the length of the longest code, between ⌈log2 n⌉ and
n − 1; every code has between 1 and max(1, n − 1) digits, and at most L_MAX. -/
def Obligations.HeightAndCodeLengthBounds : Prop :=
  ∀ (s t : State) (text : List Symbol), asText s.inp = some text → text ≠ [] → exec .build s = .next t →
    (t.per.nsym = 1 → t.per.height = 0) ∧
    (2 ≤ t.per.nsym → t.per.height = longestCode t.per.mem.enc ∧ 1 ≤ Nat.clog 2 t.per.nsym ∧
      Nat.clog 2 t.per.nsym ≤ t.per.height ∧ t.per.height ≤ t.per.nsym - 1) ∧
    ∀ (x : Symbol) (c : Code), encFind x t = some c →
      1 ≤ c.length ∧ c.length ≤ max 1 (t.per.nsym - 1) ∧ c.length ≤ s.cfg.lMax

/-- R8, R82: what a BUILD leaves fits the widths and capacities of R8: counts, ids and HEIGHT in SEQ_W bits, the tables
in their capacities, and frequencies in FREQ_W bits when MAX_TEXT is finite. -/
def Obligations.BuildFitsWidths : Prop :=
  ∀ s t : State, exec .build s = .next t →
    t.per.nsym ≤ s.cfg.nMax ∧ t.per.nodecount ≤ 2 * s.cfg.nMax - 1 ∧ t.per.nodecount < 2 ^ s.cfg.seqW ∧
    t.per.root < 2 ^ s.cfg.seqW ∧ t.per.height ≤ s.cfg.lMax ∧ t.per.mem.ft.length ≤ s.cfg.nMax ∧
    t.per.mem.node.length ≤ 2 * s.cfg.nMax - 1 ∧ t.per.mem.enc.length ≤ s.cfg.nMax ∧
    t.per.mem.dec.length ≤ s.cfg.nMax ∧
    ∀ w : Nat, s.cfg.freqW = some w → ∀ v ∈ t.per.mem.node, nodeFreq v < 2 ^ w

/-! ### BUILD and CLEAR (43_build_clear.md) -/

/-- R178: a BUILD of an admitted text with at least one symbol ends with VALID = 1, STATUS.ERR = 0, the invariants of
R42, its length as the root's frequency, and the response err = 0. -/
def Obligations.BuildOfTextSucceeds : Prop :=
  ∀ (s : State) (text : List Symbol), asText s.inp = some text → itemsFit s.cfg text = true →
    within s.cfg.maxText text.length = true → text ≠ [] →
    ∃ t, exec .build s = .next t ∧ t.per.valid = true ∧ t.per.status = 0#2 ∧ builtOk s.cfg t.per ∧
      freqAt t.per.mem.node t.per.root = text.length ∧ t.resp = some (.response (.build 0#2))

/-- R177: a BUILD of the empty text leaves the state after CLEAR but STATUS.ERR = 1, whatever was there before. -/
def Obligations.BuildOfEmptyTextFails : Prop :=
  ∀ s : State, asText s.inp = some [] →
    ∃ t, exec .build s = .next t ∧ t.per = { Persistent.reset with status := 1#2 } ∧
      t.resp = some (.response (.build 1#2)) ∧
      ∀ u v : State, exec .clear u = .next v → t.per = { v.per with status := 1#2 }

/-- R176, R153, R181 (b): the persistent state after a BUILD is a function of its text alone. -/
def Obligations.BuildIsFunctionOfText : Prop :=
  ∀ s s' t t' : State, asText s.inp = asText s'.inp → exec .build s = .next t → exec .build s' = .next t' →
    t.per = t'.per

/-- R179, R176, R64: the statistics are 0 after a BUILD, OUT stays empty, the response is err; the parameters, BUF, the
host and the command-in-progress bit are as before. -/
def Obligations.BuildFrame : Prop :=
  ∀ s t : State, exec .build s = .next t →
    t.per.skipcount = 0 ∧ t.per.bitcount = 0 ∧ t.per.symcount = 0 ∧
    t.out = { digits := [], text := [] } ∧ t.resp = some (.response (.build t.per.status)) ∧
    t.cfg = s.cfg ∧ t.tr.buf = s.tr.buf ∧ t.host = s.host ∧ t.busy = s.busy ∧ t.draws = s.draws

/-- R183: CLEAR, command word 0x04, in every state: every table empty, every register zero, err = 0, and nothing
else. -/
def Obligations.ClearDiscardsEverything : Prop :=
  decode 0x04#8 = .ok .clear ∧ ∀ s : State, exec .clear s = .next { s with
    per := { valid := false, status := 0#2, nsym := 0, nodecount := 0, root := 0, height := 0, skipcount := 0,
             bitcount := 0, symcount := 0, mem := { ft := [], node := [], enc := [], dec := [] } }
    inp := .none
    out := { digits := [], text := [] }
    resp := some (.response (.clear 0#2)) }

/-- R184: CLEAR with no tree changes STATUS.ERR alone; CLEAR twice is CLEAR once; after it COMPRESS and DECOMPRESS
end with NoTreeError. -/
def Obligations.ClearLeavesNoTree : Prop :=
  (∀ s t : State, s.per.valid = false → emptyOk s.per → exec .clear s = .next t →
    t.per = { s.per with status := 0#2 }) ∧
  (∀ s t u : State, exec .clear s = .next t → exec .clear t = .next u → u.per = t.per) ∧
  ∀ (s t u : State) (op : Operand), exec .clear s = .next t →
    (exec .compress { t with inp := op } = .next u ∨ exec .decompress { t with inp := op } = .next u) →
    u.per.status = 2#2

/-! ### COMPRESS (44_encoder.md) -/

/-- R192, R194, R195: COMPRESS with a tree puts the codes of the mapped symbols on OUT in operand order, counts, and
changes nothing else. -/
def Obligations.CompressEncodesText : Prop :=
  ∀ (s : State) (text : List Symbol), asText s.inp = some text → itemsFit s.cfg text = true →
    within s.cfg.maxText text.length = true → s.per.valid = true →
    within s.cfg.maxBits (text.flatMap (codeOrNothing s)).length = true →
    exec .compress s = .next { s with
      inp := .none
      out := { digits := text.flatMap (codeOrNothing s), text := [] }
      resp := some (.response (.compress 0#2 (text.flatMap (codeOrNothing s))))
      per := { s.per with
        status := 0#2
        symcount := text.length
        bitcount := (text.flatMap (codeOrNothing s)).length
        skipcount := text.countP fun x => !isMapped s x } }

/-- R191: COMPRESS with no tree, for an empty operand too: err = 2, nothing emitted, nothing else changed. -/
def Obligations.CompressWithoutTree : Prop :=
  ∀ (s : State) (text : List Symbol), asText s.inp = some text → itemsFit s.cfg text = true →
    within s.cfg.maxText text.length = true → s.per.valid = false →
    exec .compress s = .next { s with
      inp := .none
      out := { digits := [], text := [] }
      resp := some (.response (.compress 2#2 []))
      per := { s.per with status := 2#2 } }

/-- R197 items 1 and 2: how many digits COMPRESS gives, in a state with a tree that meets the invariant. -/
def Obligations.CompressedLengthBounds : Prop :=
  ∀ s t : State, s.Inv → s.per.valid = true → exec .compress s = .next t →
    t.per.skipcount ≤ t.per.symcount ∧ t.per.bitcount = t.out.digits.length ∧
    t.per.symcount - t.per.skipcount ≤ t.per.bitcount ∧
    t.per.bitcount ≤ (t.per.symcount - t.per.skipcount) * max t.per.height 1

/-- R197 item 5: COMPRESS of the very text the tree was built from skips nothing and gives the sum of count times code
length. -/
def Obligations.OwnTextBitCount : Prop :=
  ∀ (s t u : State) (text : List Symbol), asText s.inp = some text → text ≠ [] → exec .build s = .next t →
    exec .compress { t with inp := .text text } = .next u →
    u.per.skipcount = 0 ∧
    u.per.bitcount = (t.per.mem.ft.map fun e => e.count * (codeOrNothing t e.sym).length).sum

/-- R197 items 3 and 4: ROUNDTRIP under one build ends with err = 0 and gives the text without its unmapped symbols, so
the text itself when every symbol is mapped. -/
def Obligations.RoundTripReturnsMappedText : Prop :=
  ∀ (s : State) (text : List Symbol), s.Inv → s.per.valid = true → itemsFit s.cfg text = true →
    within s.cfg.maxText text.length = true →
    within s.cfg.maxBits (text.flatMap (codeOrNothing s)).length = true →
    ∃ u, roundTrip text s = .next u ∧ u.per.status = 0#2 ∧ u.out.text = text.filter (isMapped s) ∧
      ((∀ x ∈ text, isMapped s x = true) → u.resp = some (.response (.decompress 0#2 text)))

/-! ### DECOMPRESS (45_decoder.md) -/

/-- R208, R209: the digit is appended first; on a match the symbol is emitted and the buffer is empty, otherwise the
buffer keeps the digit and nothing is emitted. -/
def Obligations.DigitStepMatchesExactly : Prop :=
  ∀ (s : State) (d : Digit),
    (∀ x : Symbol, decFind (s.tr.buf ++ [d]) s = some x →
      digitStep s d = { s with tr := { s.tr with buf := [] },
                               out := { s.out with text := s.out.text ++ [x] } }) ∧
    (decFind (s.tr.buf ++ [d]) s = none →
      digitStep s d = { s with tr := { s.tr with buf := s.tr.buf ++ [d] } })

/-- R207, R210, R212: DECOMPRESS with a tree emits what the machine `Accumulating(buffer)` emits from the empty buffer,
ends with err = 0 when the buffer is empty and err = 3 when it is not, and changes STATUS and BUF alone. -/
def Obligations.DecompressRunsDecoder : Prop :=
  ∀ (s : State) (bits : List Digit), asDigits s.inp = some bits → within s.cfg.maxBits bits.length = true →
    s.per.valid = true →
    exec .decompress s = .next { s with
      inp := .none
      out := { digits := [], text := (decodeFrom s.per.mem.dec [] bits).1 }
      resp := some (.response (.decompress
        (if (decodeFrom s.per.mem.dec [] bits).2 = [] then 0#2 else 3#2) (decodeFrom s.per.mem.dec [] bits).1))
      per := { s.per with status := if (decodeFrom s.per.mem.dec [] bits).2 = [] then 0#2 else 3#2 }
      tr := { s.tr with buf := (decodeFrom s.per.mem.dec [] bits).2 } }

/-- R206: DECOMPRESS with no tree, for an empty operand too: err = 2, nothing emitted, nothing else changed. -/
def Obligations.DecompressWithoutTree : Prop :=
  ∀ (s : State) (bits : List Digit), asDigits s.inp = some bits → within s.cfg.maxBits bits.length = true →
    s.per.valid = false →
    exec .decompress s = .next { s with
      inp := .none
      out := { digits := [], text := [] }
      resp := some (.response (.decompress 2#2 []))
      per := { s.per with status := 2#2 } }

/-- R213: the concatenation of the codes of symbols that all have one decodes to exactly these symbols, with err = 0. -/
def Obligations.CodesDecodeToTheirSymbols : Prop :=
  ∀ (s : State) (xs : List Symbol), s.Inv → s.per.valid = true → (∀ x ∈ xs, isMapped s x = true) →
    asDigits s.inp = some (xs.flatMap (codeOrNothing s)) →
    within s.cfg.maxBits (xs.flatMap (codeOrNothing s)).length = true →
    ∃ t, exec .decompress s = .next t ∧ t.out.text = xs ∧ t.per.status = 0#2 ∧ t.tr.buf = [] ∧
      t.resp = some (.response (.decompress 0#2 xs))

/-- R207 to R211: the decoder drops no digit and re-reads none: its operand is the codes of the symbols it emitted,
followed by what is left in BUF. -/
def Obligations.DecoderLosesNoDigit : Prop :=
  ∀ (s t : State) (bits : List Digit), s.Inv → s.per.valid = true → asDigits s.inp = some bits →
    exec .decompress s = .next t → bits = t.out.text.flatMap (codeOrNothing s) ++ t.tr.buf

/-- R214: from two symbols on, fewer than HEIGHT digits are left in BUF after any digit; with one symbol BUF is empty or
begins with 1. -/
def Obligations.BufferStaysBelowHeight : Prop :=
  ∀ s t : State, s.Inv → s.per.valid = true → exec .decompress s = .next t →
    (2 ≤ s.per.nsym → t.tr.buf.length < s.per.height) ∧
    (s.per.nsym = 1 → t.tr.buf = [] ∨ ∃ rest, t.tr.buf = true :: rest)

/-- R214: a buffer of max(HEIGHT, 1) digits or more with a dead bit emits the same symbols and ends empty exactly when
the unbounded buffer does. -/
def Obligations.BoundedBufferSuffices : Prop :=
  ∀ (s : State) (cap : Nat) (bits : List Digit), s.Inv → s.per.valid = true → max s.per.height 1 ≤ cap →
    decodeBounded cap s.per.mem.dec [] false bits =
      ((decodeFrom s.per.mem.dec [] bits).1, (decodeFrom s.per.mem.dec [] bits).2.isEmpty)

/-! ### Introspection (46_introspection.md) -/

/-- R226: QFREQ answers the count of the symbol's entry in FT, 0 when it has none, and changes nothing. -/
def Obligations.QfreqAnswersCount : Prop :=
  ∀ (s : State) (x : Symbol), asText s.inp = some [x] → symbolFits s.cfg x = true →
    exec .qfreq s = .next { s with
      inp := .none
      out := { digits := [], text := [] }
      resp := some (.response (.qfreq
        (match s.per.mem.ft.find? fun e => decide (e.sym = x) with | some e => e.count | none => 0))) }

/-- R226: after a BUILD, QFREQ answers the number of positions of its text that hold the symbol. -/
def Obligations.QfreqCountsBuiltText : Prop :=
  ∀ (s t u : State) (text : List Symbol) (x : Symbol), asText s.inp = some text → exec .build s = .next t →
    exec .qfreq { t with inp := .text [x] } = .next u →
    u.resp = some (.response (.qfreq (text.count x)))

/-- R227: QCODE, command word 0x06, answers the length and the packed digits of the symbol's code, or found = 0, and
changes nothing; a code that is found has at least one digit. -/
def Obligations.QcodeAnswersCode : Prop :=
  decode 0x06#8 = .ok .qcode ∧
  (∀ (s : State) (x : Symbol), asText s.inp = some [x] → symbolFits s.cfg x = true →
    exec .qcode s = .next { s with
      inp := .none
      out := { digits := [], text := [] }
      resp := some (.response
        (match encFind x s with
         | some c => .qcode true c.length (packedBits c)
         | none => .qcode false 0 0)) }) ∧
  ∀ (s : State) (x : Symbol) (c : Code), s.Inv → encFind x s = some c → 1 ≤ c.length

/-- R104: bit L−1−i of the packed code is digit i, the bits from L on are 0, "0" and "00" have equal bits, and length
and bits together identify the code. -/
def Obligations.PackedCodeBits : Prop :=
  (∀ (code : Code) (i : Nat), i < code.length →
    code[i]? = some ((packedBits code).testBit (code.length - 1 - i))) ∧
  (∀ c : Code, packedBits c < 2 ^ c.length) ∧ packedBits [false] = packedBits [false, false] ∧
  ∀ c d : Code, c.length = d.length → packedBits c = packedBits d → c = d

/-- R228: QMEMBER answers whether the symbol has a code and changes nothing; found = 1 exactly when a COMPRESS of the
symbol skips nothing. -/
def Obligations.QmemberAnswersMembership : Prop :=
  (∀ (s : State) (x : Symbol), asText s.inp = some [x] → symbolFits s.cfg x = true →
    exec .qmember s = .next { s with
      inp := .none
      out := { digits := [], text := [] }
      resp := some (.response (.qmember (encFind x s).isSome)) }) ∧
  ∀ (s t u : State) (x : Symbol), asText s.inp = some [x] → s.per.valid = true → exec .qmember s = .next t →
    exec .compress s = .next u → (t.resp = some (.response (.qmember true)) ↔ u.per.skipcount = 0)

/-- R225: a query of one symbol is legal in every state, changes no persistent and no transient state, and with no
tree gives its "absent" answer. -/
def Obligations.QueriesChangeNothing : Prop :=
  (∀ (i : Instr) (s : State) (x : Symbol), (i = .qfreq ∨ i = .qcode ∨ i = .qmember) → asText s.inp = some [x] →
    symbolFits s.cfg x = true → ∃ t, exec i s = .next t) ∧
  (∀ (i : Instr) (s t : State), (i = .qfreq ∨ i = .qcode ∨ i = .qmember) → exec i s = .next t →
    t.per = s.per ∧ t.tr = s.tr ∧ t.out = { digits := [], text := [] }) ∧
  ∀ s t : State, s.Inv → s.per.valid = false →
    (exec .qfreq s = .next t → t.resp = some (.response (.qfreq 0))) ∧
    (exec .qcode s = .next t → t.resp = some (.response (.qcode false 0 0))) ∧
    (exec .qmember s = .next t → t.resp = some (.response (.qmember false)))

/-- R236: RATIO from SYMCOUNT and BITCOUNT, in the rule's two forms. -/
def Obligations.RatioFormula : Prop :=
  ∀ p : Persistent, 1 ≤ p.symcount →
    ratio p = some (100 * (1 - (p.bitcount : Rat) / (8 * (p.symcount : Rat)))) ∧
    ratio p = some ((200 * (p.symcount : Rat) - 25 * (p.bitcount : Rat)) / (2 * (p.symcount : Rat)))

/-- R237 (a), (b), (c), (e): no value for SYMCOUNT = 0; negative exactly when BITCOUNT > 8·SYMCOUNT; at most 100, with
equality exactly when BITCOUNT = 0; at most 87.5 when SYMCOUNT ≤ BITCOUNT. -/
def Obligations.RatioCorners : Prop :=
  (∀ p : Persistent, p.symcount = 0 → ratio p = none) ∧
  ∀ (p : Persistent) (q : Rat), ratio p = some q →
    (q < 0 ↔ 8 * p.symcount < p.bitcount) ∧ q ≤ 100 ∧ (q = 100 ↔ p.bitcount = 0) ∧
    (p.symcount ≤ p.bitcount → q ≤ 175 / 2)

/-! ### Errors (60_exceptions.md) -/

/-- R24, R245 to R249, R253, R257: the outcome every command leaves in STATUS.ERR, which the queries leave alone, and
that the response's err is the same value. -/
def Obligations.OutcomeOfEveryCommand : Prop :=
  ∀ s t : State,
    (exec .build s = .next t →
      t.per.status = (if inText s = [] then 1#2 else 0#2) ∧ t.resp = some (.response (.build t.per.status))) ∧
    (exec .compress s = .next t →
      t.per.status = (if s.per.valid then 0#2 else 2#2) ∧
      t.resp = some (.response (.compress t.per.status t.out.digits)) ∧
      (t.per.status ≠ 0#2 → t.out.digits = [])) ∧
    (exec .decompress s = .next t →
      t.per.status = (if s.per.valid then if t.tr.buf = [] then 0#2 else 3#2 else 2#2) ∧
      t.resp = some (.response (.decompress t.per.status t.out.text)) ∧
      (t.per.status = 2#2 → t.out.text = [])) ∧
    (exec .clear s = .next t → t.per.status = 0#2 ∧ t.resp = some (.response (.clear 0#2))) ∧
    ∀ i : Instr, i = .qfreq ∨ i = .qcode ∨ i = .qmember → exec i s = .next t → t.per.status = s.per.status

/-! ### Invariants (10_state.md section 6) -/

/-- The invariants hold right after reset, for every value of the parameters (R43, R44). -/
def Obligations.ResetMeetsInvariant : Prop :=
  ∀ (c : Config) (acts : List HostAction), (runStart c acts).Inv

/-- R43: with no command in progress, when VALID = 0 every table is empty and every register but STATUS is zero; every
step keeps this. -/
def Obligations.NoTreeMeansEmptyState : Prop :=
  ∀ s t : State, (s.busy = false → s.per.valid = false → emptyOk s.per) → step s = .next t →
    t.busy = false → t.per.valid = false → emptyOk t.per

/-- R42, R43, R34 to R36: every step, whatever the host does, keeps the invariants of the persistent state. That a
command whose operand never ends keeps them while it hangs is the model's choice (log entry 8). -/
def Obligations.StepKeepsInvariant : Prop :=
  ∀ s t : State, s.Inv → step s = .next t → t.Inv

/-- Every step keeps the canonical form of the tables: ENC and DEC in rising key order, no symbol twice in FT (R25,
R32, R33; the form is the model's choice, log entry 10). -/
def Obligations.StepKeepsMemoryForm : Prop :=
  ∀ s t : State, s.per.mem.wf → step s = .next t → t.per.mem.wf

/-! ### Small steps (rules R180, R199, R216, R289) -/

/-- R135, R154, R169, R180, R199, R216, R289: the small steps of a command end, after exactly the number the rules
give and not before, in the state the atomic command gives. How the steps are cut is the model's (log entry 16). -/
def Obligations.SmallStepsReachCommandResult : Prop :=
  ∀ (i : Instr) (s t : State), exec i s = .next t →
    microRun (microCount i s t) (microStart i s) = .ok { work := .done, st := t } ∧
    ∀ (k : Nat) (m : Micro), k < microCount i s t → microRun k (microStart i s) = .ok m → m.work ≠ .done

/-- R180: between the small steps of a BUILD, from its discard step on, VALID is 0 until its final step. -/
def Obligations.NoTreeWhileBuilding : Prop :=
  ∀ (s t : State) (k : Nat) (m : Micro), exec .build s = .next t → 1 ≤ k → k < microCount .build s t →
    microRun k (microStart .build s) = .ok m → m.st.per.valid = false
end

