-- ==== Sys2Proof/Laws/State.lean ====
section
/-!
SUPPORT. One lemma per field per update of the state, each by rfl.
-/

namespace Sys2Proof.Machine

section
variable (e : ErrCode) (s : State)

@[simp] theorem setStatus_cfg : (setStatus e s).cfg = s.cfg := rfl
@[simp] theorem setStatus_per_valid : (setStatus e s).per.valid = s.per.valid := rfl
@[simp] theorem setStatus_per_status : (setStatus e s).per.status = errBits e := rfl
@[simp] theorem setStatus_per_nsym : (setStatus e s).per.nsym = s.per.nsym := rfl
@[simp] theorem setStatus_per_nodecount : (setStatus e s).per.nodecount = s.per.nodecount := rfl
@[simp] theorem setStatus_per_root : (setStatus e s).per.root = s.per.root := rfl
@[simp] theorem setStatus_per_height : (setStatus e s).per.height = s.per.height := rfl
@[simp] theorem setStatus_per_skipcount : (setStatus e s).per.skipcount = s.per.skipcount := rfl
@[simp] theorem setStatus_per_bitcount : (setStatus e s).per.bitcount = s.per.bitcount := rfl
@[simp] theorem setStatus_per_symcount : (setStatus e s).per.symcount = s.per.symcount := rfl
@[simp] theorem setStatus_per_mem : (setStatus e s).per.mem = s.per.mem := rfl
@[simp] theorem setStatus_tr : (setStatus e s).tr = s.tr := rfl
@[simp] theorem setStatus_inp : (setStatus e s).inp = s.inp := rfl
@[simp] theorem setStatus_out : (setStatus e s).out = s.out := rfl
@[simp] theorem setStatus_resp : (setStatus e s).resp = s.resp := rfl
@[simp] theorem setStatus_busy : (setStatus e s).busy = s.busy := rfl
@[simp] theorem setStatus_draws : (setStatus e s).draws = s.draws := rfl
@[simp] theorem setStatus_host : (setStatus e s).host = s.host := rfl

end

section
variable (v : Bool) (s : State)

@[simp] theorem setValid_cfg : (setValid v s).cfg = s.cfg := rfl
@[simp] theorem setValid_per_valid : (setValid v s).per.valid = v := rfl
@[simp] theorem setValid_per_status : (setValid v s).per.status = s.per.status := rfl
@[simp] theorem setValid_per_nsym : (setValid v s).per.nsym = s.per.nsym := rfl
@[simp] theorem setValid_per_nodecount : (setValid v s).per.nodecount = s.per.nodecount := rfl
@[simp] theorem setValid_per_root : (setValid v s).per.root = s.per.root := rfl
@[simp] theorem setValid_per_height : (setValid v s).per.height = s.per.height := rfl
@[simp] theorem setValid_per_skipcount : (setValid v s).per.skipcount = s.per.skipcount := rfl
@[simp] theorem setValid_per_bitcount : (setValid v s).per.bitcount = s.per.bitcount := rfl
@[simp] theorem setValid_per_symcount : (setValid v s).per.symcount = s.per.symcount := rfl
@[simp] theorem setValid_per_mem : (setValid v s).per.mem = s.per.mem := rfl
@[simp] theorem setValid_tr : (setValid v s).tr = s.tr := rfl
@[simp] theorem setValid_inp : (setValid v s).inp = s.inp := rfl
@[simp] theorem setValid_out : (setValid v s).out = s.out := rfl
@[simp] theorem setValid_resp : (setValid v s).resp = s.resp := rfl
@[simp] theorem setValid_busy : (setValid v s).busy = s.busy := rfl
@[simp] theorem setValid_draws : (setValid v s).draws = s.draws := rfl
@[simp] theorem setValid_host : (setValid v s).host = s.host := rfl

end

section
variable (s : State)

@[simp] theorem zeroStats_cfg : (zeroStats s).cfg = s.cfg := rfl
@[simp] theorem zeroStats_per_valid : (zeroStats s).per.valid = s.per.valid := rfl
@[simp] theorem zeroStats_per_status : (zeroStats s).per.status = s.per.status := rfl
@[simp] theorem zeroStats_per_nsym : (zeroStats s).per.nsym = s.per.nsym := rfl
@[simp] theorem zeroStats_per_nodecount : (zeroStats s).per.nodecount = s.per.nodecount := rfl
@[simp] theorem zeroStats_per_root : (zeroStats s).per.root = s.per.root := rfl
@[simp] theorem zeroStats_per_height : (zeroStats s).per.height = s.per.height := rfl
@[simp] theorem zeroStats_per_skipcount : (zeroStats s).per.skipcount = 0 := rfl
@[simp] theorem zeroStats_per_bitcount : (zeroStats s).per.bitcount = 0 := rfl
@[simp] theorem zeroStats_per_symcount : (zeroStats s).per.symcount = 0 := rfl
@[simp] theorem zeroStats_per_mem : (zeroStats s).per.mem = s.per.mem := rfl
@[simp] theorem zeroStats_tr : (zeroStats s).tr = s.tr := rfl
@[simp] theorem zeroStats_inp : (zeroStats s).inp = s.inp := rfl
@[simp] theorem zeroStats_out : (zeroStats s).out = s.out := rfl
@[simp] theorem zeroStats_resp : (zeroStats s).resp = s.resp := rfl
@[simp] theorem zeroStats_busy : (zeroStats s).busy = s.busy := rfl
@[simp] theorem zeroStats_draws : (zeroStats s).draws = s.draws := rfl
@[simp] theorem zeroStats_host : (zeroStats s).host = s.host := rfl

end

section
variable (s : State)

@[simp] theorem countSymbol_cfg : (countSymbol s).cfg = s.cfg := rfl
@[simp] theorem countSymbol_per_valid : (countSymbol s).per.valid = s.per.valid := rfl
@[simp] theorem countSymbol_per_status : (countSymbol s).per.status = s.per.status := rfl
@[simp] theorem countSymbol_per_nsym : (countSymbol s).per.nsym = s.per.nsym := rfl
@[simp] theorem countSymbol_per_nodecount : (countSymbol s).per.nodecount = s.per.nodecount := rfl
@[simp] theorem countSymbol_per_root : (countSymbol s).per.root = s.per.root := rfl
@[simp] theorem countSymbol_per_height : (countSymbol s).per.height = s.per.height := rfl
@[simp] theorem countSymbol_per_skipcount : (countSymbol s).per.skipcount = s.per.skipcount := rfl
@[simp] theorem countSymbol_per_bitcount : (countSymbol s).per.bitcount = s.per.bitcount := rfl
@[simp] theorem countSymbol_per_symcount : (countSymbol s).per.symcount = s.per.symcount + 1 := rfl
@[simp] theorem countSymbol_per_mem : (countSymbol s).per.mem = s.per.mem := rfl
@[simp] theorem countSymbol_tr : (countSymbol s).tr = s.tr := rfl
@[simp] theorem countSymbol_inp : (countSymbol s).inp = s.inp := rfl
@[simp] theorem countSymbol_out : (countSymbol s).out = s.out := rfl
@[simp] theorem countSymbol_resp : (countSymbol s).resp = s.resp := rfl
@[simp] theorem countSymbol_busy : (countSymbol s).busy = s.busy := rfl
@[simp] theorem countSymbol_draws : (countSymbol s).draws = s.draws := rfl
@[simp] theorem countSymbol_host : (countSymbol s).host = s.host := rfl

end

section
variable (n : Nat) (s : State)

@[simp] theorem countBits_cfg : (countBits n s).cfg = s.cfg := rfl
@[simp] theorem countBits_per_valid : (countBits n s).per.valid = s.per.valid := rfl
@[simp] theorem countBits_per_status : (countBits n s).per.status = s.per.status := rfl
@[simp] theorem countBits_per_nsym : (countBits n s).per.nsym = s.per.nsym := rfl
@[simp] theorem countBits_per_nodecount : (countBits n s).per.nodecount = s.per.nodecount := rfl
@[simp] theorem countBits_per_root : (countBits n s).per.root = s.per.root := rfl
@[simp] theorem countBits_per_height : (countBits n s).per.height = s.per.height := rfl
@[simp] theorem countBits_per_skipcount : (countBits n s).per.skipcount = s.per.skipcount := rfl
@[simp] theorem countBits_per_bitcount : (countBits n s).per.bitcount = s.per.bitcount + n := rfl
@[simp] theorem countBits_per_symcount : (countBits n s).per.symcount = s.per.symcount := rfl
@[simp] theorem countBits_per_mem : (countBits n s).per.mem = s.per.mem := rfl
@[simp] theorem countBits_tr : (countBits n s).tr = s.tr := rfl
@[simp] theorem countBits_inp : (countBits n s).inp = s.inp := rfl
@[simp] theorem countBits_out : (countBits n s).out = s.out := rfl
@[simp] theorem countBits_resp : (countBits n s).resp = s.resp := rfl
@[simp] theorem countBits_busy : (countBits n s).busy = s.busy := rfl
@[simp] theorem countBits_draws : (countBits n s).draws = s.draws := rfl
@[simp] theorem countBits_host : (countBits n s).host = s.host := rfl

end

section
variable (s : State)

@[simp] theorem countSkip_cfg : (countSkip s).cfg = s.cfg := rfl
@[simp] theorem countSkip_per_valid : (countSkip s).per.valid = s.per.valid := rfl
@[simp] theorem countSkip_per_status : (countSkip s).per.status = s.per.status := rfl
@[simp] theorem countSkip_per_nsym : (countSkip s).per.nsym = s.per.nsym := rfl
@[simp] theorem countSkip_per_nodecount : (countSkip s).per.nodecount = s.per.nodecount := rfl
@[simp] theorem countSkip_per_root : (countSkip s).per.root = s.per.root := rfl
@[simp] theorem countSkip_per_height : (countSkip s).per.height = s.per.height := rfl
@[simp] theorem countSkip_per_skipcount : (countSkip s).per.skipcount = s.per.skipcount + 1 := rfl
@[simp] theorem countSkip_per_bitcount : (countSkip s).per.bitcount = s.per.bitcount := rfl
@[simp] theorem countSkip_per_symcount : (countSkip s).per.symcount = s.per.symcount := rfl
@[simp] theorem countSkip_per_mem : (countSkip s).per.mem = s.per.mem := rfl
@[simp] theorem countSkip_tr : (countSkip s).tr = s.tr := rfl
@[simp] theorem countSkip_inp : (countSkip s).inp = s.inp := rfl
@[simp] theorem countSkip_out : (countSkip s).out = s.out := rfl
@[simp] theorem countSkip_resp : (countSkip s).resp = s.resp := rfl
@[simp] theorem countSkip_busy : (countSkip s).busy = s.busy := rfl
@[simp] theorem countSkip_draws : (countSkip s).draws = s.draws := rfl
@[simp] theorem countSkip_host : (countSkip s).host = s.host := rfl

end

section
variable (d : Nat) (s : State)

@[simp] theorem raiseHeight_cfg : (raiseHeight d s).cfg = s.cfg := rfl
@[simp] theorem raiseHeight_per_valid : (raiseHeight d s).per.valid = s.per.valid := rfl
@[simp] theorem raiseHeight_per_status : (raiseHeight d s).per.status = s.per.status := rfl
@[simp] theorem raiseHeight_per_nsym : (raiseHeight d s).per.nsym = s.per.nsym := rfl
@[simp] theorem raiseHeight_per_nodecount : (raiseHeight d s).per.nodecount = s.per.nodecount := rfl
@[simp] theorem raiseHeight_per_root : (raiseHeight d s).per.root = s.per.root := rfl
@[simp] theorem raiseHeight_per_height : (raiseHeight d s).per.height = max s.per.height d := rfl
@[simp] theorem raiseHeight_per_skipcount : (raiseHeight d s).per.skipcount = s.per.skipcount := rfl
@[simp] theorem raiseHeight_per_bitcount : (raiseHeight d s).per.bitcount = s.per.bitcount := rfl
@[simp] theorem raiseHeight_per_symcount : (raiseHeight d s).per.symcount = s.per.symcount := rfl
@[simp] theorem raiseHeight_per_mem : (raiseHeight d s).per.mem = s.per.mem := rfl
@[simp] theorem raiseHeight_tr : (raiseHeight d s).tr = s.tr := rfl
@[simp] theorem raiseHeight_inp : (raiseHeight d s).inp = s.inp := rfl
@[simp] theorem raiseHeight_out : (raiseHeight d s).out = s.out := rfl
@[simp] theorem raiseHeight_resp : (raiseHeight d s).resp = s.resp := rfl
@[simp] theorem raiseHeight_busy : (raiseHeight d s).busy = s.busy := rfl
@[simp] theorem raiseHeight_draws : (raiseHeight d s).draws = s.draws := rfl
@[simp] theorem raiseHeight_host : (raiseHeight d s).host = s.host := rfl

end

section
variable (x : Symbol) (n : Nat) (s : State)

@[simp] theorem ftAppend_cfg : (ftAppend x n s).cfg = s.cfg := rfl
@[simp] theorem ftAppend_per_valid : (ftAppend x n s).per.valid = s.per.valid := rfl
@[simp] theorem ftAppend_per_status : (ftAppend x n s).per.status = s.per.status := rfl
@[simp] theorem ftAppend_per_nsym : (ftAppend x n s).per.nsym = s.per.nsym + 1 := rfl
@[simp] theorem ftAppend_per_nodecount : (ftAppend x n s).per.nodecount = s.per.nodecount := rfl
@[simp] theorem ftAppend_per_root : (ftAppend x n s).per.root = s.per.root := rfl
@[simp] theorem ftAppend_per_height : (ftAppend x n s).per.height = s.per.height := rfl
@[simp] theorem ftAppend_per_skipcount : (ftAppend x n s).per.skipcount = s.per.skipcount := rfl
@[simp] theorem ftAppend_per_bitcount : (ftAppend x n s).per.bitcount = s.per.bitcount := rfl
@[simp] theorem ftAppend_per_symcount : (ftAppend x n s).per.symcount = s.per.symcount := rfl
@[simp] theorem ftAppend_per_mem_ft : (ftAppend x n s).per.mem.ft = s.per.mem.ft ++ [⟨x, n⟩] := rfl
@[simp] theorem ftAppend_per_mem_node : (ftAppend x n s).per.mem.node = s.per.mem.node := rfl
@[simp] theorem ftAppend_per_mem_enc : (ftAppend x n s).per.mem.enc = s.per.mem.enc := rfl
@[simp] theorem ftAppend_per_mem_dec : (ftAppend x n s).per.mem.dec = s.per.mem.dec := rfl
@[simp] theorem ftAppend_tr : (ftAppend x n s).tr = s.tr := rfl
@[simp] theorem ftAppend_inp : (ftAppend x n s).inp = s.inp := rfl
@[simp] theorem ftAppend_out : (ftAppend x n s).out = s.out := rfl
@[simp] theorem ftAppend_resp : (ftAppend x n s).resp = s.resp := rfl
@[simp] theorem ftAppend_busy : (ftAppend x n s).busy = s.busy := rfl
@[simp] theorem ftAppend_draws : (ftAppend x n s).draws = s.draws := rfl
@[simp] theorem ftAppend_host : (ftAppend x n s).host = s.host := rfl

end

section
variable (i : Nat) (s : State)

@[simp] theorem ftIncrement_cfg : (ftIncrement i s).cfg = s.cfg := rfl
@[simp] theorem ftIncrement_per_valid : (ftIncrement i s).per.valid = s.per.valid := rfl
@[simp] theorem ftIncrement_per_status : (ftIncrement i s).per.status = s.per.status := rfl
@[simp] theorem ftIncrement_per_nsym : (ftIncrement i s).per.nsym = s.per.nsym := rfl
@[simp] theorem ftIncrement_per_nodecount : (ftIncrement i s).per.nodecount = s.per.nodecount := rfl
@[simp] theorem ftIncrement_per_root : (ftIncrement i s).per.root = s.per.root := rfl
@[simp] theorem ftIncrement_per_height : (ftIncrement i s).per.height = s.per.height := rfl
@[simp] theorem ftIncrement_per_skipcount : (ftIncrement i s).per.skipcount = s.per.skipcount := rfl
@[simp] theorem ftIncrement_per_bitcount : (ftIncrement i s).per.bitcount = s.per.bitcount := rfl
@[simp] theorem ftIncrement_per_symcount : (ftIncrement i s).per.symcount = s.per.symcount := rfl
@[simp] theorem ftIncrement_per_mem_ft : (ftIncrement i s).per.mem.ft = s.per.mem.ft.modify i fun e => { e with count := e.count + 1 } := rfl
@[simp] theorem ftIncrement_per_mem_node : (ftIncrement i s).per.mem.node = s.per.mem.node := rfl
@[simp] theorem ftIncrement_per_mem_enc : (ftIncrement i s).per.mem.enc = s.per.mem.enc := rfl
@[simp] theorem ftIncrement_per_mem_dec : (ftIncrement i s).per.mem.dec = s.per.mem.dec := rfl
@[simp] theorem ftIncrement_tr : (ftIncrement i s).tr = s.tr := rfl
@[simp] theorem ftIncrement_inp : (ftIncrement i s).inp = s.inp := rfl
@[simp] theorem ftIncrement_out : (ftIncrement i s).out = s.out := rfl
@[simp] theorem ftIncrement_resp : (ftIncrement i s).resp = s.resp := rfl
@[simp] theorem ftIncrement_busy : (ftIncrement i s).busy = s.busy := rfl
@[simp] theorem ftIncrement_draws : (ftIncrement i s).draws = s.draws := rfl
@[simp] theorem ftIncrement_host : (ftIncrement i s).host = s.host := rfl

end

section
variable (s : State)

@[simp] theorem ftClear_cfg : (ftClear s).cfg = s.cfg := rfl
@[simp] theorem ftClear_per_valid : (ftClear s).per.valid = s.per.valid := rfl
@[simp] theorem ftClear_per_status : (ftClear s).per.status = s.per.status := rfl
@[simp] theorem ftClear_per_nsym : (ftClear s).per.nsym = 0 := rfl
@[simp] theorem ftClear_per_nodecount : (ftClear s).per.nodecount = s.per.nodecount := rfl
@[simp] theorem ftClear_per_root : (ftClear s).per.root = s.per.root := rfl
@[simp] theorem ftClear_per_height : (ftClear s).per.height = s.per.height := rfl
@[simp] theorem ftClear_per_skipcount : (ftClear s).per.skipcount = s.per.skipcount := rfl
@[simp] theorem ftClear_per_bitcount : (ftClear s).per.bitcount = s.per.bitcount := rfl
@[simp] theorem ftClear_per_symcount : (ftClear s).per.symcount = s.per.symcount := rfl
@[simp] theorem ftClear_per_mem_ft : (ftClear s).per.mem.ft = [] := rfl
@[simp] theorem ftClear_per_mem_node : (ftClear s).per.mem.node = s.per.mem.node := rfl
@[simp] theorem ftClear_per_mem_enc : (ftClear s).per.mem.enc = s.per.mem.enc := rfl
@[simp] theorem ftClear_per_mem_dec : (ftClear s).per.mem.dec = s.per.mem.dec := rfl
@[simp] theorem ftClear_tr : (ftClear s).tr = s.tr := rfl
@[simp] theorem ftClear_inp : (ftClear s).inp = s.inp := rfl
@[simp] theorem ftClear_out : (ftClear s).out = s.out := rfl
@[simp] theorem ftClear_resp : (ftClear s).resp = s.resp := rfl
@[simp] theorem ftClear_busy : (ftClear s).busy = s.busy := rfl
@[simp] theorem ftClear_draws : (ftClear s).draws = s.draws := rfl
@[simp] theorem ftClear_host : (ftClear s).host = s.host := rfl

end

section
variable (i : Nat) (v : TreeNode) (s : State)

@[simp] theorem nodeWrite_cfg : (nodeWrite i v s).cfg = s.cfg := rfl
@[simp] theorem nodeWrite_per_valid : (nodeWrite i v s).per.valid = s.per.valid := rfl
@[simp] theorem nodeWrite_per_status : (nodeWrite i v s).per.status = s.per.status := rfl
@[simp] theorem nodeWrite_per_nsym : (nodeWrite i v s).per.nsym = s.per.nsym := rfl
@[simp] theorem nodeWrite_per_nodecount : (nodeWrite i v s).per.nodecount = s.per.nodecount := rfl
@[simp] theorem nodeWrite_per_root : (nodeWrite i v s).per.root = s.per.root := rfl
@[simp] theorem nodeWrite_per_height : (nodeWrite i v s).per.height = s.per.height := rfl
@[simp] theorem nodeWrite_per_skipcount : (nodeWrite i v s).per.skipcount = s.per.skipcount := rfl
@[simp] theorem nodeWrite_per_bitcount : (nodeWrite i v s).per.bitcount = s.per.bitcount := rfl
@[simp] theorem nodeWrite_per_symcount : (nodeWrite i v s).per.symcount = s.per.symcount := rfl
@[simp] theorem nodeWrite_per_mem_ft : (nodeWrite i v s).per.mem.ft = s.per.mem.ft := rfl
@[simp] theorem nodeWrite_per_mem_node : (nodeWrite i v s).per.mem.node = if i < s.per.mem.node.length then s.per.mem.node.set i v else s.per.mem.node ++ [v] := rfl
@[simp] theorem nodeWrite_per_mem_enc : (nodeWrite i v s).per.mem.enc = s.per.mem.enc := rfl
@[simp] theorem nodeWrite_per_mem_dec : (nodeWrite i v s).per.mem.dec = s.per.mem.dec := rfl
@[simp] theorem nodeWrite_tr : (nodeWrite i v s).tr = s.tr := rfl
@[simp] theorem nodeWrite_inp : (nodeWrite i v s).inp = s.inp := rfl
@[simp] theorem nodeWrite_out : (nodeWrite i v s).out = s.out := rfl
@[simp] theorem nodeWrite_resp : (nodeWrite i v s).resp = s.resp := rfl
@[simp] theorem nodeWrite_busy : (nodeWrite i v s).busy = s.busy := rfl
@[simp] theorem nodeWrite_draws : (nodeWrite i v s).draws = s.draws := rfl
@[simp] theorem nodeWrite_host : (nodeWrite i v s).host = s.host := rfl

end

section
variable (f : Nat) (s : State)

@[simp] theorem pqInsert_cfg : (pqInsert f s).cfg = s.cfg := rfl
@[simp] theorem pqInsert_per : (pqInsert f s).per = s.per := rfl
@[simp] theorem pqInsert_tr_pq : (pqInsert f s).tr.pq = pqAdd ⟨f, s.tr.seq, s.tr.seq⟩ s.tr.pq := rfl
@[simp] theorem pqInsert_tr_seq : (pqInsert f s).tr.seq = s.tr.seq := rfl
@[simp] theorem pqInsert_tr_path : (pqInsert f s).tr.path = s.tr.path := rfl
@[simp] theorem pqInsert_tr_stack : (pqInsert f s).tr.stack = s.tr.stack := rfl
@[simp] theorem pqInsert_tr_buf : (pqInsert f s).tr.buf = s.tr.buf := rfl
@[simp] theorem pqInsert_inp : (pqInsert f s).inp = s.inp := rfl
@[simp] theorem pqInsert_out : (pqInsert f s).out = s.out := rfl
@[simp] theorem pqInsert_resp : (pqInsert f s).resp = s.resp := rfl
@[simp] theorem pqInsert_busy : (pqInsert f s).busy = s.busy := rfl
@[simp] theorem pqInsert_draws : (pqInsert f s).draws = s.draws := rfl
@[simp] theorem pqInsert_host : (pqInsert f s).host = s.host := rfl

end

section
variable (s : State)

@[simp] theorem pqClear_cfg : (pqClear s).cfg = s.cfg := rfl
@[simp] theorem pqClear_per : (pqClear s).per = s.per := rfl
@[simp] theorem pqClear_tr_pq : (pqClear s).tr.pq = [] := rfl
@[simp] theorem pqClear_tr_seq : (pqClear s).tr.seq = 0 := rfl
@[simp] theorem pqClear_tr_path : (pqClear s).tr.path = s.tr.path := rfl
@[simp] theorem pqClear_tr_stack : (pqClear s).tr.stack = s.tr.stack := rfl
@[simp] theorem pqClear_tr_buf : (pqClear s).tr.buf = s.tr.buf := rfl
@[simp] theorem pqClear_inp : (pqClear s).inp = s.inp := rfl
@[simp] theorem pqClear_out : (pqClear s).out = s.out := rfl
@[simp] theorem pqClear_resp : (pqClear s).resp = s.resp := rfl
@[simp] theorem pqClear_busy : (pqClear s).busy = s.busy := rfl
@[simp] theorem pqClear_draws : (pqClear s).draws = s.draws := rfl
@[simp] theorem pqClear_host : (pqClear s).host = s.host := rfl

end

section
variable (s : State)

@[simp] theorem nextSeq_cfg : (nextSeq s).cfg = s.cfg := rfl
@[simp] theorem nextSeq_per : (nextSeq s).per = s.per := rfl
@[simp] theorem nextSeq_tr_pq : (nextSeq s).tr.pq = s.tr.pq := rfl
@[simp] theorem nextSeq_tr_seq : (nextSeq s).tr.seq = s.tr.seq + 1 := rfl
@[simp] theorem nextSeq_tr_path : (nextSeq s).tr.path = s.tr.path := rfl
@[simp] theorem nextSeq_tr_stack : (nextSeq s).tr.stack = s.tr.stack := rfl
@[simp] theorem nextSeq_tr_buf : (nextSeq s).tr.buf = s.tr.buf := rfl
@[simp] theorem nextSeq_inp : (nextSeq s).inp = s.inp := rfl
@[simp] theorem nextSeq_out : (nextSeq s).out = s.out := rfl
@[simp] theorem nextSeq_resp : (nextSeq s).resp = s.resp := rfl
@[simp] theorem nextSeq_busy : (nextSeq s).busy = s.busy := rfl
@[simp] theorem nextSeq_draws : (nextSeq s).draws = s.draws := rfl
@[simp] theorem nextSeq_host : (nextSeq s).host = s.host := rfl

end

section
variable (r : Nat) (s : State)

@[simp] theorem setRoot_cfg : (setRoot r s).cfg = s.cfg := rfl
@[simp] theorem setRoot_per_valid : (setRoot r s).per.valid = s.per.valid := rfl
@[simp] theorem setRoot_per_status : (setRoot r s).per.status = s.per.status := rfl
@[simp] theorem setRoot_per_nsym : (setRoot r s).per.nsym = s.per.nsym := rfl
@[simp] theorem setRoot_per_nodecount : (setRoot r s).per.nodecount = s.tr.seq := rfl
@[simp] theorem setRoot_per_root : (setRoot r s).per.root = r := rfl
@[simp] theorem setRoot_per_height : (setRoot r s).per.height = s.per.height := rfl
@[simp] theorem setRoot_per_skipcount : (setRoot r s).per.skipcount = s.per.skipcount := rfl
@[simp] theorem setRoot_per_bitcount : (setRoot r s).per.bitcount = s.per.bitcount := rfl
@[simp] theorem setRoot_per_symcount : (setRoot r s).per.symcount = s.per.symcount := rfl
@[simp] theorem setRoot_per_mem : (setRoot r s).per.mem = s.per.mem := rfl
@[simp] theorem setRoot_tr : (setRoot r s).tr = s.tr := rfl
@[simp] theorem setRoot_inp : (setRoot r s).inp = s.inp := rfl
@[simp] theorem setRoot_out : (setRoot r s).out = s.out := rfl
@[simp] theorem setRoot_resp : (setRoot r s).resp = s.resp := rfl
@[simp] theorem setRoot_busy : (setRoot r s).busy = s.busy := rfl
@[simp] theorem setRoot_draws : (setRoot r s).draws = s.draws := rfl
@[simp] theorem setRoot_host : (setRoot r s).host = s.host := rfl

end

section
variable (x : Symbol) (c : Code) (s : State)

@[simp] theorem recordCode_cfg : (recordCode x c s).cfg = s.cfg := rfl
@[simp] theorem recordCode_per_valid : (recordCode x c s).per.valid = s.per.valid := rfl
@[simp] theorem recordCode_per_status : (recordCode x c s).per.status = s.per.status := rfl
@[simp] theorem recordCode_per_nsym : (recordCode x c s).per.nsym = s.per.nsym := rfl
@[simp] theorem recordCode_per_nodecount : (recordCode x c s).per.nodecount = s.per.nodecount := rfl
@[simp] theorem recordCode_per_root : (recordCode x c s).per.root = s.per.root := rfl
@[simp] theorem recordCode_per_height : (recordCode x c s).per.height = s.per.height := rfl
@[simp] theorem recordCode_per_skipcount : (recordCode x c s).per.skipcount = s.per.skipcount := rfl
@[simp] theorem recordCode_per_bitcount : (recordCode x c s).per.bitcount = s.per.bitcount := rfl
@[simp] theorem recordCode_per_symcount : (recordCode x c s).per.symcount = s.per.symcount := rfl
@[simp] theorem recordCode_per_mem_ft : (recordCode x c s).per.mem.ft = s.per.mem.ft := rfl
@[simp] theorem recordCode_per_mem_node : (recordCode x c s).per.mem.node = s.per.mem.node := rfl
@[simp] theorem recordCode_per_mem_enc : (recordCode x c s).per.mem.enc = mapWrite symbolLt x c s.per.mem.enc := rfl
@[simp] theorem recordCode_per_mem_dec : (recordCode x c s).per.mem.dec = mapWrite codeLt c x s.per.mem.dec := rfl
@[simp] theorem recordCode_tr : (recordCode x c s).tr = s.tr := rfl
@[simp] theorem recordCode_inp : (recordCode x c s).inp = s.inp := rfl
@[simp] theorem recordCode_out : (recordCode x c s).out = s.out := rfl
@[simp] theorem recordCode_resp : (recordCode x c s).resp = s.resp := rfl
@[simp] theorem recordCode_busy : (recordCode x c s).busy = s.busy := rfl
@[simp] theorem recordCode_draws : (recordCode x c s).draws = s.draws := rfl
@[simp] theorem recordCode_host : (recordCode x c s).host = s.host := rfl

end

section
variable (s : State)

@[simp] theorem mapsClear_cfg : (mapsClear s).cfg = s.cfg := rfl
@[simp] theorem mapsClear_per_valid : (mapsClear s).per.valid = s.per.valid := rfl
@[simp] theorem mapsClear_per_status : (mapsClear s).per.status = s.per.status := rfl
@[simp] theorem mapsClear_per_nsym : (mapsClear s).per.nsym = s.per.nsym := rfl
@[simp] theorem mapsClear_per_nodecount : (mapsClear s).per.nodecount = s.per.nodecount := rfl
@[simp] theorem mapsClear_per_root : (mapsClear s).per.root = s.per.root := rfl
@[simp] theorem mapsClear_per_height : (mapsClear s).per.height = 0 := rfl
@[simp] theorem mapsClear_per_skipcount : (mapsClear s).per.skipcount = s.per.skipcount := rfl
@[simp] theorem mapsClear_per_bitcount : (mapsClear s).per.bitcount = s.per.bitcount := rfl
@[simp] theorem mapsClear_per_symcount : (mapsClear s).per.symcount = s.per.symcount := rfl
@[simp] theorem mapsClear_per_mem_ft : (mapsClear s).per.mem.ft = s.per.mem.ft := rfl
@[simp] theorem mapsClear_per_mem_node : (mapsClear s).per.mem.node = s.per.mem.node := rfl
@[simp] theorem mapsClear_per_mem_enc : (mapsClear s).per.mem.enc = [] := rfl
@[simp] theorem mapsClear_per_mem_dec : (mapsClear s).per.mem.dec = [] := rfl
@[simp] theorem mapsClear_tr : (mapsClear s).tr = s.tr := rfl
@[simp] theorem mapsClear_inp : (mapsClear s).inp = s.inp := rfl
@[simp] theorem mapsClear_out : (mapsClear s).out = s.out := rfl
@[simp] theorem mapsClear_resp : (mapsClear s).resp = s.resp := rfl
@[simp] theorem mapsClear_busy : (mapsClear s).busy = s.busy := rfl
@[simp] theorem mapsClear_draws : (mapsClear s).draws = s.draws := rfl
@[simp] theorem mapsClear_host : (mapsClear s).host = s.host := rfl

end

section
variable (c : Code) (s : State)

@[simp] theorem setPath_cfg : (setPath c s).cfg = s.cfg := rfl
@[simp] theorem setPath_per : (setPath c s).per = s.per := rfl
@[simp] theorem setPath_tr_pq : (setPath c s).tr.pq = s.tr.pq := rfl
@[simp] theorem setPath_tr_seq : (setPath c s).tr.seq = s.tr.seq := rfl
@[simp] theorem setPath_tr_path : (setPath c s).tr.path = c := rfl
@[simp] theorem setPath_tr_stack : (setPath c s).tr.stack = s.tr.stack := rfl
@[simp] theorem setPath_tr_buf : (setPath c s).tr.buf = s.tr.buf := rfl
@[simp] theorem setPath_inp : (setPath c s).inp = s.inp := rfl
@[simp] theorem setPath_out : (setPath c s).out = s.out := rfl
@[simp] theorem setPath_resp : (setPath c s).resp = s.resp := rfl
@[simp] theorem setPath_busy : (setPath c s).busy = s.busy := rfl
@[simp] theorem setPath_draws : (setPath c s).draws = s.draws := rfl
@[simp] theorem setPath_host : (setPath c s).host = s.host := rfl

end

section
variable (st : List (Nat × Code)) (s : State)

@[simp] theorem setStack_cfg : (setStack st s).cfg = s.cfg := rfl
@[simp] theorem setStack_per : (setStack st s).per = s.per := rfl
@[simp] theorem setStack_tr_pq : (setStack st s).tr.pq = s.tr.pq := rfl
@[simp] theorem setStack_tr_seq : (setStack st s).tr.seq = s.tr.seq := rfl
@[simp] theorem setStack_tr_path : (setStack st s).tr.path = s.tr.path := rfl
@[simp] theorem setStack_tr_stack : (setStack st s).tr.stack = st := rfl
@[simp] theorem setStack_tr_buf : (setStack st s).tr.buf = s.tr.buf := rfl
@[simp] theorem setStack_inp : (setStack st s).inp = s.inp := rfl
@[simp] theorem setStack_out : (setStack st s).out = s.out := rfl
@[simp] theorem setStack_resp : (setStack st s).resp = s.resp := rfl
@[simp] theorem setStack_busy : (setStack st s).busy = s.busy := rfl
@[simp] theorem setStack_draws : (setStack st s).draws = s.draws := rfl
@[simp] theorem setStack_host : (setStack st s).host = s.host := rfl

end

section
variable (c : Code) (s : State)

@[simp] theorem setBuf_cfg : (setBuf c s).cfg = s.cfg := rfl
@[simp] theorem setBuf_per : (setBuf c s).per = s.per := rfl
@[simp] theorem setBuf_tr_pq : (setBuf c s).tr.pq = s.tr.pq := rfl
@[simp] theorem setBuf_tr_seq : (setBuf c s).tr.seq = s.tr.seq := rfl
@[simp] theorem setBuf_tr_path : (setBuf c s).tr.path = s.tr.path := rfl
@[simp] theorem setBuf_tr_stack : (setBuf c s).tr.stack = s.tr.stack := rfl
@[simp] theorem setBuf_tr_buf : (setBuf c s).tr.buf = c := rfl
@[simp] theorem setBuf_inp : (setBuf c s).inp = s.inp := rfl
@[simp] theorem setBuf_out : (setBuf c s).out = s.out := rfl
@[simp] theorem setBuf_resp : (setBuf c s).resp = s.resp := rfl
@[simp] theorem setBuf_busy : (setBuf c s).busy = s.busy := rfl
@[simp] theorem setBuf_draws : (setBuf c s).draws = s.draws := rfl
@[simp] theorem setBuf_host : (setBuf c s).host = s.host := rfl

end

section
variable (c : Code) (s : State)

@[simp] theorem emitDigits_cfg : (emitDigits c s).cfg = s.cfg := rfl
@[simp] theorem emitDigits_per : (emitDigits c s).per = s.per := rfl
@[simp] theorem emitDigits_tr : (emitDigits c s).tr = s.tr := rfl
@[simp] theorem emitDigits_inp : (emitDigits c s).inp = s.inp := rfl
@[simp] theorem emitDigits_out : (emitDigits c s).out = ⟨s.out.digits ++ c, s.out.text⟩ := rfl
@[simp] theorem emitDigits_resp : (emitDigits c s).resp = s.resp := rfl
@[simp] theorem emitDigits_busy : (emitDigits c s).busy = s.busy := rfl
@[simp] theorem emitDigits_draws : (emitDigits c s).draws = s.draws := rfl
@[simp] theorem emitDigits_host : (emitDigits c s).host = s.host := rfl

end

section
variable (x : Symbol) (s : State)

@[simp] theorem emitSymbol_cfg : (emitSymbol x s).cfg = s.cfg := rfl
@[simp] theorem emitSymbol_per : (emitSymbol x s).per = s.per := rfl
@[simp] theorem emitSymbol_tr : (emitSymbol x s).tr = s.tr := rfl
@[simp] theorem emitSymbol_inp : (emitSymbol x s).inp = s.inp := rfl
@[simp] theorem emitSymbol_out : (emitSymbol x s).out = ⟨s.out.digits, s.out.text ++ [x]⟩ := rfl
@[simp] theorem emitSymbol_resp : (emitSymbol x s).resp = s.resp := rfl
@[simp] theorem emitSymbol_busy : (emitSymbol x s).busy = s.busy := rfl
@[simp] theorem emitSymbol_draws : (emitSymbol x s).draws = s.draws := rfl
@[simp] theorem emitSymbol_host : (emitSymbol x s).host = s.host := rfl

end

section
variable (s : State)

@[simp] theorem startCommand_cfg : (startCommand s).cfg = s.cfg := rfl
@[simp] theorem startCommand_per : (startCommand s).per = s.per := rfl
@[simp] theorem startCommand_tr : (startCommand s).tr = s.tr := rfl
@[simp] theorem startCommand_inp : (startCommand s).inp = .none := rfl
@[simp] theorem startCommand_out : (startCommand s).out = Out.empty := rfl
@[simp] theorem startCommand_resp : (startCommand s).resp = none := rfl
@[simp] theorem startCommand_busy : (startCommand s).busy = s.busy := rfl
@[simp] theorem startCommand_draws : (startCommand s).draws = s.draws := rfl
@[simp] theorem startCommand_host : (startCommand s).host = s.host := rfl

end

section
variable (r : Response) (s : State)

@[simp] theorem respond_cfg : (respond r s).cfg = s.cfg := rfl
@[simp] theorem respond_per : (respond r s).per = s.per := rfl
@[simp] theorem respond_tr : (respond r s).tr = s.tr := rfl
@[simp] theorem respond_inp : (respond r s).inp = s.inp := rfl
@[simp] theorem respond_out : (respond r s).out = s.out := rfl
@[simp] theorem respond_resp : (respond r s).resp = some (.response r) := rfl
@[simp] theorem respond_busy : (respond r s).busy = s.busy := rfl
@[simp] theorem respond_draws : (respond r s).draws = s.draws := rfl
@[simp] theorem respond_host : (respond r s).host = s.host := rfl

end

section
variable (s : State)

@[simp] theorem discard_cfg : (discard s).cfg = s.cfg := rfl
@[simp] theorem discard_per : (discard s).per = { Persistent.reset with status := s.per.status } := rfl
@[simp] theorem discard_tr : (discard s).tr = s.tr := rfl
@[simp] theorem discard_inp : (discard s).inp = s.inp := rfl
@[simp] theorem discard_out : (discard s).out = s.out := rfl
@[simp] theorem discard_resp : (discard s).resp = s.resp := rfl
@[simp] theorem discard_busy : (discard s).busy = s.busy := rfl
@[simp] theorem discard_draws : (discard s).draws = s.draws := rfl
@[simp] theorem discard_host : (discard s).host = s.host := rfl

end

section
variable (e : ErrCode) (s : State)

@[simp] theorem raiseError_cfg : (raiseError e s).cfg = s.cfg := rfl
@[simp] theorem raiseError_per_valid : (raiseError e s).per.valid = s.per.valid := rfl
@[simp] theorem raiseError_per_status : (raiseError e s).per.status = errBits e := rfl
@[simp] theorem raiseError_per_nsym : (raiseError e s).per.nsym = s.per.nsym := rfl
@[simp] theorem raiseError_per_nodecount : (raiseError e s).per.nodecount = s.per.nodecount := rfl
@[simp] theorem raiseError_per_root : (raiseError e s).per.root = s.per.root := rfl
@[simp] theorem raiseError_per_height : (raiseError e s).per.height = s.per.height := rfl
@[simp] theorem raiseError_per_skipcount : (raiseError e s).per.skipcount = s.per.skipcount := rfl
@[simp] theorem raiseError_per_bitcount : (raiseError e s).per.bitcount = s.per.bitcount := rfl
@[simp] theorem raiseError_per_symcount : (raiseError e s).per.symcount = s.per.symcount := rfl
@[simp] theorem raiseError_per_mem : (raiseError e s).per.mem = s.per.mem := rfl
@[simp] theorem raiseError_tr : (raiseError e s).tr = s.tr := rfl
@[simp] theorem raiseError_inp : (raiseError e s).inp = s.inp := rfl
@[simp] theorem raiseError_out : (raiseError e s).out = s.out := rfl
@[simp] theorem raiseError_resp : (raiseError e s).resp = s.resp := rfl
@[simp] theorem raiseError_busy : (raiseError e s).busy = s.busy := rfl
@[simp] theorem raiseError_draws : (raiseError e s).draws = s.draws := rfl
@[simp] theorem raiseError_host : (raiseError e s).host = s.host := rfl

end

section
variable (op : Operand) (rest : List HostAction) (s : State)

@[simp] theorem accept_cfg : (accept op rest s).cfg = s.cfg := rfl
@[simp] theorem accept_per : (accept op rest s).per = s.per := rfl
@[simp] theorem accept_tr : (accept op rest s).tr = s.tr := rfl
@[simp] theorem accept_inp : (accept op rest s).inp = op := rfl
@[simp] theorem accept_out : (accept op rest s).out = Out.empty := rfl
@[simp] theorem accept_resp : (accept op rest s).resp = none := rfl
@[simp] theorem accept_busy : (accept op rest s).busy = s.busy := rfl
@[simp] theorem accept_draws : (accept op rest s).draws = s.draws := rfl
@[simp] theorem accept_host : (accept op rest s).host = rest := rfl

end

section
variable (rest : List HostAction) (s : State)

@[simp] theorem hostReset_cfg : (hostReset rest s).cfg = s.cfg := rfl
@[simp] theorem hostReset_per : (hostReset rest s).per = Persistent.reset := rfl
@[simp] theorem hostReset_tr : (hostReset rest s).tr = Transient.reset := rfl
@[simp] theorem hostReset_inp : (hostReset rest s).inp = .none := rfl
@[simp] theorem hostReset_out : (hostReset rest s).out = Out.empty := rfl
@[simp] theorem hostReset_resp : (hostReset rest s).resp = none := rfl
@[simp] theorem hostReset_busy : (hostReset rest s).busy = false := rfl
@[simp] theorem hostReset_draws : (hostReset rest s).draws = s.draws := rfl
@[simp] theorem hostReset_host : (hostReset rest s).host = rest := rfl

end

section
variable (r : Reg) (rest : List HostAction) (s : State)

@[simp] theorem hostRead_cfg : (hostRead r rest s).cfg = s.cfg := rfl
@[simp] theorem hostRead_per : (hostRead r rest s).per = s.per := rfl
@[simp] theorem hostRead_tr : (hostRead r rest s).tr = s.tr := rfl
@[simp] theorem hostRead_inp : (hostRead r rest s).inp = s.inp := rfl
@[simp] theorem hostRead_out : (hostRead r rest s).out = s.out := rfl
@[simp] theorem hostRead_resp : (hostRead r rest s).resp = some (.register r (readReg r s.per)) := rfl
@[simp] theorem hostRead_busy : (hostRead r rest s).busy = s.busy := rfl
@[simp] theorem hostRead_draws : (hostRead r rest s).draws = s.draws := rfl
@[simp] theorem hostRead_host : (hostRead r rest s).host = rest := rfl

end

section
variable (i : Instr) (op : Operand) (rest : List HostAction) (s : State)

@[simp] theorem hang_cfg : (hang i op rest s).cfg = s.cfg := rfl
@[simp] theorem hang_per : (hang i op rest s).per = s.per := rfl
@[simp] theorem hang_tr : (hang i op rest s).tr = s.tr := rfl
@[simp] theorem hang_inp : (hang i op rest s).inp = op := rfl
@[simp] theorem hang_out : (hang i op rest s).out = voidOut i op s := rfl
@[simp] theorem hang_resp : (hang i op rest s).resp = none := rfl
@[simp] theorem hang_busy : (hang i op rest s).busy = true := rfl
@[simp] theorem hang_draws : (hang i op rest s).draws = s.draws + 1 := rfl
@[simp] theorem hang_host : (hang i op rest s).host = rest := rfl

end

end Sys2Proof.Machine
end

