-- ==== Sys2Proof/Laws/Maps.lean ====
section
/-!
SUPPORT. The partial maps ENC and DEC: read after write, what a write leaves alone, and the canonical form.
-/

namespace Sys2Proof.Machine

section Maps

variable {κ ν : Type} [DecidableEq κ]

theorem mapFind_mapWrite_same (lt : κ → κ → Bool) (k : κ) (v : ν) (m : List (κ × ν)) :
    mapFind k (mapWrite lt k v m) = some v := by
  induction m with
  | nil => simp [mapWrite, mapFind]
  | cons e m ih =>
    unfold mapWrite
    split
    · simp [mapFind]
    · split
      · simp [mapFind]
      · next h _ => simp [mapFind, h, ih]

theorem mapFind_mapWrite_other (lt : κ → κ → Bool) {k k' : κ} (v : ν) (m : List (κ × ν)) (h : k' ≠ k) :
    mapFind k' (mapWrite lt k v m) = mapFind k' m := by
  induction m with
  | nil => simp [mapWrite, mapFind, Ne.symm h]
  | cons e m ih =>
    unfold mapWrite
    split
    · next he => simp [mapFind, he, Ne.symm h]
    · split
      · simp [mapFind, Ne.symm h]
      · simp [mapFind, ih]

theorem mapFind_mapWrite (lt : κ → κ → Bool) (k k' : κ) (v : ν) (m : List (κ × ν)) :
    mapFind k' (mapWrite lt k v m) = if k' = k then some v else mapFind k' m := by
  split
  · next h => rw [h, mapFind_mapWrite_same]
  · next h => exact mapFind_mapWrite_other lt v m h

theorem mapFind_mem {k : κ} {v : ν} {m : List (κ × ν)} (h : mapFind k m = some v) : (k, v) ∈ m := by
  induction m with
  | nil => simp [mapFind] at h
  | cons e m ih =>
    unfold mapFind at h
    split at h
    · next he => cases h; subst he; exact List.mem_cons_self
    · exact List.mem_cons_of_mem _ (ih h)

theorem mapFind_eq_none {k : κ} {m : List (κ × ν)} : mapFind k m = none ↔ ∀ e ∈ m, e.1 ≠ k := by
  induction m with
  | nil => simp [mapFind]
  | cons e m ih =>
    unfold mapFind
    split
    · next he => simp [he]
    · next he => simp [ih, he]

/-- What a write leaves in the list: the new entry and old entries under other keys. -/
theorem mem_mapWrite {lt : κ → κ → Bool} {k : κ} {v : ν} {m : List (κ × ν)} {e : κ × ν}
    (h : e ∈ mapWrite lt k v m) : e = (k, v) ∨ e ∈ m := by
  induction m with
  | nil => exact .inl (by simpa [mapWrite] using h)
  | cons a m ih =>
    unfold mapWrite at h
    split at h
    · rcases List.mem_cons.1 h with h | h
      · exact .inl h
      · exact .inr (List.mem_cons_of_mem _ h)
    · split at h
      · rcases List.mem_cons.1 h with h | h
        · exact .inl h
        · exact .inr h
      · rcases List.mem_cons.1 h with h | h
        · exact .inr (h ▸ List.mem_cons_self)
        · exact (ih h).imp id (List.mem_cons_of_mem _)

/-- A write under a new key makes the list one longer. -/
theorem length_mapWrite_new (lt : κ → κ → Bool) {k : κ} (v : ν) {m : List (κ × ν)} (h : mapFind k m = none) :
    (mapWrite lt k v m).length = m.length + 1 := by
  induction m with
  | nil => rfl
  | cons e m ih =>
    have hk := mapFind_eq_none.1 h
    have he : e.1 ≠ k := hk e List.mem_cons_self
    have hm : mapFind k m = none := mapFind_eq_none.2 fun a ha => hk a (List.mem_cons_of_mem _ ha)
    unfold mapWrite
    rw [if_neg he]
    split
    · rfl
    · simp [ih hm]

/-- A write keeps the canonical form, in any strict order that is transitive and total. -/
theorem mapWrite_sorted {lt : κ → κ → Bool} (trans : ∀ a b c, lt a b = true → lt b c = true → lt a c = true)
    (total : ∀ a b, a ≠ b → lt a b = true ∨ lt b a = true) (k : κ) (v : ν) {m : List (κ × ν)}
    (h : m.Pairwise fun a b => lt a.1 b.1 = true) :
    (mapWrite lt k v m).Pairwise fun a b => lt a.1 b.1 = true := by
  induction m with
  | nil => simp [mapWrite]
  | cons e m ih =>
    rw [List.pairwise_cons] at h
    unfold mapWrite
    split
    · next he => exact List.pairwise_cons.2 ⟨fun a ha => he ▸ h.1 a ha, h.2⟩
    · split
      · next hlt =>
        refine List.pairwise_cons.2 ⟨fun a ha => ?_, List.pairwise_cons.2 h⟩
        rcases List.mem_cons.1 ha with rfl | ha
        · exact hlt
        · exact trans _ _ _ hlt (h.1 a ha)
      · next hne hlt =>
        refine List.pairwise_cons.2 ⟨fun a ha => ?_, ih h.2⟩
        rcases mem_mapWrite ha with rfl | ha
        · exact (total _ _ hne).resolve_right hlt
        · exact h.1 a ha

end Maps

/-! ### The two orders -/

theorem symbolLt_trans (a b c : Nat) (h : symbolLt a b = true) (h' : symbolLt b c = true) :
    symbolLt a c = true := by
  simp only [symbolLt, decide_eq_true_eq] at *
  omega

theorem symbolLt_total (a b : Nat) (h : a ≠ b) : symbolLt a b = true ∨ symbolLt b a = true := by
  simp only [symbolLt, decide_eq_true_eq]
  omega

theorem codeLt_irrefl (a : Code) : codeLt a a = false := by
  induction a with
  | nil => rfl
  | cons d ds ih => simp [codeLt, ih]

theorem codeLt_trans (a b c : Code) (h : codeLt a b = true) (h' : codeLt b c = true) : codeLt a c = true := by
  induction a generalizing b c with
  | nil =>
    cases c with
    | nil => cases b <;> simp [codeLt] at h'
    | cons z zs => rfl
  | cons x xs ih =>
    cases b with
    | nil => simp [codeLt] at h
    | cons y ys =>
      cases c with
      | nil => simp [codeLt] at h'
      | cons z zs =>
        simp only [codeLt] at h h' ⊢
        split at h <;> split at h'
        · next h1 h2 => subst h1; subst h2; rw [if_pos rfl]; exact ih _ _ h h'
        · next h1 h2 => subst h1; rw [if_neg h2]; exact h'
        · next h1 h2 => subst h2; rw [if_neg h1]; exact h
        · next h1 h2 => revert h1 h2 h h'; cases x <;> cases y <;> cases z <;> simp

theorem codeLt_total (a b : Code) (h : a ≠ b) : codeLt a b = true ∨ codeLt b a = true := by
  induction a generalizing b with
  | nil =>
    cases b with
    | nil => exact absurd rfl h
    | cons y ys => exact .inl rfl
  | cons x xs ih =>
    cases b with
    | nil => exact .inr rfl
    | cons y ys =>
      by_cases hxy : x = y
      · subst hxy
        simpa [codeLt] using ih ys fun hs => h (by rw [hs])
      · revert hxy
        cases x <;> cases y <;> simp [codeLt]

/-! ### What recording a code does to the LUTs (rule R162) -/

theorem encFind_recordCode (x y : Symbol) (c : Code) (s : State) :
    encFind y (recordCode x c s) = if y = x then some c else encFind y s :=
  mapFind_mapWrite symbolLt x y c s.per.mem.enc

theorem decFind_recordCode (x : Symbol) (c d : Code) (s : State) :
    decFind d (recordCode x c s) = if d = c then some x else decFind d s :=
  mapFind_mapWrite codeLt c d x s.per.mem.dec

/-! ### Every memory operation keeps the canonical form -/

theorem reset_wf : Memory.wf Persistent.reset.mem := by decide

theorem recordCode_wf (x : Symbol) (c : Code) {s : State} (h : s.per.mem.wf) : (recordCode x c s).per.mem.wf :=
  ⟨mapWrite_sorted symbolLt_trans symbolLt_total x c h.1, mapWrite_sorted codeLt_trans codeLt_total c x h.2.1, h.2.2⟩

theorem mapsClear_wf {s : State} (h : s.per.mem.wf) : (mapsClear s).per.mem.wf :=
  ⟨List.Pairwise.nil, List.Pairwise.nil, h.2.2⟩

theorem ftClear_wf {s : State} (h : s.per.mem.wf) : (ftClear s).per.mem.wf :=
  ⟨h.1, h.2.1, List.nodup_nil⟩

theorem nodeWrite_wf (i : Nat) (v : TreeNode) {s : State} (h : s.per.mem.wf) : (nodeWrite i v s).per.mem.wf := h

theorem ftIncrement_wf (i : Nat) {s : State} (h : s.per.mem.wf) : (ftIncrement i s).per.mem.wf := by
  refine ⟨h.1, h.2.1, ?_⟩
  have : (ftIncrement i s).per.mem.ft.map FtEntry.sym = s.per.mem.ft.map FtEntry.sym := by
    apply List.ext_getElem?
    intro j
    simp only [ftIncrement_per_mem_ft, List.getElem?_map, List.getElem?_modify]
    cases s.per.mem.ft[j]? <;> simp
    split <;> rfl
  rw [this]
  exact h.2.2

/-- An append keeps the canonical form when the symbol has no entry, the only case in which it is done. -/
theorem ftAppend_wf {x : Symbol} (n : Nat) {s : State} (h : s.per.mem.wf) (hx : ftFind x s = none) :
    (ftAppend x n s).per.mem.wf := by
  refine ⟨h.1, h.2.1, ?_⟩
  simp only [ftFind, List.findIdx?_eq_none_iff, decide_eq_false_iff_not] at hx
  simp only [ftAppend_per_mem_ft, List.map_append, List.map_cons, List.map_nil]
  refine List.nodup_append.2 ⟨h.2.2, by simp, ?_⟩
  intro a ha b hb
  obtain ⟨e, he, rfl⟩ := List.mem_map.1 ha
  rw [List.mem_singleton.1 hb]
  exact hx e he

theorem discard_wf (s : State) : (discard s).per.mem.wf := reset_wf

end Sys2Proof.Machine
end

