-- ==== Sys2Proof/Laws/Queue.lean ====
section
/-!
SUPPORT. The priority collection: the order of keys, what an insertion adds, what an extraction takes.
-/

namespace Sys2Proof.Machine

theorem keyLt_iff (a b : PqEntry) : keyLt a b = true ↔ a.freq < b.freq ∨ (a.freq = b.freq ∧ a.seq < b.seq) := by
  simp [keyLt]

theorem keyLt_irrefl (a : PqEntry) : keyLt a a = false := by simp [keyLt]

theorem keyLt_trans {a b c : PqEntry} (h : keyLt a b = true) (h' : keyLt b c = true) : keyLt a c = true := by
  rw [keyLt_iff] at *
  omega

theorem keyLt_total {a b : PqEntry} (h : a.seq ≠ b.seq) : keyLt a b = true ∨ keyLt b a = true := by
  rw [keyLt_iff, keyLt_iff]
  omega

theorem keyLt_asymm {a b : PqEntry} (h : keyLt a b = true) : keyLt b a = false := by
  by_contra hc
  rw [Bool.not_eq_false, keyLt_iff] at hc
  rw [keyLt_iff] at h
  omega

/-- Not below the key of `a` and not above that of `b`. -/
theorem keyLt_false_trans {a b c : PqEntry} (h : keyLt a b = false) (h' : keyLt b c = false) : keyLt a c = false := by
  rw [Bool.eq_false_iff, ne_eq, keyLt_iff] at *
  omega

theorem pqAdd_perm (e : PqEntry) (q : List PqEntry) : (pqAdd e q).Perm (e :: q) := by
  induction q with
  | nil => exact List.Perm.refl _
  | cons x q ih =>
    unfold pqAdd
    split
    · exact List.Perm.refl _
    · exact (ih.cons x).trans (List.Perm.swap e x q)

theorem pqAdd_length (e : PqEntry) (q : List PqEntry) : (pqAdd e q).length = q.length + 1 := by
  simpa using (pqAdd_perm e q).length_eq

theorem mem_pqAdd {e a : PqEntry} {q : List PqEntry} : a ∈ pqAdd e q ↔ a = e ∨ a ∈ q := by
  rw [(pqAdd_perm e q).mem_iff, List.mem_cons]

/-- An insertion of a key whose sequence number is new keeps the canonical form. -/
theorem pqAdd_sorted {e : PqEntry} {q : List PqEntry} (h : pqSorted q) (hs : ∀ a ∈ q, a.seq ≠ e.seq) :
    pqSorted (pqAdd e q) := by
  induction q with
  | nil => simp [pqSorted, pqAdd]
  | cons x q ih =>
    have hp := List.pairwise_cons.1 h
    unfold pqAdd
    split
    · next hlt =>
      refine List.pairwise_cons.2 ⟨fun a ha => ?_, h⟩
      rcases List.mem_cons.1 ha with rfl | ha
      · exact hlt
      · exact keyLt_trans hlt (hp.1 a ha)
    · next hlt =>
      refine List.pairwise_cons.2 ⟨fun a ha => ?_, ih hp.2 fun a ha => hs a (List.mem_cons_of_mem _ ha)⟩
      rcases mem_pqAdd.1 ha with rfl | ha
      · exact (keyLt_total (hs x List.mem_cons_self)).resolve_right hlt
      · exact hp.1 a ha

theorem pqLeast_mem (m : PqEntry) (q : List PqEntry) : pqLeast m q ∈ m :: q := by
  induction q generalizing m with
  | nil => simp [pqLeast]
  | cons x q ih =>
    have h := ih (if keyLt x m then x else m)
    simp only [pqLeast]
    rcases List.mem_cons.1 h with h | h
    · rw [h]; split <;> simp
    · simp [h]

/-- No key present is below the least one. -/
theorem pqLeast_least (m : PqEntry) (q : List PqEntry) : ∀ a ∈ m :: q, keyLt a (pqLeast m q) = false := by
  induction q generalizing m with
  | nil => intro a ha; rw [List.mem_singleton.1 ha]; exact keyLt_irrefl m
  | cons x q ih =>
    have h := ih (if keyLt x m then x else m)
    intro a ha
    simp only [pqLeast]
    rcases List.mem_cons.1 ha with rfl | ha
    · refine keyLt_false_trans ?_ (h _ List.mem_cons_self)
      split
      · next hx => exact keyLt_asymm hx
      · exact keyLt_irrefl _
    · rcases List.mem_cons.1 ha with rfl | ha
      · refine keyLt_false_trans ?_ (h _ List.mem_cons_self)
        split
        · exact keyLt_irrefl _
        · next hx => exact Bool.eq_false_iff.2 hx
      · exact h a (List.mem_cons_of_mem _ ha)

/-- What an extraction gives: an entry of PQ and all the others, and no key present is below the entry's. -/
theorem pqTake_spec {q : List PqEntry} {e : PqEntry} {rest : List PqEntry} (h : pqTake q = some (e, rest)) :
    q.Perm (e :: rest) ∧ ∀ a ∈ q, keyLt a e = false := by
  cases q with
  | nil => simp [pqTake] at h
  | cons x q =>
    simp only [pqTake, Option.some.injEq, Prod.mk.injEq] at h
    obtain ⟨rfl, rfl⟩ := h
    exact ⟨List.perm_cons_erase (pqLeast_mem x q), pqLeast_least x q⟩

theorem pqTake_eq_none {q : List PqEntry} : pqTake q = none ↔ q = [] := by
  cases q <;> simp [pqTake]

/-- An extraction keeps the canonical form. -/
theorem pqTake_sorted {q : List PqEntry} {e : PqEntry} {rest : List PqEntry} (h : pqTake q = some (e, rest))
    (hq : pqSorted q) : pqSorted rest := by
  cases q with
  | nil => simp [pqTake] at h
  | cons x q =>
    simp only [pqTake, Option.some.injEq, Prod.mk.injEq] at h
    obtain ⟨rfl, rfl⟩ := h
    exact hq.sublist List.erase_sublist

/-- What an extraction does to the state. -/
theorem pqExtract_spec {s s1 : State} {e : PqEntry} (h : pqExtract s = some (e, s1)) :
    ∃ rest, pqTake s.tr.pq = some (e, rest) ∧ s1 = { s with tr := { s.tr with pq := rest } } := by
  unfold pqExtract at h
  split at h
  · cases h
  · next hq => cases h; exact ⟨_, hq, rfl⟩

theorem pqExtract_eq_none {s : State} : pqExtract s = none ↔ s.tr.pq = [] := by
  unfold pqExtract
  rw [← pqTake_eq_none]
  split <;> simp_all

end Sys2Proof.Machine
end

