-- ==== Sys2Proof/Laws/Stages.lean ====
section
/-!
SUPPORT. What the three stages of BUILD can do: one inversion lemma per loop body, and the frame of each stage.
-/

namespace Sys2Proof.Machine

/-! ### FT stage -/

/-- The two cases of the FT loop body (rule R131). -/
theorem ftStep_cases (s : State) (x : Symbol) :
    (ftFind x s = none ∧ ftStep s x = ftAppend x 1 s) ∨ ∃ i, ftFind x s = some i ∧ ftStep s x = ftIncrement i s := by
  unfold ftStep
  split
  · next h => exact .inl ⟨h, rfl⟩
  · next i h => exact .inr ⟨i, h, rfl⟩

theorem ftStep_wf (x : Symbol) {s : State} (h : s.per.mem.wf) : (ftStep s x).per.mem.wf := by
  obtain ⟨hx, he⟩ | ⟨i, -, he⟩ := ftStep_cases s x
  · exact he ▸ ftAppend_wf 1 h hx
  · exact he ▸ ftIncrement_wf i h

/-- The FT loop body writes FT and NSYM alone (rule R132). -/
theorem ftStep_frame (s : State) (x : Symbol) :
    ftStep s x = { s with per := { s.per with
      nsym := (ftStep s x).per.nsym, mem := { s.per.mem with ft := (ftStep s x).per.mem.ft } } } := by
  obtain ⟨-, he⟩ | ⟨i, -, he⟩ := ftStep_cases s x <;> rw [he] <;> rfl

theorem ftLoop_wf (text : List Symbol) {s : State} (h : s.per.mem.wf) : (text.foldl ftStep s).per.mem.wf := by
  induction text generalizing s with
  | nil => exact h
  | cons x xs ih => exact ih (ftStep_wf x h)

/-! ### HTB stage -/

/-- All that a merge can do when it does not fault (rules R145, R146). -/
theorem mergeNodes_cases {a b : PqEntry} {s t : State} (h : mergeNodes a b s = .ok t) :
    ∃ va vb, nodeRead a.id s = some va ∧ nodeRead b.id s = some vb ∧
      t = nextSeq (pqInsert (nodeFreq va + nodeFreq vb)
        (nodeWrite s.tr.seq (.internal (nodeFreq va + nodeFreq vb) a.id b.id) s)) := by
  unfold mergeNodes at h
  split at h
  · cases h
  · next va ha =>
    split at h
    · cases h
    · next vb hb => cases h; exact ⟨va, vb, ha, hb, rfl⟩

/-- The two extractions and the merge of a merge step that does not fault (rule R145). -/
theorem mergeStep_cases {s t : State} (h : mergeStep s = .ok t) :
    ∃ a b s1 s2, pqExtract s = some (a, s1) ∧ pqExtract s1 = some (b, s2) ∧ mergeNodes a b s2 = .ok t := by
  unfold mergeStep at h
  split at h
  · cases h
  · next a s1 h1 =>
    split at h
    · cases h
    · next b s2 h2 => exact ⟨a, b, s1, s2, h1, h2, h⟩

theorem mergeLoop_zero (s : State) : mergeLoop 0 s = .ok s := rfl

/-- One turn of the merge loop (rule R144). -/
theorem mergeLoop_succ (k : Nat) (s : State) :
    mergeLoop (k + 1) s =
      if 1 < s.tr.pq.length then (match mergeStep s with | .error f => .error f | .ok s1 => mergeLoop k s1)
      else .ok s := rfl

theorem takeRoot_cases {s t : State} (h : takeRoot s = .ok t) :
    ∃ r, s.tr.pq = [r] ∧ t = setRoot r.id s := by
  unfold takeRoot at h
  split at h
  · next r hr => cases h; exact ⟨r, hr, rfl⟩
  · cases h

/-- The parts of an HTB stage that does not fault (rule R147). -/
theorem htbStage_cases {s t : State} (h : htbStage s = .ok t) :
    s.per.nsym ≠ 0 ∧ ∃ s1, mergeLoop s.per.nsym (seedStage s) = .ok s1 ∧ takeRoot s1 = .ok t := by
  unfold htbStage at h
  split at h
  · cases h
  · next hn =>
    split at h
    · cases h
    · next s1 h1 => exact ⟨hn, s1, h1, h⟩

/-! ### CA stage -/

/-- The two cases of a walk that does not fault (rule R161). -/
theorem walk_cases {fuel : Nat} {id : Nat} {path : Code} {s t : State} (h : walk fuel id path s = .ok t) :
    ∃ k, fuel = k + 1 ∧
      ((∃ x f, nodeRead id s = some (.leaf x f) ∧ t = leafAction x path (setPath path s)) ∨
       ∃ f l r s1, nodeRead id s = some (.internal f l r) ∧
         walk k l (path ++ [false]) (setPath path s) = .ok s1 ∧ walk k r (path ++ [true]) s1 = .ok t) := by
  cases fuel with
  | zero => cases h
  | succ k =>
    refine ⟨k, rfl, ?_⟩
    have hr : nodeRead id (setPath path s) = nodeRead id s := rfl
    simp only [walk, hr] at h
    split at h
    · cases h
    · next x f hx => cases h; exact .inl ⟨x, f, hx, rfl⟩
    · next f l r hx =>
      split at h
      · cases h
      · next s1 h1 => exact .inr ⟨f, l, r, s1, hx, h1, h⟩

/-- A walk writes ENC, DEC, HEIGHT and PATH alone (rule R165). -/
theorem walk_frame {fuel : Nat} {id : Nat} {path : Code} {s t : State} (h : walk fuel id path s = .ok t) :
    t = { s with
      per := { s.per with height := t.per.height, mem := { s.per.mem with enc := t.per.mem.enc, dec := t.per.mem.dec } }
      tr := { s.tr with path := t.tr.path } } := by
  induction fuel generalizing id path s t with
  | zero => cases h
  | succ k ih =>
    obtain ⟨k', hk, ⟨x, f, -, rfl⟩ | ⟨f, l, r, s1, -, h1, h2⟩⟩ := walk_cases h
    · rfl
    · cases hk
      have e1 := ih h1
      have e2 := ih h2
      rw [e2, e1]
      rfl

theorem walk_wf {fuel : Nat} {id : Nat} {path : Code} {s t : State} (h : walk fuel id path s = .ok t)
    (hw : s.per.mem.wf) : t.per.mem.wf := by
  induction fuel generalizing id path s t with
  | zero => cases h
  | succ k ih =>
    obtain ⟨k', hk, ⟨x, f, -, rfl⟩ | ⟨f, l, r, s1, -, h1, h2⟩⟩ := walk_cases h
    · exact recordCode_wf x path (s := setPath path s) hw
    · cases hk
      exact ih h2 (ih h1 hw)

/-- The two cases of a CA stage that does not fault (rule R165). -/
theorem caStage_cases {s t : State} (h : caStage s = .ok t) :
    (∃ x f, nodeRead s.per.root s = some (.leaf x f) ∧ t = recordCode x forcedCode (startWalk s)) ∨
    ∃ f l r, nodeRead s.per.root s = some (.internal f l r) ∧
      walk s.per.nodecount s.per.root [] (startWalk s) = .ok t := by
  unfold caStage at h
  split at h
  · cases h
  · next x f hx => cases h; exact .inl ⟨x, f, hx, rfl⟩
  · next f l r hx => exact .inr ⟨f, l, r, hx, h⟩

theorem caStage_wf {s t : State} (h : caStage s = .ok t) (hw : s.per.mem.wf) : t.per.mem.wf := by
  have h0 : (startWalk s).per.mem.wf := mapsClear_wf hw
  obtain ⟨x, f, -, rfl⟩ | ⟨f, l, r, -, hwk⟩ := caStage_cases h
  · exact recordCode_wf x forcedCode h0
  · exact walk_wf hwk h0

/-! ### The stages together -/

theorem buildStages_cases {text : List Symbol} {s t : State} (h : buildStages text s = .ok t) :
    ∃ s1, htbStage (ftStage text s) = .ok s1 ∧ caStage s1 = .ok t := by
  unfold buildStages at h
  split at h
  · cases h
  · next s1 h1 => exact ⟨s1, h1, h⟩

end Sys2Proof.Machine
end

