-- ==== Sys2Proof/Laws/Exec.lean ====
section
/-!
SUPPORT. What each command can do: its cases, said once.
-/

namespace Sys2Proof.Machine

/-- The text operand is admitted exactly when it is a text, its items fit and it is not too long. -/
theorem textOperand_ok {c : Config} {op : Operand} {t : List Symbol} :
    textOperand c op = .ok t ↔ asText op = some t ∧ itemsFit c t = true ∧ within c.maxText t.length = true := by
  unfold textOperand
  cases asText op with
  | none => simp
  | some u =>
    simp only [Option.some.injEq]
    split
    · split
      · constructor
        · intro h; cases h; exact ⟨rfl, ‹_›, ‹_›⟩
        · rintro ⟨rfl, -, -⟩; rfl
      · constructor
        · intro h; cases h
        · rintro ⟨rfl, -, h⟩; exact absurd h ‹_›
    · constructor
      · intro h; cases h
      · rintro ⟨rfl, h, -⟩; exact absurd h ‹_›

/-- The binary operand is admitted exactly when it is a binary sequence and not too long. -/
theorem digitsOperand_ok {c : Config} {op : Operand} {b : List Digit} :
    digitsOperand c op = .ok b ↔ asDigits op = some b ∧ within c.maxBits b.length = true := by
  unfold digitsOperand
  cases asDigits op with
  | none => simp
  | some u =>
    simp only [Option.some.injEq]
    split
    · constructor
      · intro h; cases h; exact ⟨rfl, ‹_›⟩
      · rintro ⟨rfl, -⟩; rfl
    · constructor
      · intro h; cases h
      · rintro ⟨rfl, h⟩; exact absurd h ‹_›

/-- A query operand is admitted exactly when it is one symbol that fits. -/
theorem symbolOperand_ok {c : Config} {op : Operand} {x : Symbol} :
    symbolOperand c op = .ok x ↔ asText op = some [x] ∧ symbolFits c x = true := by
  unfold symbolOperand
  cases asText op with
  | none => simp
  | some u =>
    match u with
    | [] => simp
    | [y] =>
      simp only [Option.some.injEq, List.cons.injEq, and_true]
      split
      · constructor
        · intro h; cases h; exact ⟨rfl, ‹_›⟩
        · rintro ⟨rfl, -⟩; rfl
      · constructor
        · intro h; cases h
        · rintro ⟨rfl, h⟩; exact absurd h ‹_›
    | y :: z :: zs => simp

/-- The two ends of a BUILD that answers a next state (rules R177, R178). -/
theorem execBuild_cases {s t : State} (h : execBuild s = .next t) :
    ∃ text, textOperand s.cfg s.inp = .ok text ∧
      ((text = [] ∧ t = buildFailed (discard (startCommand s))) ∨
       (text ≠ [] ∧ ∃ s1, buildStages text (discard (startCommand s)) = .ok s1 ∧ t = buildDone s1)) := by
  unfold execBuild at h
  split at h
  · cases h
  · next text ht =>
    refine ⟨text, ht, ?_⟩
    unfold buildText at h
    split at h
    · next he => cases h; exact .inl ⟨he, rfl⟩
    · next he =>
      split at h
      · cases h
      · next s1 h1 => cases h; exact .inr ⟨he, s1, h1, rfl⟩

/-- The two ends of a COMPRESS that answers a next state (rules R190, R191). -/
theorem execCompress_cases {s t : State} (h : execCompress s = .next t) :
    ∃ text, textOperand s.cfg s.inp = .ok text ∧
      ((s.per.valid = false ∧ t = compressNoTree (startCommand s)) ∨
       (s.per.valid = true ∧ t = compressDone (text.foldl compressStep (zeroStats (startCommand s))) ∧
         within s.cfg.maxBits (text.foldl compressStep (zeroStats (startCommand s))).per.bitcount = true)) := by
  unfold execCompress at h
  split at h
  · cases h
  · next text ht =>
    refine ⟨text, ht, ?_⟩
    unfold compressText at h
    split at h
    · next hv =>
      split at h
      · next hb => cases h; exact .inr ⟨hv, rfl, hb⟩
      · cases h
    · next hv => cases h; exact .inl ⟨Bool.eq_false_iff.2 hv, rfl⟩

/-- A DECOMPRESS that answers a next state (rule R205). -/
theorem execDecompress_cases {s t : State} (h : execDecompress s = .next t) :
    ∃ bits, digitsOperand s.cfg s.inp = .ok bits ∧ t = decompressDigits bits (startCommand s) := by
  unfold execDecompress at h
  split at h
  · cases h
  · next bits hb => cases h; exact ⟨bits, hb, rfl⟩

/-- A query that answers a next state (rule R225). -/
theorem query_cases {answer : Symbol → State → Response} {s t : State} (h : query answer s = .next t) :
    ∃ x, symbolOperand s.cfg s.inp = .ok x ∧ t = respond (answer x s) (startCommand s) := by
  unfold query at h
  split at h
  · cases h
  · next x hx => cases h; exact ⟨x, hx, rfl⟩

/-- The two cases of the encoder's loop body (rules R190, R193). -/
theorem compressStep_cases (s : State) (x : Symbol) :
    (∃ c, encFind x s = some c ∧ compressStep s x = countBits c.length (emitDigits c (countSymbol s))) ∨
    (encFind x s = none ∧ compressStep s x = countSkip (countSymbol s)) := by
  have he : encFind x (countSymbol s) = encFind x s := rfl
  unfold compressStep
  rw [he]
  split
  · next c hc => exact .inl ⟨c, hc, rfl⟩
  · next hc => exact .inr ⟨hc, rfl⟩

/-- The two cases of the decoder's step (rules R208, R209). -/
theorem digitStep_cases (s : State) (d : Digit) :
    (∃ x, decFind (s.tr.buf ++ [d]) s = some x ∧ digitStep s d = setBuf [] (emitSymbol x s)) ∨
    (decFind (s.tr.buf ++ [d]) s = none ∧ digitStep s d = setBuf (s.tr.buf ++ [d]) s) := by
  unfold digitStep
  split
  · next x hx => exact .inl ⟨x, hx, rfl⟩
  · next hx => exact .inr ⟨hx, rfl⟩

/-- The encoder's loop body writes OUT and the statistics alone (rule R195). -/
theorem compressStep_frame (s : State) (x : Symbol) :
    compressStep s x = { s with
      out := (compressStep s x).out
      per := { s.per with
        skipcount := (compressStep s x).per.skipcount
        bitcount := (compressStep s x).per.bitcount
        symcount := (compressStep s x).per.symcount } } := by
  obtain ⟨c, -, he⟩ | ⟨-, he⟩ := compressStep_cases s x <;> rw [he] <;> rfl

/-- The decoder's step writes OUT and BUF alone (rule R212). -/
theorem digitStep_frame (s : State) (d : Digit) :
    digitStep s d = { s with out := (digitStep s d).out, tr := { s.tr with buf := (digitStep s d).tr.buf } } := by
  obtain ⟨x, -, he⟩ | ⟨-, he⟩ := digitStep_cases s d <;> rw [he] <;> rfl

/-! ### The loops of the encoder and the decoder in closed form -/

/-- All that the encoder's loop does (rules R192 to R194). -/
theorem compressLoop_eq (text : List Symbol) (s : State) :
    text.foldl compressStep s = { s with
      out := { s.out with digits := s.out.digits ++ text.flatMap (codeOrNothing s) }
      per := { s.per with
        symcount := s.per.symcount + text.length
        bitcount := s.per.bitcount + (text.flatMap (codeOrNothing s)).length
        skipcount := s.per.skipcount + text.countP fun x => !isMapped s x } } := by
  induction text generalizing s with
  | nil => simp
  | cons x xs ih =>
    have hmaps : (compressStep s x).per.mem = s.per.mem := by rw [compressStep_frame]
    have hcode : codeOrNothing (compressStep s x) = codeOrNothing s := by
      funext y; simp [codeOrNothing, encFind, hmaps]
    have hmap : isMapped (compressStep s x) = isMapped s := by
      funext y; simp [isMapped, encFind, hmaps]
    rw [List.foldl_cons, ih, hcode, hmap]
    obtain ⟨c, hc, he⟩ | ⟨hc, he⟩ := compressStep_cases s x
    · have h1 : codeOrNothing s x = c := by simp [codeOrNothing, hc]
      have h2 : isMapped s x = true := by simp [isMapped, hc]
      simp [he, h1, h2, countBits, emitDigits, countSymbol, Nat.add_assoc, Nat.add_comm 1]
    · have h1 : codeOrNothing s x = [] := by simp [codeOrNothing, hc]
      have h2 : isMapped s x = false := by simp [isMapped, hc]
      simp [he, h1, h2, countSkip, countSymbol, Nat.add_assoc, Nat.add_comm 1]

/-- All that the decoder's loop does: what the machine `Accumulating(buffer)` does (rules R207 to R209). -/
theorem digitLoop_eq (bits : List Digit) (s : State) :
    bits.foldl digitStep s = { s with
      out := { s.out with text := s.out.text ++ (decodeFrom s.per.mem.dec s.tr.buf bits).1 }
      tr := { s.tr with buf := (decodeFrom s.per.mem.dec s.tr.buf bits).2 } } := by
  induction bits generalizing s with
  | nil => simp [decodeFrom]
  | cons d ds ih =>
    rw [List.foldl_cons, ih]
    obtain ⟨x, hx, he⟩ | ⟨hx, he⟩ := digitStep_cases s d
    · rw [he, decodeFrom, show mapFind (s.tr.buf ++ [d]) s.per.mem.dec = some x from hx]
      simp [setBuf, emitSymbol]
    · rw [he, decodeFrom, show mapFind (s.tr.buf ++ [d]) s.per.mem.dec = none from hx]
      simp [setBuf]

end Sys2Proof.Machine
end

