-- ==== Sys2Proof/Laws/PerInstr.lean ====
section
/-!
SUPPORT. What is proved of each command by itself: its word.
-/

namespace Sys2Proof.Laws.CommandEncoding

/-- The word of a command decodes to it, has `RSV = 0000` and the command's `OP`, and is the table's one word for
it (rules R90, R91). -/
def Statement (i : Instr) : Prop :=
  decode (encode i) = .ok i ∧ rsvField (encode i) = 0#4 ∧ opField (encode i) = opcodeOf i ∧
  decodeTableWord 8 (encode i).toNat = some i

theorem build : Statement .build := ⟨rfl, rfl, rfl, rfl⟩

theorem compress : Statement .compress := ⟨rfl, rfl, rfl, rfl⟩

theorem decompress : Statement .decompress := ⟨rfl, rfl, rfl, rfl⟩

theorem clear : Statement .clear := ⟨rfl, rfl, rfl, rfl⟩

theorem qfreq : Statement .qfreq := ⟨rfl, rfl, rfl, rfl⟩

theorem qcode : Statement .qcode := ⟨rfl, rfl, rfl, rfl⟩

theorem qmember : Statement .qmember := ⟨rfl, rfl, rfl, rfl⟩

end Sys2Proof.Laws.CommandEncoding
end

