-- ==== Sys2Proof/Laws/Step.lean ====
section
/-!
SUPPORT. All that one step can do.
-/

namespace Sys2Proof.Machine

/-- A word stands for a command exactly when none is in progress and it is legal. -/
theorem legalWord_ok {w : CommandWord} {s : State} {i : Instr} :
    legalWord w s = .ok i ↔ s.busy = false ∧ decode w = .ok i := by
  unfold legalWord
  cases s.busy <;> cases decode w <;> simp

/-- A fetch of a word with its whole operand that runs a command. -/
theorem fetchWhole_run {w : CommandWord} {op : Operand} {rest : List HostAction} {s s1 : State} {i : Instr}
    (h : fetchWhole w op rest s = .run i s1) :
    legalWord w s = .ok i ∧ s1 = accept op rest s := by
  unfold fetchWhole at h
  split at h
  · cases h
  · next j hj =>
    split at h
    · cases h
    · cases h; exact ⟨hj, rfl⟩

/-- A word with its whole operand never leaves HCE waiting. -/
theorem fetchWhole_not_stay (w : CommandWord) (op : Operand) (rest : List HostAction) (s s1 : State) :
    fetchWhole w op rest s ≠ .stay s1 := by
  unfold fetchWhole
  split
  · simp
  · split <;> simp

/-- What OUT holds while a command waits for its operand's end (rules R64, R191, R206). -/
theorem voidOut_limits (i : Instr) (op : Operand) (s : State) :
    (i ≠ .compress → (voidOut i op s).digits = []) ∧ (i ≠ .decompress → (voidOut i op s).text = []) ∧
    (s.per.valid = false → voidOut i op s = Out.empty) ∧
    within s.cfg.maxBits (voidOut i op s).digits.length = true ∧
    (voidOut i op s).text.length ≤ ((asDigits op).getD []).length ∧ itemsFit s.cfg (voidOut i op s).text = true := by
  have hw : within s.cfg.maxBits 0 = true := by cases h : s.cfg.maxBits <;> simp [within]
  cases hv : s.per.valid <;> cases i <;>
    simp [voidOut, hv, hw, Out.empty, itemsFit, List.length_take_le, -List.length_take]
  · cases h : s.cfg.maxBits <;> simp [within, upTo]
  · exact fun x hx => (List.mem_filter.1 (List.mem_of_mem_take hx)).2

/-- A register read that is answered. -/
theorem fetchRead_stay {r : Reg} {rest : List HostAction} {s s1 : State} (h : fetchRead r rest s = .stay s1) :
    s.busy = false ∧ hasReadPort s.cfg r = true ∧ s1 = hostRead r rest s := by
  unfold fetchRead at h
  split at h
  · cases h
  · next hb =>
    split at h
    · next hp => cases h; exact ⟨Bool.eq_false_iff.2 hb, hp, rfl⟩
    · cases h

/-- A register read runs no command. -/
theorem fetchRead_not_run (r : Reg) (rest : List HostAction) (s s1 : State) (i : Instr) :
    fetchRead r rest s ≠ .run i s1 := by
  unfold fetchRead
  split
  · simp
  · split <;> simp

/-- What a fetch that runs a command has found. -/
theorem fetch_run_cases {s s1 : State} {i : Instr} (h : fetch s = .run i s1) :
    s.busy = false ∧ ∃ w op rest, (s.host = .issue w op :: rest ∨ s.host = .issueOpen w op :: rest) ∧
      decode w = .ok i ∧ s1 = accept op rest s := by
  unfold fetch at h
  split at h
  · cases h
  · cases h
  · exact absurd h (fetchRead_not_run _ _ _ _ _)
  · next w op rest hh =>
    obtain ⟨hl, he⟩ := fetchWhole_run h
    obtain ⟨hb, hd⟩ := legalWord_ok.1 hl
    exact ⟨hb, w, op, rest, .inl hh, hd, he⟩
  · next w op rest hh =>
    unfold fetchOpen at h
    split at h
    · cases h
    · split at h
      · obtain ⟨hl, he⟩ := fetchWhole_run h
        obtain ⟨hb, hd⟩ := legalWord_ok.1 hl
        exact ⟨hb, w, op, rest, .inr hh, hd, he⟩
      · cases h
/-- What a fetch that runs no command has found: idle, a reset, a register read, or an operand with no end. -/
theorem fetch_stay_cases {s s1 : State} (h : fetch s = .stay s1) :
    (s.host = [] ∧ s1 = s) ∨
    (∃ rest, s.host = .reset :: rest ∧ s1 = hostReset rest s) ∨
    (∃ r rest, s.busy = false ∧ s.host = .read r :: rest ∧ hasReadPort s.cfg r = true ∧ s1 = hostRead r rest s) ∨
    ∃ w op rest i, s.busy = false ∧ s.host = .issueOpen w op :: rest ∧ decode w = .ok i ∧
      operandKindOf i ≠ .none ∧ s1 = hang i op rest s := by
  unfold fetch at h
  split at h
  · next hh => cases h; exact .inl ⟨hh, rfl⟩
  · next rest hh => cases h; exact .inr (.inl ⟨rest, hh, rfl⟩)
  · next r rest hh =>
    obtain ⟨hb, hp, he⟩ := fetchRead_stay h
    exact .inr (.inr (.inl ⟨r, rest, hb, hh, hp, he⟩))
  · exact absurd h (fetchWhole_not_stay _ _ _ _ _)
  · next w op rest hh =>
    unfold fetchOpen at h
    split at h
    · cases h
    · next i hl =>
      split at h
      · exact absurd h (fetchWhole_not_stay _ _ _ _ _)
      · next hk =>
        cases h
        obtain ⟨hb, hd⟩ := legalWord_ok.1 hl
        exact .inr (.inr (.inr ⟨w, op, rest, i, hb, hh, hd, hk, rfl⟩))

/-- All that a step that answers a next state can do. -/
theorem step_cases {s t : State} (h : step s = .next t) :
    (∃ i s1, fetch s = .run i s1 ∧ exec i s1 = .next t) ∨ fetch s = .stay t := by
  unfold step at h
  split at h
  · next i s1 hf => exact .inl ⟨i, s1, hf, h⟩
  · next s1 hf => cases h; exact .inr hf
  · cases h

end Sys2Proof.Machine
end

