-- ==== Sys2Proof/Tests/Slice0.lean ====
section
/-!
SUPPORT. Tests. Every expected value is from the spec's vectors (95_test_vectors.md, named at each test) or from the
rule named there; then one witness or more for the hypotheses of each statement.
-/

namespace Sys2Proof.Tests

open Sys2Proof.Machine

/-! ### Helpers: small states, one step -/

/-- The symbols of the tests (G1): a, b, c, z. -/
abbrev a : Symbol := 0x61
abbrev b : Symbol := 0x62
abbrev c : Symbol := 0x63
abbrev z : Symbol := 0x7A

/-- The persistent state of V-D1, written out from the vector: after BUILD "aabc" from reset. -/
def aabc : Persistent :=
  { valid := true, status := 0#2, nsym := 3, nodecount := 5, root := 4, height := 2,
    skipcount := 0, bitcount := 0, symcount := 0,
    mem := { ft := [⟨a, 2⟩, ⟨b, 1⟩, ⟨c, 1⟩],
             node := [.leaf a 2, .leaf b 1, .leaf c 1, .internal 2 1 2, .internal 4 0 3],
             enc := [(a, [false]), (b, [true, false]), (c, [true, true])],
             dec := [([false], a), ([true, false], b), ([true, true], c)] } }

/-- The persistent state of S1 step 1, after BUILD "aaaa". -/
def aaaa : Persistent :=
  { valid := true, status := 0#2, nsym := 1, nodecount := 1, root := 0, height := 0,
    skipcount := 0, bitcount := 0, symcount := 0,
    mem := { ft := [⟨a, 4⟩], node := [.leaf a 4], enc := [(a, [false])], dec := [([false], a)] } }

/-- A state with the persistent state `p` and the operand `op` on IN. -/
def on (p : Persistent) (op : Operand) : State := { State.reset with per := p, inp := op }

/-- The state after reset with the operand `op` on IN. -/
def fresh (op : Operand) : State := { State.reset with inp := op }

/-- The next state, when there is one. -/
def nextOf (r : Host.Outcome State Fault Refusal) : Option State :=
  match r with
  | .next s => some s
  | .fault _ => none
  | .refused _ => none

/-- The refusal, when there is one. -/
def refusalOf (r : Host.Outcome State Fault Refusal) : Option Refusal :=
  match r with
  | .next _ => none
  | .fault _ => none
  | .refused x => some x

/-- The response after the command `i`. -/
def answerOf (i : Instr) (s : State) : Option Observation := (nextOf (exec i s)).bind State.resp

/-- The persistent state after the command `i`. -/
def perOf (i : Instr) (s : State) : Option Persistent := (nextOf (exec i s)).map State.per

/-! ### Decoding: words written out from the encoding tables of rules R90, R91 (V-H) -/

theorem test_decode_build : decode 0b00000001#8 = .ok .build := rfl

theorem test_decode_compress : decode 0b00000010#8 = .ok .compress := rfl

theorem test_decode_decompress : decode 0b00000011#8 = .ok .decompress := rfl

theorem test_decode_clear : decode 0b00000100#8 = .ok .clear := rfl

theorem test_decode_qfreq : decode 0b00000101#8 = .ok .qfreq := rfl

theorem test_decode_qcode : decode 0b00000110#8 = .ok .qcode := rfl

theorem test_decode_qmember : decode 0b00000111#8 = .ok .qmember := rfl

theorem test_decode_reserved_opcodes :
    decode 0x00#8 = .error (.reservedOpcode 0x0#4) ∧ decode 0x08#8 = .error (.reservedOpcode 0x8#4) ∧
    decode 0x0F#8 = .error (.reservedOpcode 0xF#4) := ⟨rfl, rfl, rfl⟩

theorem test_decode_reserved_field :
    decode 0x10#8 = .error (.reservedField 0x1#4) ∧ decode 0x11#8 = .error (.reservedField 0x1#4) ∧
    decode 0x84#8 = .error (.reservedField 0x8#4) ∧ decode 0xFF#8 = .error (.reservedField 0xF#4) :=
  ⟨rfl, rfl, rfl, rfl⟩

/-! ### WellFormed: an ill-formed operand for each check (rules R6, R7, R63, U10) -/

theorem test_wellformed_kind : WellFormed Config.examples .build (.digits [true]) = false ∧
    WellFormed Config.examples .decompress (.text [a]) = false ∧
    WellFormed Config.examples .compress .none = false ∧ WellFormed Config.examples .clear (.text [a]) = false := by
  decide

theorem test_wellformed_length : WellFormed ⟨8, some 2, some 2, true⟩ .build (.text [a, a, a]) = false ∧
    WellFormed ⟨8, some 2, some 2, true⟩ .decompress (.digits [true, true, true]) = false ∧
    WellFormed Config.examples .qfreq (.text [a, b]) = false ∧
    WellFormed Config.examples .qmember (.text []) = false := by decide

theorem test_wellformed_width : WellFormed Config.examples .compress (.text [256]) = false ∧
    WellFormed Config.examples .qcode (.text [256]) = false := by decide

theorem test_wellformed_accepts : WellFormed ⟨8, some 2, some 2, true⟩ .build (.text [a, 255]) = true ∧
    WellFormed Config.examples .decompress (.digits []) = true ∧ WellFormed Config.examples .clear .none = true ∧
    WellFormed Config.examples .qcode (.text [a]) = true ∧ WellFormed Config.examples .build (.digits []) = true := by
  decide

/-- R6, R7: SYM_W is at least 1 and a bound is positive. -/
theorem test_config_wf : Config.examples.wf = true ∧ Config.wf ⟨0, none, none, true⟩ = false ∧
    Config.wf ⟨8, some 0, none, true⟩ = false := by decide

/-! ### One command -/

/-- V-D1. -/
theorem test_build_aabc : perOf .build (fresh (.text [a, a, b, c])) = some aabc := by decide

/-- V-D9: MAX_TEXT = 4, a text of five symbols. -/
theorem test_build_too_long :
    refusalOf (exec .build { on aabc (.text [a, a, a, a, a]) with cfg := ⟨8, some 4, none, true⟩ }) =
      some .operandTooLong := by decide

/-- V-E15: "cab" under the tree of "aabc" gives "11010". -/
theorem test_compress_cab : answerOf .compress (on aabc (.text [c, a, b])) =
    some (.response (.compress 0#2 [true, true, false, true, false])) := by decide

/-- V-E16: MAX_BITS = 4, "bcb" would give 6 digits. -/
theorem test_compress_result_too_long :
    refusalOf (exec .compress { on aabc (.text [b, c, b]) with cfg := ⟨8, none, some 4, true⟩ }) =
      some .resultTooLong := by decide

/-- V-F1: "10110" gives "bca". -/
theorem test_decompress_bca : answerOf .decompress (on aabc (.digits [true, false, true, true, false])) =
    some (.response (.decompress 0#2 [b, c, a])) := by decide

/-- V-F13: a one-symbol tree, "0010" emits two symbols and is truncated. -/
theorem test_decompress_dead_buffer : answerOf .decompress (on aaaa (.digits [false, false, true, false])) =
    some (.response (.decompress 3#2 [a, a])) := by decide

/-- V-D4. -/
theorem test_clear_discards : perOf .clear (on aabc .none) = some Persistent.reset := by decide

/-- V-D6: STATUS.ERR 1 → 0. -/
theorem test_clear_resets_status :
    (perOf .clear (on { Persistent.reset with status := 1#2 } .none)).map Persistent.status = some 0#2 := by decide

/-- R226 on the FT of V-D1. -/
theorem test_qfreq_present : answerOf .qfreq (on aabc (.text [a])) = some (.response (.qfreq 2)) := by decide

/-- V-G: the reset state. -/
theorem test_qfreq_no_tree : answerOf .qfreq (fresh (.text [a])) = some (.response (.qfreq 0)) := by decide

/-- R227, R104 on the ENC of V-C5: c is "11", value 3. -/
theorem test_qcode_present : answerOf .qcode (on aabc (.text [c])) = some (.response (.qcode true 2 3)) := by decide

/-- V-G: S1 step 2, the forced code "0". -/
theorem test_qcode_forced : answerOf .qcode (on aaaa (.text [a])) = some (.response (.qcode true 1 0)) := by decide

/-- R228 on the ENC of V-C5. -/
theorem test_qmember_present : answerOf .qmember (on aabc (.text [b])) = some (.response (.qmember true)) := by decide

/-- V-G: z has no code. -/
theorem test_qmember_absent : answerOf .qmember (on aabc (.text [z])) = some (.response (.qmember false)) := by decide

/-! ### The host's side, the pseudo-commands, the small steps -/

/-- R230: the register HEIGHT after V-D1. -/
theorem test_register_read :
    (nextOf (step { on aabc .none with host := [.read .height] })).bind State.resp = some (.register .height 2) := by
  decide

/-- R41: on a machine that gives ROOT no host read port, a read of it is refused and one of HEIGHT is answered. -/
theorem test_root_without_port :
    refusalOf (step (runStart { Config.examples with rootPort := false } [.read .root])) = some .noReadPort ∧
    (nextOf (step (runStart { Config.examples with rootPort := false } [.read .height]))).bind State.resp =
      some (.register .height 0) := by decide

/-- R64: a BUILD that waits for its operand's end has emitted nothing. -/
theorem test_hanging_build_emits_nothing :
    (nextOf (step { on aabc .none with host := [.issueOpen 0x01#8 (.text [a])] })).map
      (fun s => (s.busy, s.out)) = some (true, Out.empty) := by decide

/-- V-I5, its last command: DECOMPRESS "0" after a failed BUILD is NoTreeError. -/
theorem test_step_no_tree :
    (nextOf (step { State.reset with per := { Persistent.reset with status := 1#2 },
                                     host := [.issue 0x03#8 (.digits [false])] })).map
      (fun s => s.per.status) = some 2#2 := by decide

/-- The word of QCODE, placed as the first command after reset, is run by the very next step. -/
theorem test_withFetchWord : (nextOf (step (State.reset.withFetchWord 8 6))).bind State.resp =
    some (.response (.qcode false 0 0)) := by decide

/-- V-G: BITCOUNT/SYMCOUNT 9/1 gives −12.5, and any/0 no value. -/
theorem test_ratio : ratio { aabc with bitcount := 9, symcount := 1 } = some (-25 / 2) ∧ ratio aabc = none := by
  constructor
  · norm_num [ratio, aabc]
  · rfl

/-- R106: a program line with a comment. -/
theorem test_parse_line :
    parseLine ['Q', 'C', 'O', 'D', 'E', ' ', '\'', 'a', '\'', ' ', ';', 'x'] =
      some (.command .qcode (.text [a])) := by decide

/-- R180: BUILD "aabc" takes 1 + 4 + 5 + 5 + 1 small steps. -/
theorem test_small_steps_build :
    ((nextOf (exec .build (fresh (.text [a, a, b, c])))).map
      fun t => microCount .build (fresh (.text [a, a, b, c])) t) = some 16 := by decide

/-! ### Witnesses: concrete states and operands that meet the hypotheses of each statement -/

/-- BUILD "aabc" from reset answers a next state. -/
theorem build_aabc_runs : ∃ t, exec .build (fresh (.text [a, a, b, c])) = .next t := ⟨_, rfl⟩

/-- The states of V-D1 and S1 and the reset state meet the invariant. -/
theorem aabc_inv : (on aabc .none).Inv := by decide

theorem aaaa_inv : (on aaaa .none).Inv := by decide

theorem reset_inv : State.reset.Inv := by decide

theorem witness_ReservedWordsRefused :
    ¬ (rsvField 0x08#8 = 0#4 ∧ 1 ≤ (opField 0x08#8).toNat ∧ (opField 0x08#8).toNat ≤ 7) ∧
    ¬ (rsvField 0x11#8 = 0#4 ∧ 1 ≤ (opField 0x11#8).toNat ∧ (opField 0x11#8).toNat ≤ 7) ∧
    (runStart Config.examples [.issue 0x08#8 .none]).busy = false := by decide

theorem witness_StepRunsDecodedCommand :
    (runStart Config.examples [.issue 0x01#8 (.text [a])]).busy = false ∧ decode 0x01#8 = .ok .build ∧
    (Instr.build = .clear → noItems (.text [a]) = true) ∧
    decode 0x04#8 = .ok .clear ∧ noItems .none = true ∧
    (runStart Config.examples [.issueOpen 0x04#8 .none]).host = .issueOpen 0x04#8 .none :: [] ∧
    noItems (.text [a]) = false ∧
    (runStart Config.examples [.issue 0x04#8 (.text [a])]).host = .issue 0x04#8 (.text [a]) :: [] :=
  ⟨rfl, rfl, by decide, rfl, rfl, rfl, rfl, rfl⟩

theorem witness_RegisterReadHasNoEffect :
    (∃ s : State, s.busy = false ∧ s.host = .read .valid :: [] ∧ (Reg.valid = .root → s.cfg.rootPort = true)) ∧
    (∃ s : State, s.busy = false ∧ s.host = .read .root :: [] ∧ (Reg.root = .root → s.cfg.rootPort = true)) ∧
    ∃ s : State, s.busy = false ∧ s.host = .read .root :: [] ∧ s.cfg.rootPort = false :=
  ⟨⟨runStart Config.examples [.read .valid], rfl, rfl, by decide⟩,
   ⟨runStart Config.examples [.read .root], rfl, rfl, fun _ => rfl⟩,
   ⟨runStart { Config.examples with rootPort := false } [.read .root], rfl, rfl, rfl⟩⟩

theorem witness_ResetStateValues : (∃ t, exec .clear (on aabc .none) = .next t) ∧
    ∃ (s t : State) (tr' : Transient), exec .decompress s = .next t ∧ tr' ≠ s.tr :=
  ⟨⟨_, rfl⟩, on aabc (.digits [false]), _, { Transient.reset with buf := [true] }, rfl, by decide⟩

theorem witness_ResetTakenInEveryState : ∃ s : State, s.busy = true ∧ s.host = .reset :: [] :=
  ⟨{ runStart Config.examples [.reset] with busy := true }, rfl, rfl⟩

theorem witness_UnendedOperandWaitsForReset :
    (∃ s : State, s.busy = false ∧ s.host = .issueOpen 0x03#8 (.digits []) :: [] ∧
      decode 0x03#8 = .ok .decompress ∧ Instr.decompress ≠ .clear) ∧
    (∃ s t : State, s.busy = true ∧ s.host = [] ∧ step s = .next t) ∧
    (∃ s t : State, s.busy = true ∧ nextIsReset s = true ∧ step s = .next t) ∧
    ∃ s : State, s.busy = true ∧ s.host = .read .root :: [] :=
  ⟨⟨runStart Config.examples [.issueOpen 0x03#8 (.digits [])], rfl, rfl, rfl, by decide⟩,
   ⟨{ State.reset with busy := true }, _, rfl, rfl, rfl⟩,
   ⟨{ runStart Config.examples [.reset] with busy := true }, _, rfl, rfl, rfl⟩,
   ⟨{ runStart Config.examples [.read .root] with busy := true }, rfl, rfl⟩⟩

theorem witness_OnlyBuildClearResetChangeTables :
    ∃ s t : State, step s = .next t ∧ nextIsReset s = false ∧ nextWordIn [0x01#8, 0x04#8] s = false ∧
      s.host ≠ [] :=
  ⟨{ on aabc .none with host := [.issue 0x02#8 (.text [a])] }, _, rfl, rfl, rfl, by decide⟩

theorem witness_StepKeepsParameters : ∃ s t : State, step s = .next t ∧ s.host ≠ [] :=
  ⟨runStart ⟨3, some 2, some 2, true⟩ [.issue 0x01#8 (.text [7])], _, rfl, by decide⟩

theorem witness_BeyondBoundsRefused :
    (asText (.text [a, b, c]) = some [a, b, c] ∧ itemsFit ⟨8, some 2, some 2, true⟩ [a, b, c] = true ∧
      2 < [a, b, c].length) ∧
    (asDigits (.digits [true, false, true]) = some [true, false, true] ∧ 2 < [true, false, true].length) ∧
    within (some 2) [a, b].length = true ∧
    2 < ([a, b].flatMap (codeOrNothing { on aabc .none with cfg := ⟨8, some 2, some 2, true⟩ })).length := by decide

theorem witness_QueryOfOtherLengthRefused :
    asText (.digits []) = some [] ∧ ([] : List Symbol).length ≠ 1 ∧ asText (.text [a, b]) = some [a, b] ∧
    [a, b].length ≠ 1 := by decide

theorem witness_CommandsCompleteWhenAdmitted :
    WellFormed Config.examples .compress (on aabc (.text [a, z])).inp = true ∧
    within Config.examples.maxBits ((inText (on aabc (.text [a, z]))).flatMap
      (codeOrNothing (on aabc (.text [a, z])))).length = true := by decide

theorem witness_FrequencyTableProperties : itemsFit Config.examples [a, b, a] = true := by decide

theorem witness_KeyOrderIsTotalAndPacked :
    keyLt ⟨1, 4, 4⟩ ⟨2, 1, 1⟩ = true ∧ keyLt ⟨2, 1, 1⟩ ⟨2, 2, 2⟩ = true ∧ (4 : Nat) < 2 ^ 9 ∧ (1 : Nat) < 2 ^ 9 := by
  decide

theorem witness_ExtractMinTakesSmallestKey :
    ([⟨5, 0, 0⟩, ⟨2, 1, 1⟩, ⟨2, 2, 2⟩].map fun e : PqEntry => (e.freq, e.seq)).Nodup ∧
    pqTake [⟨5, 0, 0⟩, ⟨2, 1, 1⟩, ⟨2, 2, 2⟩] = some (⟨2, 1, 1⟩, [⟨5, 0, 0⟩, ⟨2, 2, 2⟩]) ∧
    ([⟨2, 2, 2⟩, ⟨5, 0, 0⟩, ⟨2, 1, 1⟩] : List PqEntry).Perm [⟨5, 0, 0⟩, ⟨2, 1, 1⟩, ⟨2, 2, 2⟩] := by decide

/-- For the first part of MergesInFrequencyOrder: the leaves of V-D1 before their first merge. -/
theorem witness_MergesInFrequencyOrder : ∃ s : State, 2 ≤ s.tr.pq.length ∧
    (s.tr.pq.map fun e => (e.freq, e.seq)).Nodup ∧ (∀ e ∈ s.tr.pq, e.id < s.per.mem.node.length) ∧
    s.tr.seq = s.per.mem.node.length :=
  ⟨{ State.reset with
      per := { Persistent.reset with mem := { Persistent.reset.mem with node := [.leaf a 2, .leaf b 1, .leaf c 1] } }
      tr := { Transient.reset with pq := [⟨1, 1, 1⟩, ⟨1, 2, 2⟩, ⟨2, 0, 0⟩], seq := 3 } },
   by decide, by decide, by decide, rfl⟩

/-- For BuildNodeCounts, MergesInFrequencyOrder, RootFrequencyIsTextLength, HeightAndCodeLengthBounds,
CodesArePathsToLeaves, CodeIsComplete, CodesPrefixFreeAndInverse, BuildFrame. -/
theorem witness_statements_after_build : ∃ s t : State, asText s.inp = some [a, a, b, c] ∧
    [a, a, b, c] ≠ [] ∧ 2 ≤ [a, a, b, c].eraseDups.length ∧ exec .build s = .next t :=
  ⟨fresh (.text [a, a, b, c]), _, rfl, by decide, by decide, rfl⟩

/-- The same statements at exactly two distinct symbols. -/
theorem witness_statements_after_build_of_two_symbols : ∃ s t : State, asText s.inp = some [a, b] ∧
    2 ≤ [a, b].eraseDups.length ∧ exec .build s = .next t ∧ t.per.nsym = 2 :=
  ⟨fresh (.text [a, b]), _, rfl, by decide, rfl, rfl⟩

/-- The same statements at one distinct symbol. -/
theorem witness_statements_after_build_of_one_symbol : ∃ s t : State, asText s.inp = some [a, a] ∧
    [a, a] ≠ [] ∧ exec .build s = .next t ∧ t.per.nsym = 1 :=
  ⟨fresh (.text [a, a]), _, rfl, by decide, rfl, rfl⟩

theorem witness_SingleLeafGetsCodeZero : (on aaaa .none).per.mem.node[(on aaaa .none).per.root]? = some (.leaf a 4) :=
  rfl

theorem witness_BuildOfTextSucceeds : ∃ s : State, asText s.inp = some [a, b] ∧ itemsFit s.cfg [a, b] = true ∧
    within s.cfg.maxText [a, b].length = true ∧ [a, b] ≠ [] :=
  ⟨{ on aabc (.text [a, b]) with cfg := ⟨8, some 2, some 2, true⟩ }, rfl, by decide, by decide, by decide⟩

theorem witness_BuildOfEmptyTextFails : asText (on aabc (.text [])).inp = some [] ∧
    ∃ v, exec .clear (on aabc .none) = .next v := ⟨rfl, _, rfl⟩

theorem witness_BuildIsFunctionOfText : ∃ s s' t t' : State, s ≠ s' ∧ asText s.inp = asText s'.inp ∧
    exec .build s = .next t ∧ exec .build s' = .next t' :=
  ⟨fresh (.text [a, b]), on aabc (.text [a, b]), _, _, by decide, rfl, rfl, rfl⟩

theorem witness_ClearLeavesNoTree :
    (∃ s t : State, s.per.valid = false ∧ emptyOk s.per ∧ s.per.status = 1#2 ∧ exec .clear s = .next t) ∧
    (∃ s t u : State, exec .clear s = .next t ∧ exec .clear t = .next u) ∧
    (∃ s t u : State, exec .clear s = .next t ∧ exec .compress { t with inp := .text [] } = .next u) ∧
    ∃ s t u : State, exec .clear s = .next t ∧ exec .decompress { t with inp := .digits [true] } = .next u :=
  ⟨⟨on { Persistent.reset with status := 1#2 } .none, _, rfl, rfl, rfl, rfl⟩, ⟨on aabc .none, _, _, rfl, rfl⟩,
   ⟨on aabc .none, _, _, rfl, rfl⟩, ⟨on aabc .none, _, _, rfl, rfl⟩⟩

theorem witness_CompressEncodesText : ∃ s : State, asText s.inp = some [a, z] ∧ itemsFit s.cfg [a, z] = true ∧
    within s.cfg.maxText [a, z].length = true ∧ s.per.valid = true ∧
    within s.cfg.maxBits ([a, z].flatMap (codeOrNothing s)).length = true :=
  ⟨{ on aabc (.text [a, z]) with cfg := ⟨8, some 2, some 1, true⟩ }, rfl, by decide, by decide, rfl, by decide⟩

theorem witness_CompressWithoutTree : ∃ s : State, asText s.inp = some [] ∧ itemsFit s.cfg [] = true ∧
    within s.cfg.maxText ([] : List Symbol).length = true ∧ s.per.valid = false :=
  ⟨fresh (.digits []), rfl, rfl, rfl, rfl⟩

theorem witness_CompressedLengthBounds : ∃ s t : State, s.Inv ∧ s.per.valid = true ∧ exec .compress s = .next t :=
  ⟨on aabc (.text [c, z]), _, by decide, rfl, rfl⟩

theorem witness_OwnTextBitCount : ∃ s t u : State, asText s.inp = some [a, b] ∧ [a, b] ≠ [] ∧
    exec .build s = .next t ∧ exec .compress { t with inp := .text [a, b] } = .next u :=
  ⟨fresh (.text [a, b]), _, _, rfl, by decide, rfl, rfl⟩

theorem witness_RoundTripReturnsMappedText : (on aabc .none).Inv ∧ (on aabc .none).per.valid = true ∧
    itemsFit (on aabc .none).cfg [c, z, a] = true ∧ within (on aabc .none).cfg.maxText [c, z, a].length = true ∧
    within (on aabc .none).cfg.maxBits ([c, z, a].flatMap (codeOrNothing (on aabc .none))).length = true ∧
    isMapped (on aabc .none) c = true := by decide

theorem witness_DigitStepMatchesExactly :
    decFind ((on aabc .none).tr.buf ++ [false]) (on aabc .none) = some a ∧
    decFind ((on aabc .none).tr.buf ++ [true]) (on aabc .none) = none := by decide

theorem witness_DecompressRunsDecoder : ∃ s : State, asDigits s.inp = some [false, true] ∧
    within s.cfg.maxBits [false, true].length = true ∧ s.per.valid = true :=
  ⟨{ on aabc (.digits [false, true]) with cfg := ⟨8, some 2, some 2, true⟩ }, rfl, by decide, rfl⟩

theorem witness_DecompressWithoutTree : ∃ s : State, asDigits s.inp = some [] ∧
    within s.cfg.maxBits ([] : List Digit).length = true ∧ s.per.valid = false :=
  ⟨fresh (.digits []), rfl, rfl, rfl⟩

theorem witness_CodesDecodeToTheirSymbols :
    (on aabc (.digits [true, true, false])).Inv ∧ (∀ x ∈ [c, a], isMapped (on aabc .none) x = true) ∧
    asDigits (on aabc (.digits [true, true, false])).inp =
      some ([c, a].flatMap (codeOrNothing (on aabc (.digits [true, true, false])))) := by decide

theorem witness_DecoderLosesNoDigit : ∃ s t : State, s.Inv ∧ s.per.valid = true ∧
    asDigits s.inp = some [false, true] ∧ exec .decompress s = .next t :=
  ⟨on aabc (.digits [false, true]), _, by decide, rfl, rfl, rfl⟩

theorem witness_BufferStaysBelowHeight :
    (∃ s t : State, s.Inv ∧ s.per.valid = true ∧ 2 ≤ s.per.nsym ∧ exec .decompress s = .next t ∧ t.tr.buf ≠ []) ∧
    ∃ s t : State, s.Inv ∧ s.per.valid = true ∧ s.per.nsym = 1 ∧ exec .decompress s = .next t ∧ t.tr.buf ≠ [] :=
  ⟨⟨on aabc (.digits [true]), _, by decide, rfl, by decide, rfl, by decide⟩,
   ⟨on aaaa (.digits [true]), _, by decide, rfl, rfl, rfl, by decide⟩⟩

theorem witness_BoundedBufferSuffices : (on aabc .none).Inv ∧ (on aaaa .none).Inv ∧
    max (on aabc .none).per.height 1 ≤ 2 ∧ max (on aaaa .none).per.height 1 ≤ 1 :=
  ⟨by decide, by decide, by decide, by decide⟩

theorem witness_BuildFitsWidths : ∃ s t : State, exec .build s = .next t ∧ s.cfg.wf = true ∧
    s.cfg.freqW = some (Nat.clog 2 3) ∧ t.per.nsym = s.cfg.nMax :=
  ⟨{ fresh (.text [0, 1]) with cfg := ⟨1, some 2, none, true⟩ }, _, rfl, rfl, rfl, rfl⟩

theorem witness_QcodeAnswersCode : (on aabc .none).Inv ∧ encFind b (on aabc .none) = some [true, false] := by decide

/-- For QfreqAnswersCount, QcodeAnswersCode, QmemberAnswersMembership. -/
theorem witness_queries : ∃ s t u : State, asText s.inp = some [255] ∧ symbolFits s.cfg 255 = true ∧
    s.per.valid = true ∧ exec .qmember s = .next t ∧ exec .compress s = .next u :=
  ⟨on aabc (.text [255]), _, _, rfl, by decide, rfl, rfl, rfl⟩

theorem witness_QfreqCountsBuiltText : ∃ s t u : State, asText s.inp = some [a, b, a] ∧ exec .build s = .next t ∧
    exec .qfreq { t with inp := .text [a] } = .next u := ⟨fresh (.text [a, b, a]), _, _, rfl, rfl, rfl⟩

theorem witness_PackedCodeBits : (1 : Nat) < ([true, false] : Code).length ∧
    ([false, true] : Code).length = ([false, true] : Code).length ∧
    packedBits [false, true] = packedBits [false, true] := by decide

theorem witness_QueriesChangeNothing :
    (∃ s t : State, exec .qcode s = .next t) ∧
    ∃ s t u v : State, s.Inv ∧ s.per.valid = false ∧ exec .qfreq s = .next t ∧ exec .qcode s = .next u ∧
      exec .qmember s = .next v :=
  ⟨⟨on aabc (.text [a]), _, rfl⟩, ⟨fresh (.text [a]), _, _, _, by decide, rfl, rfl, rfl, rfl⟩⟩

theorem witness_RatioFormula : 1 ≤ ({ aabc with symcount := 1 } : Persistent).symcount := by decide

theorem witness_RatioCorners : aabc.symcount = 0 ∧
    (∃ q, ratio { aabc with symcount := 1, bitcount := 9 } = some q) ∧
    ∃ q, ratio { aabc with symcount := 8, bitcount := 8 } = some q := ⟨rfl, ⟨_, rfl⟩, ⟨_, rfl⟩⟩

theorem witness_OutcomeOfEveryCommand :
    (∃ s t, exec .build s = .next t ∧ inText s = []) ∧ (∃ s t, exec .build s = .next t ∧ inText s = [a]) ∧
    (∃ s t, exec .compress s = .next t ∧ s.per.valid = false) ∧
    (∃ s t, exec .decompress s = .next t ∧ s.per.valid = true ∧ t.tr.buf = [true]) ∧
    (∃ s t, exec .clear s = .next t) ∧ ∃ s t, exec .qfreq s = .next t :=
  ⟨⟨fresh (.text []), _, rfl, rfl⟩, ⟨fresh (.text [a]), _, rfl, rfl⟩, ⟨fresh (.text [a]), _, rfl, rfl⟩,
   ⟨on aabc (.digits [true]), _, rfl, rfl, rfl⟩, ⟨on aabc .none, _, rfl⟩, ⟨on aabc (.text [a]), _, rfl⟩⟩

theorem witness_NoTreeMeansEmptyState :
    ∃ s t : State, (s.busy = false → s.per.valid = false → emptyOk s.per) ∧
    step s = .next t ∧ t.busy = false ∧ t.per.valid = false ∧ s.per.valid = true :=
  ⟨{ on aabc .none with host := [.issue 0x04#8 .none] }, _, by decide, rfl, rfl, rfl, rfl⟩

theorem witness_StepKeepsInvariant : ∃ s t : State, s.Inv ∧ s.per.mem.wf ∧ step s = .next t ∧ s.host ≠ [] :=
  ⟨{ on aabc .none with host := [.issue 0x01#8 (.text [b, a])] }, _, by decide, by decide, rfl, by decide⟩

theorem witness_SmallStepsReachCommandResult : ∃ s t : State, ∃ m : Micro, exec .build s = .next t ∧
    1 < microCount .build s t ∧ microRun 1 (microStart .build s) = .ok m :=
  ⟨fresh (.text [a, b]), _, _, rfl, by decide, rfl⟩

end Sys2Proof.Tests
end

/-! ### The scope of the machine: the parameters, the admitted operands, the widths (00_scope.md) -/

namespace Sys2Proof.Machine

/-! #### Frames of the stages of BUILD -/

/-- The FT loop writes FT and NSYM alone (rule R132). -/
theorem ftLoop_frame (text : List Symbol) (s : State) :
    text.foldl ftStep s = { s with per := { s.per with
      nsym := (text.foldl ftStep s).per.nsym
      mem := { s.per.mem with ft := (text.foldl ftStep s).per.mem.ft } } } := by
  induction text generalizing s with
  | nil => rfl
  | cons x xs ih =>
    have hxs := ih (ftStep s x)
    have hx := ftStep_frame s x
    rw [List.foldl_cons]
    generalize xs.foldl ftStep (ftStep s x) = t at hxs ⊢
    rw [hxs, hx]

/-- The FT stage writes FT and NSYM alone (rule R132). -/
theorem ftStage_frame (text : List Symbol) (s : State) :
    ftStage text s = { s with per := { s.per with
      nsym := (ftStage text s).per.nsym
      mem := { s.per.mem with ft := (ftStage text s).per.mem.ft } } } :=
  ftLoop_frame text (ftClear s)

/-- `t` is `s` but for what the loops of the HTB stage write: NODE, PQ and SEQ. -/
def SameButNodePq (s t : State) : Prop :=
  t = { s with
    per := { s.per with mem := { s.per.mem with node := t.per.mem.node } }
    tr := { s.tr with pq := t.tr.pq, seq := t.tr.seq } }

theorem SameButNodePq.trans {s t u : State} (hst : SameButNodePq s t) (htu : SameButNodePq t u) :
    SameButNodePq s u := by
  unfold SameButNodePq at *
  rw [htu, hst]

theorem seedStep_frame (s : State) (e : FtEntry) : SameButNodePq s (seedStep s e) := rfl

/-- The seed step writes NODE, PQ and SEQ alone (rule R141). -/
theorem seedLoop_frame (es : List FtEntry) (s : State) : SameButNodePq s (es.foldl seedStep s) := by
  induction es generalizing s with
  | nil => rfl
  | cons e es ih => exact (seedStep_frame s e).trans (ih _)

theorem pqExtract_frame {s s1 : State} {e : PqEntry} (h : pqExtract s = some (e, s1)) : SameButNodePq s s1 := by
  obtain ⟨rest, -, rfl⟩ := pqExtract_spec h
  rfl

theorem mergeNodes_frame {a b : PqEntry} {s t : State} (h : mergeNodes a b s = .ok t) : SameButNodePq s t := by
  obtain ⟨va, vb, -, -, rfl⟩ := mergeNodes_cases h
  rfl

theorem mergeStep_frame {s t : State} (h : mergeStep s = .ok t) : SameButNodePq s t := by
  obtain ⟨a, b, s1, s2, ha, hb, hm⟩ := mergeStep_cases h
  exact ((pqExtract_frame ha).trans (pqExtract_frame hb)).trans (mergeNodes_frame hm)

/-- The two cases of a merge loop that does not fault: the end, or one merge and the rest (rule R144). -/
theorem mergeLoop_cases {k : Nat} {s t : State} (h : mergeLoop (k + 1) s = .ok t) :
    (s.tr.pq.length ≤ 1 ∧ t = s) ∨
    (1 < s.tr.pq.length ∧ ∃ s1, mergeStep s = .ok s1 ∧ mergeLoop k s1 = .ok t) := by
  rw [mergeLoop_succ] at h
  split at h
  · next hl =>
    split at h
    · cases h
    · next s1 h1 => exact .inr ⟨hl, s1, h1, h⟩
  · next hl => cases h; exact .inl ⟨Nat.not_lt.1 hl, rfl⟩

theorem mergeLoop_frame {k : Nat} {s t : State} (h : mergeLoop k s = .ok t) : SameButNodePq s t := by
  induction k generalizing s with
  | zero => cases h; rfl
  | succ k ih =>
    obtain ⟨-, rfl⟩ | ⟨-, s1, h1, h2⟩ := mergeLoop_cases h
    · rfl
    · exact (mergeStep_frame h1).trans (ih h2)

/-- The HTB stage writes NODE, NODECOUNT, ROOT, PQ and SEQ alone (rule R147). -/
theorem htbStage_frame {s t : State} (h : htbStage s = .ok t) :
    t = { s with
      per := { s.per with
        nodecount := t.per.nodecount, root := t.per.root, mem := { s.per.mem with node := t.per.mem.node } }
      tr := { s.tr with pq := t.tr.pq, seq := t.tr.seq } } := by
  obtain ⟨-, s1, hloop, hroot⟩ := htbStage_cases h
  obtain ⟨r, -, rfl⟩ := takeRoot_cases hroot
  have hs1 : SameButNodePq (pqClear s) s1 := (seedLoop_frame _ _).trans (mergeLoop_frame hloop)
  unfold SameButNodePq at hs1
  rw [hs1]
  rfl

/-- The CA stage writes ENC, DEC, HEIGHT, PATH and the walker's stack alone (rule R165). -/
theorem caStage_frame {s t : State} (h : caStage s = .ok t) :
    t = { s with
      per := { s.per with
        height := t.per.height, mem := { s.per.mem with enc := t.per.mem.enc, dec := t.per.mem.dec } }
      tr := { s.tr with path := t.tr.path, stack := t.tr.stack } } := by
  obtain ⟨x, f, -, rfl⟩ | ⟨f, l, r, -, hwalk⟩ := caStage_cases h
  · rfl
  · rw [walk_frame hwalk]
    rfl

/-! #### No step changes the parameters (rule R20) -/

theorem buildStages_cfg {text : List Symbol} {s t : State} (h : buildStages text s = .ok t) : t.cfg = s.cfg := by
  obtain ⟨s1, hhtb, hca⟩ := buildStages_cases h
  rw [caStage_frame hca, htbStage_frame hhtb, ftStage_frame]

theorem execBuild_cfg {s t : State} (h : execBuild s = .next t) : t.cfg = s.cfg := by
  obtain ⟨text, -, ⟨-, rfl⟩ | ⟨-, s1, hstages, rfl⟩⟩ := execBuild_cases h
  · rfl
  · simpa [buildDone, respondBuild] using buildStages_cfg hstages

theorem execCompress_cfg {s t : State} (h : execCompress s = .next t) : t.cfg = s.cfg := by
  obtain ⟨text, -, ⟨-, rfl⟩ | ⟨-, rfl, -⟩⟩ := execCompress_cases h
  · rfl
  · rw [compressLoop_eq]
    rfl

theorem decompressDigits_cfg (bits : List Digit) (s : State) : (decompressDigits bits s).cfg = s.cfg := by
  unfold decompressDigits decompressEnd
  split
  · rw [digitLoop_eq]
    split <;> rfl
  · rfl

theorem execDecompress_cfg {s t : State} (h : execDecompress s = .next t) : t.cfg = s.cfg := by
  obtain ⟨bits, -, rfl⟩ := execDecompress_cases h
  exact decompressDigits_cfg bits (startCommand s)

theorem query_cfg {answer : Symbol → State → Response} {s t : State} (h : query answer s = .next t) :
    t.cfg = s.cfg := by
  obtain ⟨x, -, rfl⟩ := query_cases h
  rfl

/-- No command changes the parameters. -/
theorem exec_cfg {i : Instr} {s t : State} (h : exec i s = .next t) : t.cfg = s.cfg := by
  cases i with
  | build => exact execBuild_cfg h
  | compress => exact execCompress_cfg h
  | decompress => exact execDecompress_cfg h
  | clear => cases h; rfl
  | qfreq => exact query_cfg (answer := fun x s => .qfreq (freqAnswer x s)) h
  | qcode => exact query_cfg (answer := codeAnswer) h
  | qmember => exact query_cfg (answer := memberAnswer) h

/-- No host action that runs no command changes the parameters. -/
theorem fetch_stay_cfg {s t : State} (h : fetch s = .stay t) : t.cfg = s.cfg := by
  obtain ⟨-, rfl⟩ | ⟨_, -, rfl⟩ | ⟨_, _, -, -, -, rfl⟩ | ⟨_, _, _, _, -, -, -, -, rfl⟩ := fetch_stay_cases h <;> rfl

/-- Settles O10: a step runs a command on the accepted state or none, and neither changes the parameters. -/
theorem stepKeepsParameters : Obligations.StepKeepsParameters := by
  intro s t h
  obtain ⟨i, s1, hrun, hexec⟩ | hstay := step_cases h
  · obtain ⟨-, w, op, rest, -, -, rfl⟩ := fetch_run_cases hrun
    simpa using exec_cfg hexec
  · exact fetch_stay_cfg hstay

/-! #### The admitted operands (rule R7) -/

theorem within_eq_false {bound : Option Nat} {m n : Nat} (hb : bound = some m) (hn : m < n) :
    within bound n = false := by
  subst hb
  simpa [within] using hn

theorem textOperand_tooLong {c : Config} {op : Operand} {t : List Symbol} (ht : asText op = some t)
    (hfit : itemsFit c t = true) (hlen : within c.maxText t.length = false) :
    textOperand c op = .error .operandTooLong := by
  simp [textOperand, ht, hfit, hlen]

theorem digitsOperand_tooLong {c : Config} {op : Operand} {b : List Digit} (hb : asDigits op = some b)
    (hlen : within c.maxBits b.length = false) : digitsOperand c op = .error .operandTooLong := by
  simp [digitsOperand, hb, hlen]

theorem execBuild_refused {s : State} {r : Refusal} (h : textOperand s.cfg s.inp = .error r) :
    execBuild s = .refused r := by
  simp [execBuild, h]

theorem execCompress_refused {s : State} {r : Refusal} (h : textOperand s.cfg s.inp = .error r) :
    execCompress s = .refused r := by
  simp [execCompress, h]

theorem execDecompress_refused {s : State} {r : Refusal} (h : digitsOperand s.cfg s.inp = .error r) :
    execDecompress s = .refused r := by
  simp [execDecompress, h]

/-- BITCOUNT after the encoder's loop is the length of the result (rule R194). -/
theorem compressLoop_bitcount (text : List Symbol) (s : State) :
    (text.foldl compressStep (zeroStats (startCommand s))).per.bitcount =
      (text.flatMap (codeOrNothing s)).length := by
  have hcode : codeOrNothing (zeroStats (startCommand s)) = codeOrNothing s := rfl
  rw [compressLoop_eq, hcode]
  exact Nat.zero_add _

/-- A COMPRESS with a tree whose result is longer than MAX_BITS is refused. -/
theorem execCompress_resultTooLong {s : State} {text : List Symbol} (ht : textOperand s.cfg s.inp = .ok text)
    (hvalid : s.per.valid = true) (hres : within s.cfg.maxBits (text.flatMap (codeOrNothing s)).length = false) :
    execCompress s = .refused .resultTooLong := by
  simp only [execCompress, ht, compressText, startCommand_per, hvalid, if_true, startCommand_cfg,
    compressLoop_bitcount, hres, Bool.false_eq_true, if_false]

/-- Settles O11: the operand forms refuse what is too long, before the VALID test; and BITCOUNT is the length of the
result. -/
theorem beyondBoundsRefused : Obligations.BeyondBoundsRefused := by
  refine ⟨fun s text m ht hfit hm hlen => ?_, fun s bits m hb hm hlen => ?_,
    fun s text m ht hfit hlen hvalid hm hres => ?_⟩
  · have hop := textOperand_tooLong ht hfit (within_eq_false hm hlen)
    exact ⟨execBuild_refused hop, execCompress_refused hop⟩
  · exact execDecompress_refused (digitsOperand_tooLong hb (within_eq_false hm hlen))
  · exact execCompress_resultTooLong (textOperand_ok.2 ⟨ht, hfit, hlen⟩) hvalid (within_eq_false hm hres)

/-! #### The fetch of a command word (rules R63, R280) -/

theorem operandKindOf_eq_none {i : Instr} : operandKindOf i = .none ↔ i = .clear := by
  cases i <;> simp [operandKindOf]

section
variable {s : State} {w : CommandWord} {op : Operand} {rest : List HostAction} {i : Instr}

/-- A legal word with its operand runs its command, CLEAR only when no item was sent. -/
theorem fetchWhole_eq_run (hbusy : s.busy = false) (hdec : decode w = .ok i)
    (hclear : i = .clear → noItems op = true) : fetchWhole w op rest s = .run i (accept op rest s) := by
  have hkind : operandKindOf i = .none → noItems op = true := fun h => hclear (operandKindOf_eq_none.1 h)
  simpa [fetchWhole, legalWord_ok.2 ⟨hbusy, hdec⟩] using hkind

/-- CLEAR sent with items is refused (log entry 7). -/
theorem fetchWhole_clear_refuse (hbusy : s.busy = false) (hdec : decode w = .ok .clear)
    (hitems : noItems op = false) : fetchWhole w op rest s = .refuse .operandKind := by
  simp [fetchWhole, legalWord_ok.2 ⟨hbusy, hdec⟩, operandKindOf, hitems]

/-- CLEAR does not wait for the end of an operand (rule R63). -/
theorem fetchOpen_clear (hbusy : s.busy = false) (hdec : decode w = .ok .clear) :
    fetchOpen w op rest s = fetchWhole w op rest s := by
  simp [fetchOpen, legalWord_ok.2 ⟨hbusy, hdec⟩, operandKindOf]

theorem fetch_issue (h : s.host = .issue w op :: rest) : fetch s = fetchWhole w op rest s := by
  simp [fetch, h]

theorem fetch_issueOpen_clear (h : s.host = .issueOpen w op :: rest) (hbusy : s.busy = false)
    (hdec : decode w = .ok .clear) : fetch s = fetchWhole w op rest s := by
  simp [fetch, h, fetchOpen_clear hbusy hdec]

end

theorem step_of_run {s s1 : State} {i : Instr} (h : fetch s = .run i s1) : step s = exec i s1 := by
  simp [step, h]

theorem step_of_refuse {s : State} {r : Refusal} (h : fetch s = .refuse r) : step s = .refused r := by
  simp [step, h]

/-- Settles O4: every word in question is fetched as one with its whole operand, which runs the command on the accepted
state, and CLEAR with items is refused there. -/
theorem stepRunsDecodedCommand : Obligations.StepRunsDecodedCommand := by
  constructor
  · intro s w op rest i hbusy hdec hclear hhost
    have hfetch : fetch s = fetchWhole w op rest s := by
      obtain hissue | ⟨rfl, hopen⟩ := hhost
      · exact fetch_issue hissue
      · exact fetch_issueOpen_clear hopen hbusy hdec
    exact step_of_run (hfetch.trans (fetchWhole_eq_run hbusy hdec hclear))
  · intro s w op rest hbusy hdec hitems hhost
    have hfetch : fetch s = fetchWhole w op rest s := by
      obtain hissue | hopen := hhost
      · exact fetch_issue hissue
      · exact fetch_issueOpen_clear hopen hbusy hdec
    exact step_of_refuse (hfetch.trans (fetchWhole_clear_refuse hbusy hdec hitems))

/-! #### The frequency table of a text (rule R131) -/

theorem eraseDups_concat (text : List Symbol) (x : Symbol) :
    (text ++ [x]).eraseDups = if x ∈ text then text.eraseDups else text.eraseDups ++ [x] := by
  rw [List.eraseDups_append]
  split
  · next hx => simp [List.removeAll, hx]
  · next hx => simp [List.removeAll, hx, List.eraseDups_cons]

theorem nodup_eraseDups (text : List Symbol) : text.eraseDups.Nodup := by
  induction text using List.reverseRecOn with
  | nil => simp
  | append_singleton text x ih =>
    rw [eraseDups_concat]
    split
    · exact ih
    · next hx => exact List.nodup_append.2 ⟨ih, by simp, by simpa using fun y hy (h : y = x) => hx (h ▸ hy)⟩

/-- The table of a text: its distinct symbols in order of first occurrence, each with its number of positions. -/
def tableOf (text : List Symbol) : List FtEntry :=
  text.eraseDups.map fun x => { sym := x, count := text.count x }

theorem tableOf_map_sym (text : List Symbol) : (tableOf text).map FtEntry.sym = text.eraseDups := by
  simp [tableOf, Function.comp_def]

theorem length_tableOf (text : List Symbol) : (tableOf text).length = text.eraseDups.length := by
  simp [tableOf]

/-- The counts of the table of a text add up to its length (rule R133). -/
theorem sum_count_tableOf (text : List Symbol) : ((tableOf text).map FtEntry.count).sum = text.length := by
  have hperm : text.eraseDups.Perm text.dedup :=
    (List.perm_ext_iff_of_nodup (nodup_eraseDups text) text.nodup_dedup).2 fun x => by
      rw [List.mem_eraseDups, List.mem_dedup]
  rw [← List.sum_map_count_dedup_eq_length text, tableOf, List.map_map]
  exact (hperm.map _).sum_eq

/-- A further occurrence of a symbol that has an entry raises that entry's count alone. -/
theorem tableOf_concat_mem {text : List Symbol} {x : Symbol} {i : Nat} (hi : text.eraseDups[i]? = some x) :
    tableOf (text ++ [x]) = (tableOf text).modify i fun e => { e with count := e.count + 1 } := by
  have hx : x ∈ text := List.mem_eraseDups.1 (List.mem_of_getElem? hi)
  apply List.ext_getElem?
  intro j
  simp only [tableOf, eraseDups_concat, if_pos hx, List.getElem?_modify, List.getElem?_map]
  cases hj : text.eraseDups[j]? with
  | none => simp
  | some y =>
    have hij : i = j ↔ y = x := by
      constructor
      · rintro rfl
        rw [hi] at hj
        exact (Option.some.inj hj).symm
      · rintro rfl
        exact (List.getElem?_inj (List.getElem?_eq_some_iff.1 hi).1 (nodup_eraseDups text)).1 (hi.trans hj.symm)
    by_cases hyx : y = x
    · simp [hyx, hij.2 hyx]
    · simp [hyx, hij, List.count_singleton, Ne.symm hyx]

/-- The first occurrence of a symbol appends an entry of count 1. -/
theorem tableOf_concat_not_mem {text : List Symbol} {x : Symbol} (hx : x ∉ text) :
    tableOf (text ++ [x]) = tableOf text ++ [{ sym := x, count := 1 }] := by
  have hold : ∀ y ∈ text.eraseDups, (text ++ [x]).count y = text.count y := fun y hy => by
    have hne : x ≠ y := fun h => hx (h ▸ List.mem_eraseDups.1 hy)
    simp [hne]
  simp only [tableOf, eraseDups_concat, if_neg hx, List.map_append, List.map_singleton]
  rw [List.map_congr_left fun y hy => by rw [hold y hy]]
  simp [List.count_eq_zero.2 hx]

/-- FT holds the table of the text visited so far, and NSYM its number of entries. -/
def HoldsTable (text : List Symbol) (s : State) : Prop :=
  s.per.mem.ft = tableOf text ∧ s.per.nsym = (tableOf text).length

theorem ftStep_holdsTable {text : List Symbol} {s : State} (h : HoldsTable text s) (x : Symbol) :
    HoldsTable (text ++ [x]) (ftStep s x) := by
  obtain ⟨hft, hnsym⟩ := h
  obtain ⟨hnone, he⟩ | ⟨i, hsome, he⟩ := ftStep_cases s x
  · have hx : x ∉ text := by
      rw [← List.mem_eraseDups, ← tableOf_map_sym, ← hft]
      simpa [ftFind] using hnone
    simp [HoldsTable, he, hft, hnsym, tableOf_concat_not_mem hx]
  · have hi : text.eraseDups[i]? = some x := by
      rw [← tableOf_map_sym, ← hft, List.getElem?_map]
      obtain ⟨hlt, hsym, -⟩ := List.findIdx?_eq_some_iff_getElem.1 hsome
      simpa [List.getElem?_eq_getElem hlt] using hsym
    simp [HoldsTable, he, hft, hnsym, tableOf_concat_mem hi]

/-- The FT stage leaves the table of the text (rule R131). -/
theorem ftStage_holdsTable (text : List Symbol) (s : State) : HoldsTable text (ftStage text s) := by
  induction text using List.reverseRecOn with
  | nil => exact ⟨rfl, rfl⟩
  | append_singleton text x ih =>
    rw [ftStage, List.foldl_append]
    exact ftStep_holdsTable ih x

/-- A text of symbols of SYM_W bits has at most N_MAX distinct ones (rule R8). -/
theorem length_tableOf_le_nMax {c : Config} {text : List Symbol} (hfit : itemsFit c text = true) :
    (tableOf text).length ≤ c.nMax := by
  have hsub : text.eraseDups ⊆ List.range c.nMax := fun x hx => by
    have hx' := List.all_eq_true.1 hfit x (List.mem_eraseDups.1 hx)
    exact List.mem_range.2 (by simpa [symbolFits] using hx')
  rw [length_tableOf]
  simpa using ((nodup_eraseDups text).subperm hsub).length_le

/-! #### The trees the HTB stage grows in NODE -/

/-- A tree over FT entries: what a NODE entry and those below it stand for. -/
inductive HTree where
  | leaf (e : FtEntry)
  | branch (l r : HTree)

/-- The leaves, from left to right. -/
def HTree.leaves : HTree → List FtEntry
  | .leaf e => [e]
  | .branch l r => l.leaves ++ r.leaves

/-- The frequency of a tree: the sum of its leaves' counts. -/
def HTree.freq (T : HTree) : Nat := (T.leaves.map FtEntry.count).sum

/-- NODE holds the tree at the id. -/
def Carries (node : List TreeNode) : Nat → HTree → Prop
  | id, .leaf e => node[id]? = some (.leaf e.sym e.count)
  | id, .branch l r => ∃ a b, node[id]? = some (.internal (l.freq + r.freq) a b) ∧ Carries node a l ∧ Carries node b r

theorem HTree.leaves_length_pos (T : HTree) : 1 ≤ T.leaves.length := by
  induction T with
  | leaf e => exact le_rfl
  | branch l r ihl ihr => simp only [HTree.leaves, List.length_append]; omega

@[simp] theorem HTree.freq_branch (l r : HTree) : (HTree.branch l r).freq = l.freq + r.freq := by
  simp [HTree.freq, HTree.leaves]

/-- The entry of a tree's root holds its frequency. -/
theorem Carries.root {node : List TreeNode} {id : Nat} {T : HTree} (h : Carries node id T) :
    ∃ v, node[id]? = some v ∧ nodeFreq v = T.freq := by
  cases T with
  | leaf e => exact ⟨_, h, by simp [nodeFreq, HTree.freq, HTree.leaves]⟩
  | branch l r =>
    obtain ⟨a, b, hid, -, -⟩ := h
    exact ⟨_, hid, (HTree.freq_branch l r).symm⟩

theorem Carries.nodeFreq_eq {node : List TreeNode} {id : Nat} {T : HTree} {v : TreeNode} (h : Carries node id T)
    (hv : node[id]? = some v) : nodeFreq v = T.freq := by
  obtain ⟨u, hu, hfreq⟩ := h.root
  rw [hv] at hu
  rwa [Option.some.inj hu]

theorem Carries.lt_length {node : List TreeNode} {id : Nat} {T : HTree} (h : Carries node id T) :
    id < node.length := by
  obtain ⟨v, hv, -⟩ := h.root
  exact (List.getElem?_eq_some_iff.1 hv).1

/-- A tree stays when an entry is appended. -/
theorem Carries.append {node : List TreeNode} {id : Nat} {T : HTree} (h : Carries node id T) (v : TreeNode) :
    Carries (node ++ [v]) id T := by
  induction T generalizing id with
  | leaf e => exact (List.getElem?_append_left h.lt_length).trans h
  | branch l r ihl ihr =>
    have hlt := h.lt_length
    obtain ⟨a, b, hid, hl, hr⟩ := h
    exact ⟨a, b, (List.getElem?_append_left hlt).trans hid, ihl hl, ihr hr⟩

/-- The entries of PQ stand for trees whose leaves, taken together, are the FT entries `es`. -/
def Forest (node : List TreeNode) : List PqEntry → List FtEntry → Prop
  | [], es => es = []
  | e :: q, es => ∃ T es', Carries node e.id T ∧ Forest node q es' ∧ (T.leaves ++ es').Perm es

theorem Forest.perm_leaves {node : List TreeNode} {q : List PqEntry} {es es' : List FtEntry} (h : Forest node q es)
    (hes : es.Perm es') : Forest node q es' := by
  cases q with
  | nil =>
    cases h
    exact hes.nil_eq.symm
  | cons e q =>
    obtain ⟨T, es₁, hT, hq, hperm⟩ := h
    exact ⟨T, es₁, hT, hq, hperm.trans hes⟩

/-- The order in which PQ is held does not matter. -/
theorem Forest.perm_queue {node : List TreeNode} {q q' : List PqEntry} (hq : q.Perm q') {es : List FtEntry}
    (h : Forest node q es) : Forest node q' es := by
  induction hq generalizing es with
  | nil => exact h
  | cons e _ ih =>
    obtain ⟨T, es₁, hT, hrest, hperm⟩ := h
    exact ⟨T, es₁, hT, ih hrest, hperm⟩
  | swap a b q =>
    obtain ⟨T, es₁, hT, ⟨U, es₂, hU, hrest, hperm₂⟩, hperm₁⟩ := h
    exact ⟨U, T.leaves ++ es₂, hU, ⟨T, es₂, hT, hrest, List.Perm.refl _⟩,
      (List.perm_append_comm_assoc ..).trans ((hperm₂.append_left _).trans hperm₁)⟩
  | trans _ _ ih₁ ih₂ => exact ih₂ (ih₁ h)

theorem Forest.append {node : List TreeNode} {q : List PqEntry} {es : List FtEntry} (h : Forest node q es)
    (v : TreeNode) : Forest (node ++ [v]) q es := by
  induction q generalizing es with
  | nil => exact h
  | cons e q ih =>
    obtain ⟨T, es', hT, hq, hperm⟩ := h
    exact ⟨T, es', hT.append v, ih hq, hperm⟩

theorem Forest.insert {node : List TreeNode} {q : List PqEntry} {es : List FtEntry} (h : Forest node q es)
    {e : PqEntry} {T : HTree} (hT : Carries node e.id T) : Forest node (pqAdd e q) (T.leaves ++ es) :=
  Forest.perm_queue (pqAdd_perm e q).symm ⟨T, es, hT, h, List.Perm.refl _⟩

theorem Forest.take {node : List TreeNode} {q rest : List PqEntry} {es : List FtEntry} {e : PqEntry}
    (h : Forest node q es) (htake : pqTake q = some (e, rest)) :
    ∃ T es', Carries node e.id T ∧ Forest node rest es' ∧ (T.leaves ++ es').Perm es :=
  Forest.perm_queue (pqTake_spec htake).1 h

/-- What holds between the steps of the HTB stage when `es` are the FT entries seeded so far (rules R149, R150). -/
structure HtbInv (es : List FtEntry) (s : State) : Prop where
  seq_eq : s.tr.seq = s.per.mem.node.length
  node_add_pq : s.per.mem.node.length + s.tr.pq.length = 2 * es.length
  forest : Forest s.per.mem.node s.tr.pq es
  freq_le : ∀ v ∈ s.per.mem.node, nodeFreq v ≤ (es.map FtEntry.count).sum

theorem nodeWrite_node_of_fresh {i : Nat} {s : State} (v : TreeNode) (h : i = s.per.mem.node.length) :
    (nodeWrite i v s).per.mem.node = s.per.mem.node ++ [v] := by
  simp [h]

theorem pqClear_htbInv {s : State} (h : s.per.mem.node = []) : HtbInv [] (pqClear s) :=
  ⟨by simp [h], by simp [h], by simp [Forest], by simp [h]⟩

/-- Seeding an entry adds a Leaf to NODE and a tree of one leaf to PQ (rule R141). -/
theorem seedStep_htbInv {es : List FtEntry} {s : State} (h : HtbInv es s) (e : FtEntry) :
    HtbInv (es ++ [e]) (seedStep s e) := by
  have hnode : (seedStep s e).per.mem.node = s.per.mem.node ++ [.leaf e.sym e.count] :=
    nodeWrite_node_of_fresh _ h.seq_eq
  have hpq : (seedStep s e).tr.pq = pqAdd ⟨e.count, s.tr.seq, s.tr.seq⟩ s.tr.pq := rfl
  have hseq : (seedStep s e).tr.seq = s.tr.seq + 1 := rfl
  have hcarries : Carries (seedStep s e).per.mem.node s.tr.seq (.leaf e) := by
    simp [Carries, hnode, h.seq_eq]
  refine ⟨by simp [hseq, hnode, h.seq_eq], ?_, ?_, ?_⟩
  · have := h.node_add_pq
    simp only [hnode, hpq, pqAdd_length, List.length_append, List.length_singleton]
    omega
  · have hforest := Forest.insert (e := ⟨e.count, s.tr.seq, s.tr.seq⟩) (hnode ▸ h.forest.append _) hcarries
    rw [hpq]
    exact hforest.perm_leaves List.perm_append_comm
  · intro v hv
    rw [hnode, List.mem_append, List.mem_singleton] at hv
    simp only [List.map_append, List.sum_append, List.map_singleton, List.sum_singleton]
    obtain hv | rfl := hv
    · exact le_add_right (h.freq_le v hv)
    · exact Nat.le_add_left _ _

theorem seedLoop_htbInv {es : List FtEntry} {s : State} (h : HtbInv es s) (fs : List FtEntry) :
    HtbInv (es ++ fs) (fs.foldl seedStep s) := by
  induction fs generalizing es s with
  | nil => simpa using h
  | cons f fs ih => simpa using ih (seedStep_htbInv h f)

/-- What a merge step that does not fault does to NODE, PQ and SEQ (rules R145, R146). -/
theorem mergeStep_spec {s t : State} (h : mergeStep s = .ok t) (hseq : s.tr.seq = s.per.mem.node.length) :
    ∃ a b q₁ q₂ va vb, pqTake s.tr.pq = some (a, q₁) ∧ pqTake q₁ = some (b, q₂) ∧
      s.per.mem.node[a.id]? = some va ∧ s.per.mem.node[b.id]? = some vb ∧
      t.per.mem.node = s.per.mem.node ++ [.internal (nodeFreq va + nodeFreq vb) a.id b.id] ∧
      t.tr.pq = pqAdd ⟨nodeFreq va + nodeFreq vb, s.tr.seq, s.tr.seq⟩ q₂ ∧ t.tr.seq = s.tr.seq + 1 := by
  obtain ⟨a, b, s₁, s₂, ha, hb, hmerge⟩ := mergeStep_cases h
  obtain ⟨q₁, hq₁, rfl⟩ := pqExtract_spec ha
  obtain ⟨q₂, hq₂, rfl⟩ := pqExtract_spec hb
  obtain ⟨va, vb, hva, hvb, rfl⟩ := mergeNodes_cases hmerge
  exact ⟨a, b, q₁, q₂, va, vb, hq₁, hq₂, hva, hvb, nodeWrite_node_of_fresh _ hseq, rfl, rfl⟩

/-- A merge joins two trees of PQ into one (rule R146). -/
theorem mergeStep_htbInv {es : List FtEntry} {s t : State} (h : HtbInv es s) (hstep : mergeStep s = .ok t) :
    HtbInv es t := by
  obtain ⟨a, b, q₁, q₂, va, vb, hq₁, hq₂, hva, hvb, hnode, hpq, hseq⟩ := mergeStep_spec hstep h.seq_eq
  obtain ⟨Ta, es₁, hTa, hforest₁, hperm₁⟩ := h.forest.take hq₁
  obtain ⟨Tb, es₂, hTb, hforest₂, hperm₂⟩ := hforest₁.take hq₂
  rw [hTa.nodeFreq_eq hva, hTb.nodeFreq_eq hvb] at hnode hpq
  have hleaves : ((HTree.branch Ta Tb).leaves ++ es₂).Perm es := by
    rw [HTree.leaves, List.append_assoc]
    exact (hperm₂.append_left _).trans hperm₁
  have hcarries : Carries t.per.mem.node s.tr.seq (.branch Ta Tb) := by
    rw [hnode]
    exact ⟨a.id, b.id, by simp [h.seq_eq], hTa.append _, hTb.append _⟩
  refine ⟨by simp [hseq, hnode, h.seq_eq], ?_, ?_, ?_⟩
  · have hlen₁ := (pqTake_spec hq₁).1.length_eq
    have hlen₂ := (pqTake_spec hq₂).1.length_eq
    have hcount := h.node_add_pq
    simp only [hnode, hpq, pqAdd_length, List.length_append, List.length_cons, List.length_nil] at *
    omega
  · rw [hpq]
    exact (Forest.insert (e := ⟨_, s.tr.seq, s.tr.seq⟩) (hnode ▸ hforest₂.append _) hcarries).perm_leaves hleaves
  · intro v hv
    rw [hnode, List.mem_append, List.mem_singleton] at hv
    obtain hv | rfl := hv
    · exact h.freq_le v hv
    · calc nodeFreq (.internal (Ta.freq + Tb.freq) a.id b.id)
        _ = ((HTree.branch Ta Tb).leaves.map FtEntry.count).sum := (HTree.freq_branch Ta Tb).symm
        _ ≤ (((HTree.branch Ta Tb).leaves ++ es₂).map FtEntry.count).sum := by simp
        _ = (es.map FtEntry.count).sum := (hleaves.map _).sum_eq

theorem mergeLoop_htbInv {k : Nat} {es : List FtEntry} {s t : State} (h : HtbInv es s)
    (hloop : mergeLoop k s = .ok t) : HtbInv es t := by
  induction k generalizing s with
  | zero => cases hloop; exact h
  | succ k ih =>
    obtain ⟨-, rfl⟩ | ⟨-, s₁, hstep, hrest⟩ := mergeLoop_cases hloop
    · exact h
    · exact ih (mergeStep_htbInv h hstep) hrest

/-- NODE holds, at ROOT, the tree `T` over the FT entries, and is as long as NODECOUNT says (rules R149, R152). -/
structure HoldsTree (T : HTree) (p : Persistent) : Prop where
  carries : Carries p.mem.node p.root T
  leaves : T.leaves.Perm p.mem.ft
  node_length : p.mem.node.length = 2 * p.mem.ft.length - 1
  nodecount_eq : p.nodecount = p.mem.node.length
  freq_le : ∀ v ∈ p.mem.node, nodeFreq v ≤ (p.mem.ft.map FtEntry.count).sum

/-- An HTB stage that does not fault leaves one tree over all of FT (rule R149). -/
theorem htbStage_holdsTree {s t : State} (h : htbStage s = .ok t) (hnode : s.per.mem.node = []) :
    ∃ T, HoldsTree T t.per := by
  have hft : t.per.mem.ft = s.per.mem.ft := by rw [htbStage_frame h]
  obtain ⟨-, s₁, hloop, hroot⟩ := htbStage_cases h
  obtain ⟨r, hpq, rfl⟩ := takeRoot_cases hroot
  have hseed : HtbInv s.per.mem.ft (seedStage s) := seedLoop_htbInv (pqClear_htbInv hnode) s.per.mem.ft
  have hinv := mergeLoop_htbInv hseed hloop
  have hforest := hinv.forest
  rw [hpq] at hforest
  obtain ⟨T, es, hT, rfl, hperm⟩ := hforest
  have hcount := hinv.node_add_pq
  rw [hpq, List.length_singleton] at hcount
  refine ⟨T, hT, ?_, ?_, hinv.seq_eq, ?_⟩
  · rw [hft]
    simpa using hperm
  · rw [hft, setRoot_per_mem]
    omega
  · rw [hft]
    exact hinv.freq_le

/-! #### What the walk records -/

/-- The leaves' symbols with their paths, from left to right, below the path `path` (rule R161). -/
def HTree.codes : HTree → Code → List (Symbol × Code)
  | .leaf e, path => [(e.sym, path)]
  | .branch l r, path => l.codes (path ++ [false]) ++ r.codes (path ++ [true])

theorem HTree.length_codes (T : HTree) (path : Code) : (T.codes path).length = T.leaves.length := by
  induction T generalizing path with
  | leaf e => rfl
  | branch l r ihl ihr => simp [HTree.codes, HTree.leaves, ihl, ihr]

/-- Every branch on the way to a leaf has another leaf on its other side (rule R166). -/
theorem HTree.length_code_lt {T : HTree} {path : Code} {p : Symbol × Code} (h : p ∈ T.codes path) :
    p.2.length < path.length + T.leaves.length := by
  induction T generalizing path with
  | leaf e => simp_all [HTree.codes, HTree.leaves]
  | branch l r ihl ihr =>
    have hl := l.leaves_length_pos
    have hr := r.leaves_length_pos
    simp only [HTree.leaves, List.length_append]
    obtain h | h := List.mem_append.1 h
    · have := ihl h
      simp only [List.length_append, List.length_singleton] at this
      omega
    · have := ihr h
      simp only [List.length_append, List.length_singleton] at this
      omega

/-- The Leaf actions for the symbols and paths of the list, one after the other. -/
def recordLeaves (cs : List (Symbol × Code)) (s : State) : State := cs.foldl (fun s p => leafAction p.1 p.2 s) s

theorem recordLeaves_cons (p : Symbol × Code) (cs : List (Symbol × Code)) (s : State) :
    recordLeaves (p :: cs) s = recordLeaves cs (leafAction p.1 p.2 s) := rfl

theorem recordLeaves_append (cs ds : List (Symbol × Code)) (s : State) :
    recordLeaves (cs ++ ds) s = recordLeaves ds (recordLeaves cs s) := List.foldl_append

/-- The Leaf actions do not read PATH. -/
theorem recordLeaves_setPath (cs : List (Symbol × Code)) (path : Code) (s : State) :
    recordLeaves cs (setPath path s) = setPath path (recordLeaves cs s) := by
  induction cs generalizing s with
  | nil => rfl
  | cons p cs ih => exact ih (leafAction p.1 p.2 s)

/-- A walk over a tree does the Leaf action of each of its leaves, and leaves some path in PATH (rule R161). -/
theorem walk_eq_recordLeaves {fuel id : Nat} {path : Code} {T : HTree} {s t : State}
    (hT : Carries s.per.mem.node id T) (h : walk fuel id path s = .ok t) :
    ∃ last, t = setPath last (recordLeaves (T.codes path) s) := by
  induction T generalizing fuel id path s t with
  | leaf e =>
    obtain ⟨k, rfl, ⟨x, f, hid, rfl⟩ | ⟨f, l, r, s₁, hid, -, -⟩⟩ := walk_cases h
    · obtain ⟨rfl, rfl⟩ : x = e.sym ∧ f = e.count := by simpa using hid.symm.trans hT
      exact ⟨path, rfl⟩
    · cases hid.symm.trans hT
  | branch l r ihl ihr =>
    obtain ⟨a, b, hab, hl, hr⟩ := hT
    obtain ⟨k, rfl, ⟨x, f, hid, -⟩ | ⟨f, a', b', s₁, hid, hwalkl, hwalkr⟩⟩ := walk_cases h
    · cases hid.symm.trans hab
    · cases hid.symm.trans hab
      have hnode : s₁.per.mem.node = s.per.mem.node := by rw [walk_frame hwalkl]; rfl
      obtain ⟨pathl, hs₁⟩ := ihl (s := setPath path s) hl hwalkl
      obtain ⟨pathr, ht⟩ := ihr (hnode ▸ hr) hwalkr
      refine ⟨pathr, ?_⟩
      rw [ht, hs₁, recordLeaves_setPath, recordLeaves_setPath, recordLeaves_setPath, HTree.codes, recordLeaves_append]
      rfl

theorem length_mapWrite_le {κ ν : Type} [DecidableEq κ] (lt : κ → κ → Bool) (k : κ) (v : ν) (m : List (κ × ν)) :
    (mapWrite lt k v m).length ≤ m.length + 1 := by
  induction m with
  | nil => exact le_rfl
  | cons e m ih =>
    unfold mapWrite
    split
    · simp
    · split
      · simp
      · simpa using ih

/-- Each Leaf action adds at most one entry to each LUT. -/
theorem recordLeaves_length_le (cs : List (Symbol × Code)) (s : State) :
    (recordLeaves cs s).per.mem.enc.length ≤ s.per.mem.enc.length + cs.length ∧
    (recordLeaves cs s).per.mem.dec.length ≤ s.per.mem.dec.length + cs.length := by
  induction cs generalizing s with
  | nil => exact ⟨le_rfl, le_rfl⟩
  | cons p cs ih =>
    obtain ⟨henc, hdec⟩ := ih (leafAction p.1 p.2 s)
    have henc₁ := length_mapWrite_le symbolLt p.1 p.2 s.per.mem.enc
    have hdec₁ := length_mapWrite_le codeLt p.2 p.1 s.per.mem.dec
    simp only [leafAction, raiseHeight_per_mem, recordCode_per_mem_enc, recordCode_per_mem_dec] at henc hdec
    rw [recordLeaves_cons, List.length_cons]
    simp only [leafAction]
    exact ⟨by omega, by omega⟩

/-- HEIGHT stays within a bound on all the paths (rule R166). -/
theorem recordLeaves_height_le {n : Nat} {cs : List (Symbol × Code)} {s : State} (hs : s.per.height ≤ n)
    (hcs : ∀ p ∈ cs, p.2.length ≤ n) : (recordLeaves cs s).per.height ≤ n := by
  induction cs generalizing s with
  | nil => exact hs
  | cons p cs ih =>
    refine ih ?_ fun q hq => hcs q (List.mem_cons_of_mem _ hq)
    exact max_le hs (hcs p List.mem_cons_self)

/-- A CA stage that does not fault records at most one pair per leaf, and HEIGHT is below the number of leaves. -/
theorem caStage_sizes {s t : State} {T : HTree} (h : caStage s = .ok t)
    (hT : Carries s.per.mem.node s.per.root T) :
    t.per.mem.enc.length ≤ T.leaves.length ∧ t.per.mem.dec.length ≤ T.leaves.length ∧
      t.per.height < T.leaves.length := by
  obtain ⟨x, f, -, rfl⟩ | ⟨f, l, r, -, hwalk⟩ := caStage_cases h
  · exact ⟨T.leaves_length_pos, T.leaves_length_pos, T.leaves_length_pos⟩
  · have hT' : Carries (startWalk s).per.mem.node s.per.root T := hT
    obtain ⟨last, rfl⟩ := walk_eq_recordLeaves hT' hwalk
    obtain ⟨henc, hdec⟩ := recordLeaves_length_le (T.codes []) (startWalk s)
    have hheight : (recordLeaves (T.codes []) (startWalk s)).per.height ≤ T.leaves.length - 1 :=
      recordLeaves_height_le (Nat.zero_le _) fun p hp => by
        have := HTree.length_code_lt hp
        simp only [List.length_nil] at this
        omega
    have hpos := T.leaves_length_pos
    rw [HTree.length_codes] at henc hdec
    simp only [startWalk, setPath_per, setStack_per, mapsClear_per_mem_enc, mapsClear_per_mem_dec,
      List.length_nil, Nat.zero_add] at henc hdec hheight ⊢
    exact ⟨henc, hdec, by omega⟩

/-! #### The widths and capacities (rules R8, R82) -/

/-- What the tables and registers after the stages of BUILD are bounded by: the table of the text (rules R149, R166). -/
structure SizedByTable (text : List Symbol) (p : Persistent) : Prop where
  ft_eq : p.mem.ft = tableOf text
  nsym_eq : p.nsym = (tableOf text).length
  node_length : p.mem.node.length = 2 * (tableOf text).length - 1
  nodecount_eq : p.nodecount = p.mem.node.length
  root_lt : p.root < p.mem.node.length
  enc_length : p.mem.enc.length ≤ (tableOf text).length
  dec_length : p.mem.dec.length ≤ (tableOf text).length
  height_lt : p.height < (tableOf text).length
  freq_le : ∀ v ∈ p.mem.node, nodeFreq v ≤ text.length

/-- The three stages, started on empty tables. -/
theorem buildStages_sizedByTable {text : List Symbol} {s t : State} (h : buildStages text s = .ok t)
    (hnode : s.per.mem.node = []) : SizedByTable text t.per := by
  obtain ⟨s₁, hhtb, hca⟩ := buildStages_cases h
  obtain ⟨hft, hnsym⟩ := ftStage_holdsTable text s
  have hnode' : (ftStage text s).per.mem.node = [] := by rw [ftStage_frame]; exact hnode
  obtain ⟨T, hT⟩ := htbStage_holdsTree hhtb hnode'
  have hft₁ : s₁.per.mem.ft = tableOf text := by rw [htbStage_frame hhtb]; exact hft
  have hnsym₁ : s₁.per.nsym = (tableOf text).length := by rw [htbStage_frame hhtb]; exact hnsym
  obtain ⟨henc, hdec, hheight⟩ := caStage_sizes hca hT.carries
  rw [hT.leaves.length_eq, hft₁] at henc hdec hheight
  have hlength := hT.node_length
  have hfreq := hT.freq_le
  rw [hft₁] at hlength hfreq
  rw [sum_count_tableOf] at hfreq
  have hframe := caStage_frame hca
  refine ⟨?_, ?_, ?_, ?_, ?_, henc, hdec, hheight, ?_⟩ <;> rw [hframe]
  exacts [hft₁, hnsym₁, hlength, hT.nodecount_eq, hT.carries.lt_length, hfreq]

/-- FREQ_W bits hold every number up to MAX_TEXT (rule R8). -/
theorem lt_two_pow_freqW {c : Config} {w n : Nat} (hw : c.freqW = some w) (hn : within c.maxText n = true) :
    n < 2 ^ w := by
  obtain ⟨m, hm, rfl⟩ := Option.map_eq_some_iff.1 hw
  have hle : n ≤ m := by simpa [within, hm] using hn
  exact lt_of_lt_of_le (Nat.lt_succ_of_le hle) (Nat.le_pow_clog one_lt_two (m + 1))

theorem one_le_nMax (c : Config) : 1 ≤ c.nMax := Nat.one_le_two_pow

theorem two_pow_seqW (c : Config) : 2 ^ c.seqW = 2 * c.nMax := by
  rw [Config.seqW, Config.nMax, pow_succ, Nat.mul_comm]

/-- Settles O27: a BUILD of the empty text leaves nothing; otherwise the distinct symbols are at most N_MAX, they bound
the sizes of the tree and of the LUTs, and a frequency is at most the length of the text. -/
theorem buildFitsWidths : Obligations.BuildFitsWidths := by
  intro s t h
  have hpos := one_le_nMax s.cfg
  rw [two_pow_seqW, Config.lMax]
  obtain ⟨text, htext, ⟨-, rfl⟩ | ⟨-, s₁, hstages, rfl⟩⟩ := execBuild_cases h
  · simp [buildFailed, respondBuild, Persistent.reset, Nat.lt_of_succ_le hpos]
  · obtain ⟨-, hfit, hlen⟩ := textOperand_ok.1 htext
    have hmax := length_tableOf_le_nMax hfit
    have hsize : SizedByTable text (buildDone s₁).per := by
      obtain ⟨hft, hnsym, hnode, hcount, hroot, henc, hdec, hheight, hfreq⟩ := buildStages_sizedByTable hstages rfl
      exact ⟨hft, hnsym, hnode, hcount, hroot, henc, hdec, hheight, hfreq⟩
    obtain ⟨hft, hnsym, hnode, hcount, hroot, henc, hdec, hheight, hfreq⟩ := hsize
    rw [hft]
    have hfits : ∀ w, s.cfg.freqW = some w → ∀ v ∈ (buildDone s₁).per.mem.node, nodeFreq v < 2 ^ w :=
      fun w hw v hv => lt_of_le_of_lt (hfreq v hv) (lt_two_pow_freqW hw hlen)
    refine ⟨?_, ?_, ?_, ?_, ?_, ?_, ?_, ?_, ?_, hfits⟩ <;> omega

end Sys2Proof.Machine

/-! ### The state: reset, the register reads, the outcomes, the invariants (10_state.md) -/

namespace Sys2Proof.Machine

/-! #### The register reads (rule R230) -/

theorem hasReadPort_iff {c : Config} {r : Reg} : hasReadPort c r = true ↔ (r = .root → c.rootPort = true) := by
  cases r <;> simp [hasReadPort]

section
variable {s : State} {r : Reg} {rest : List HostAction}

theorem fetch_read (h : s.host = .read r :: rest) : fetch s = fetchRead r rest s := by
  simp [fetch, h]

theorem fetchRead_of_port (hbusy : s.busy = false) (hport : hasReadPort s.cfg r = true) :
    fetchRead r rest s = .stay (hostRead r rest s) := by
  simp [fetchRead, hbusy, hport]

theorem fetchRead_of_no_port (hbusy : s.busy = false) (hport : hasReadPort s.cfg r = false) :
    fetchRead r rest s = .refuse .noReadPort := by
  simp [fetchRead, hbusy, hport]

end

theorem step_of_stay {s s1 : State} (h : fetch s = .stay s1) : step s = .next s1 := by
  simp [step, h]

/-- Settles O5: a read of a register with a host read port is answered by the fetch alone, and ROOT without one is refused
there. -/
theorem registerReadHasNoEffect : Obligations.RegisterReadHasNoEffect := by
  refine ⟨fun s r rest hbusy hhost hroot => ?_, fun s rest hbusy hhost hport => ?_, fun p => ?_⟩
  · exact step_of_stay ((fetch_read hhost).trans (fetchRead_of_port hbusy (hasReadPort_iff.2 hroot)))
  · exact step_of_refuse ((fetch_read hhost).trans (fetchRead_of_no_port hbusy hport))
  · refine ⟨rfl, rfl, rfl, ?_, rfl, rfl, rfl, rfl, rfl⟩
    cases hv : p.valid <;> simp [readReg, hv]

/-! #### The invariants right after reset (rules R43, R44) -/

@[simp] theorem within_zero (bound : Option Nat) : within bound 0 = true := by
  cases bound <;> simp [within]

theorem reset_statsOk (c : Config) : statsOk c Persistent.reset :=
  ⟨le_rfl, within_zero _, within_zero _⟩

/-- Settles O55: after reset the tables are empty, the statistics zero and VALID is 0. -/
theorem resetMeetsInvariant : Obligations.ResetMeetsInvariant := fun c _ =>
  ⟨reset_wf, reset_statsOk c, fun hvalid => Bool.noConfusion hvalid, fun _ => rfl⟩

/-! #### What each command leaves behind -/

/-- A DECOMPRESS with a tree runs the machine `Accumulating(buffer)` from the empty buffer, and its outcome says whether it
ends with one (rules R207, R210, R212). -/
theorem decompressDigits_of_valid {s : State} (hvalid : s.per.valid = true) (bits : List Digit) :
    decompressDigits bits s =
      let decoded := decodeFrom s.per.mem.dec [] bits
      let status := if decoded.2 = [] then 0#2 else 3#2
      { s with
        per := { s.per with status := status }
        tr := { s.tr with buf := decoded.2 }
        out := { s.out with text := s.out.text ++ decoded.1 }
        resp := some (.response (.decompress status (s.out.text ++ decoded.1))) } := by
  rw [decompressDigits, if_pos hvalid, digitLoop_eq, decompressEnd]
  split <;> next hbuf =>
    simp only [setBuf_per, setBuf_tr_buf] at hbuf
    simp [hbuf, respondDecompress, respond, setStatus, raiseError, errBits, setBuf]

theorem decompressDigits_of_not_valid {s : State} (hvalid : s.per.valid = false) (bits : List Digit) :
    decompressDigits bits s = decompressNoTree s := by
  simp [decompressDigits, hvalid]

/-- The end of a COMPRESS with a tree of `text` (rules R190 to R195). -/
theorem compressDone_loop (text : List Symbol) (s : State) :
    compressDone (text.foldl compressStep (zeroStats (startCommand s))) =
      let emitted := text.flatMap (codeOrNothing s)
      { s with
        per := { s.per with
          status := 0#2
          symcount := text.length
          bitcount := emitted.length
          skipcount := text.countP fun x => !isMapped s x }
        inp := .none
        out := { digits := emitted, text := [] }
        resp := some (.response (.compress 0#2 emitted)) } := by
  have hcode : codeOrNothing (zeroStats (startCommand s)) = codeOrNothing s := rfl
  have hmapped : isMapped (zeroStats (startCommand s)) = isMapped s := rfl
  rw [compressLoop_eq, hcode, hmapped]
  simp [compressDone, respondCompress, respond, setStatus, errBits, zeroStats, startCommand, Out.empty]

/-- What a step can do to the persistent state: the five ways in which commands, reads and reset write it. -/
inductive Effect (s t : State) : Prop where
  /-- The queries, the register reads, DECOMPRESS, COMPRESS with no tree, an operand with no end, and idling. -/
  | status (per : t.per = { s.per with status := t.per.status })
  /-- COMPRESS with a tree (rule R195). -/
  | stats (valid : s.per.valid = true) (ok : statsOk s.cfg t.per)
      (per : t.per = { s.per with
        status := t.per.status, skipcount := t.per.skipcount, bitcount := t.per.bitcount, symcount := t.per.symcount })
  /-- Reset, CLEAR and a BUILD of the empty text (rules R44, R177, R183). -/
  | empty (per : emptyOk t.per)
  /-- A BUILD of a text (rule R175). -/
  | built (text : List Symbol) (s₀ s₁ : State) (ne : text ≠ []) (fits : itemsFit s.cfg text = true)
      (stages : buildStages text (discard s₀) = .ok s₁) (done : t = buildDone s₁)

theorem execBuild_effect {s t : State} (h : execBuild s = .next t) : Effect s t := by
  obtain ⟨text, htext, ⟨-, rfl⟩ | ⟨hne, s₁, hstages, rfl⟩⟩ := execBuild_cases h
  · exact .empty rfl
  · exact .built text _ s₁ hne (textOperand_ok.1 htext).2.1 hstages rfl

theorem execCompress_effect {s t : State} (h : execCompress s = .next t) : Effect s t := by
  obtain ⟨text, htext, ⟨-, rfl⟩ | ⟨hvalid, rfl, hbits⟩⟩ := execCompress_cases h
  · exact .status rfl
  · obtain ⟨-, -, hlen⟩ := textOperand_ok.1 htext
    rw [compressLoop_bitcount] at hbits
    rw [compressDone_loop]
    exact .stats hvalid ⟨List.countP_le_length, hlen, hbits⟩ rfl

theorem execDecompress_effect {s t : State} (h : execDecompress s = .next t) : Effect s t := by
  obtain ⟨bits, -, rfl⟩ := execDecompress_cases h
  cases hvalid : s.per.valid with
  | false => rw [decompressDigits_of_not_valid (s := startCommand s) hvalid]; exact .status rfl
  | true => rw [decompressDigits_of_valid (s := startCommand s) hvalid]; exact .status rfl

theorem query_effect {answer : Symbol → State → Response} {s t : State} (h : query answer s = .next t) :
    Effect s t := by
  obtain ⟨x, -, rfl⟩ := query_cases h
  exact .status rfl

theorem exec_effect {i : Instr} {s t : State} (h : exec i s = .next t) : Effect s t := by
  cases i with
  | build => exact execBuild_effect h
  | compress => exact execCompress_effect h
  | decompress => exact execDecompress_effect h
  | clear => cases h; exact .empty rfl
  | qfreq => exact query_effect (answer := fun x s => .qfreq (freqAnswer x s)) h
  | qcode => exact query_effect (answer := codeAnswer) h
  | qmember => exact query_effect (answer := memberAnswer) h

theorem fetch_stay_effect {s t : State} (h : fetch s = .stay t) : Effect s t := by
  obtain ⟨-, rfl⟩ | ⟨_, -, rfl⟩ | ⟨_, _, -, -, -, rfl⟩ | ⟨_, _, _, _, -, -, -, -, rfl⟩ := fetch_stay_cases h
  · exact .status rfl
  · exact .empty rfl
  · exact .status rfl
  · exact .status rfl

/-- A command finds on the state it is fetched with what it would find on the state before. -/
theorem Effect.of_accept {op : Operand} {rest : List HostAction} {s t : State} (h : Effect (accept op rest s) t) :
    Effect s t := by
  cases h with
  | status per => exact .status per
  | stats valid ok per => exact .stats valid ok per
  | empty per => exact .empty per
  | built text s₀ s₁ ne fits stages done => exact .built text s₀ s₁ ne fits stages done

/-- All that a step can do to the persistent state. -/
theorem step_effect {s t : State} (h : step s = .next t) : Effect s t := by
  obtain ⟨i, s1, hrun, hexec⟩ | hstay := step_cases h
  · obtain ⟨-, w, op, rest, -, -, rfl⟩ := fetch_run_cases hrun
    exact (exec_effect hexec).of_accept
  · exact fetch_stay_effect hstay

/-! #### The canonical form of the tables -/

/-- The stages of BUILD, started on empty tables, leave the canonical form. -/
theorem buildStages_wf {text : List Symbol} {s t : State} (h : buildStages text s = .ok t) (hs : s.per.mem.wf) :
    t.per.mem.wf := by
  obtain ⟨s₁, hhtb, hca⟩ := buildStages_cases h
  have hft : (ftStage text s).per.mem.wf := ftLoop_wf text (ftClear_wf hs)
  have hwf : s₁.per.mem.wf := by rw [htbStage_frame hhtb]; exact hft
  exact caStage_wf hca hwf

theorem Effect.keeps_wf {s t : State} (h : Effect s t) (hs : s.per.mem.wf) : t.per.mem.wf := by
  cases h with
  | status per => rw [per]; exact hs
  | stats _ _ per => rw [per]; exact hs
  | empty per => rw [per]; exact reset_wf
  | built _ s₀ s₁ _ _ stages done =>
    have hwf : s₁.per.mem.wf := buildStages_wf stages (discard_wf s₀)
    rw [done]
    exact hwf

/-- Settles O58: of the steps only BUILD and what empties the tables write them. -/
theorem stepKeepsMemoryForm : Obligations.StepKeepsMemoryForm := fun _ _ hs h => (step_effect h).keeps_wf hs

/-! #### With no tree everything is empty (rule R43) -/

/-- With a command in progress a step idles or resets. -/
theorem step_of_busy {s t : State} (hbusy : s.busy = true) (h : step s = .next t) :
    t = s ∨ t.per = Persistent.reset := by
  have hne : s.busy ≠ false := by simp [hbusy]
  obtain ⟨i, s1, hrun, -⟩ | hstay := step_cases h
  · exact absurd (fetch_run_cases hrun).1 hne
  · obtain ⟨-, rfl⟩ | ⟨_, -, rfl⟩ | ⟨_, _, hb, -⟩ | ⟨_, _, _, _, hb, -⟩ := fetch_stay_cases hstay
    · exact .inl rfl
    · exact .inr rfl
    · exact absurd hb hne
    · exact absurd hb hne

theorem Effect.keeps_emptyOk {s t : State} (h : Effect s t) (hs : s.per.valid = false → emptyOk s.per)
    (ht : t.per.valid = false) : emptyOk t.per := by
  cases h with
  | status per =>
    have hvalid : s.per.valid = false := by rw [per] at ht; exact ht
    rw [per, hs hvalid]
  | stats valid _ per =>
    rw [per] at ht
    exact absurd (valid.symm.trans ht) (by decide)
  | empty per => exact per
  | built _ _ s₁ _ _ _ done => subst done; exact Bool.noConfusion ht

/-- Settles O56: from a hanging command only reset leads to a state with none in progress; any other step leaves VALID 1
or writes STATUS alone or empties everything. -/
theorem noTreeMeansEmptyState : Obligations.NoTreeMeansEmptyState := by
  intro s t hs h hbusy hvalid
  cases hb : s.busy with
  | false => exact (step_effect h).keeps_emptyOk (hs hb) hvalid
  | true =>
    obtain rfl | hreset := step_of_busy hb h
    · exact absurd (hb.symm.trans hbusy) (by decide)
    · rw [hreset]

/-! #### The outcome of each command (rules R24, R245) -/

theorem inText_of_textOperand {s : State} {text : List Symbol} (h : textOperand s.cfg s.inp = .ok text) :
    inText s = text := by
  simp [inText, (textOperand_ok.1 h).1]

theorem execBuild_outcome {s t : State} (h : execBuild s = .next t) :
    t.per.status = (if inText s = [] then 1#2 else 0#2) ∧ t.resp = some (.response (.build t.per.status)) := by
  obtain ⟨text, htext, ⟨hnil, rfl⟩ | ⟨hne, s₁, -, rfl⟩⟩ := execBuild_cases h <;> rw [inText_of_textOperand htext]
  · exact ⟨(if_pos hnil).symm, rfl⟩
  · exact ⟨(if_neg hne).symm, rfl⟩

theorem execCompress_outcome {s t : State} (h : execCompress s = .next t) :
    t.per.status = (if s.per.valid then 0#2 else 2#2) ∧
    t.resp = some (.response (.compress t.per.status t.out.digits)) ∧ (t.per.status ≠ 0#2 → t.out.digits = []) := by
  obtain ⟨text, -, ⟨hvalid, rfl⟩ | ⟨hvalid, rfl, -⟩⟩ := execCompress_cases h
  · exact ⟨by simp [hvalid]; rfl, rfl, fun _ => rfl⟩
  · rw [compressDone_loop]
    exact ⟨by simp [hvalid], rfl, fun hstatus => absurd rfl hstatus⟩

theorem execDecompress_outcome {s t : State} (h : execDecompress s = .next t) :
    t.per.status = (if s.per.valid then if t.tr.buf = [] then 0#2 else 3#2 else 2#2) ∧
    t.resp = some (.response (.decompress t.per.status t.out.text)) ∧ (t.per.status = 2#2 → t.out.text = []) := by
  obtain ⟨bits, -, rfl⟩ := execDecompress_cases h
  cases hvalid : s.per.valid with
  | false =>
    rw [decompressDigits_of_not_valid (s := startCommand s) hvalid]
    exact ⟨rfl, rfl, fun _ => rfl⟩
  | true =>
    rw [decompressDigits_of_valid (s := startCommand s) hvalid]
    refine ⟨rfl, rfl, fun hstatus => ?_⟩
    dsimp only at hstatus
    split at hstatus <;> exact absurd hstatus (by decide)

theorem query_status {answer : Symbol → State → Response} {s t : State} (h : query answer s = .next t) :
    t.per.status = s.per.status := by
  obtain ⟨x, -, rfl⟩ := query_cases h
  rfl

/-- Settles O54, command by command. -/
theorem outcomeOfEveryCommand : Obligations.OutcomeOfEveryCommand := by
  refine fun s t => ⟨execBuild_outcome, execCompress_outcome, execDecompress_outcome, fun h => ?_, fun i hi h => ?_⟩
  · cases h
    exact ⟨rfl, rfl⟩
  · obtain rfl | rfl | rfl := hi
    · exact query_status (answer := fun x s => .qfreq (freqAnswer x s)) h
    · exact query_status (answer := codeAnswer) h
    · exact query_status (answer := memberAnswer) h

end Sys2Proof.Machine

/-! ### Every step keeps the invariants of the persistent state (rules R42, R43) -/

namespace Sys2Proof.Machine

/-! #### NODE at the end of the HTB stage (rule R42, items 2 and 3) -/

theorem freqAt_of_getElem? {node : List TreeNode} {k : Nat} {v : TreeNode} (h : node[k]? = some v) :
    freqAt node k = nodeFreq v := by
  simp [freqAt, h]

theorem freqAt_append {node : List TreeNode} {k : Nat} (v : TreeNode) (h : k < node.length) :
    freqAt (node ++ [v]) k = freqAt node k := by
  simp [freqAt, List.getElem?_append_left h]

/-- `v` may stand at the id `k` of NODE over the FT entries `es`: the Leaf of FT entry `k`, or after the leaves an Internal
entry with two different older children and the sum of their frequencies. -/
def EntryOk (es : List FtEntry) (node : List TreeNode) (k : Nat) : TreeNode → Prop
  | .leaf x f => es[k]? = some { sym := x, count := f }
  | .internal f l r => es.length ≤ k ∧ l < k ∧ r < k ∧ l ≠ r ∧ f = freqAt node l + freqAt node r

theorem EntryOk.child_lt {es : List FtEntry} {node : List TreeNode} {k c : Nat} {v : TreeNode}
    (h : EntryOk es node k v) (hc : c ∈ childrenOf v) : c < k := by
  cases v with
  | leaf x f => cases hc
  | internal f l r =>
    obtain ⟨-, hl, hr, -, -⟩ := h
    obtain rfl | rfl : c = l ∨ c = r := by simpa [childrenOf] using hc
    · exact hl
    · exact hr

theorem EntryOk.append {es : List FtEntry} {node : List TreeNode} {k : Nat} {v : TreeNode} (h : EntryOk es node k v)
    (hk : k < node.length) (u : TreeNode) : EntryOk es (node ++ [u]) k v := by
  cases v with
  | leaf x f => exact h
  | internal f l r =>
    obtain ⟨hes, hl, hr, hne, hf⟩ := h
    refine ⟨hes, hl, hr, hne, ?_⟩
    rw [freqAt_append u (hl.trans hk), freqAt_append u (hr.trans hk), hf]

theorem nodeOk_of_entryOk {p : Persistent} {k : Nat} {v : TreeNode} (hv : p.mem.node[k]? = some v)
    (h : EntryOk p.mem.ft p.mem.node k v) (hnsym : p.nsym = p.mem.ft.length) : nodeOk p k = true := by
  cases v with
  | leaf x f =>
    have hft : p.mem.ft[k]? = some { sym := x, count := f } := h
    have hk : k < p.nsym := hnsym ▸ (List.getElem?_eq_some_iff.1 hft).1
    simp [nodeOk, hv, hft, hk]
  | internal f l r =>
    obtain ⟨hes, hl, hr, hne, hf⟩ := h
    simp [nodeOk, hv, hnsym, hes, hl, hr, hne, hf]

/-- Every id is once the child of a NODE entry or once in PQ. -/
def Owned (node : List TreeNode) (q : List PqEntry) : Prop :=
  (node.flatMap childrenOf ++ q.map PqEntry.id).Perm (List.range node.length)

/-- A new entry takes its children out of PQ and goes in itself. -/
theorem Owned.push {node : List TreeNode} {q q' : List PqEntry} {v : TreeNode} {e : PqEntry} (h : Owned node q)
    (hq : (q.map PqEntry.id).Perm (childrenOf v ++ q'.map PqEntry.id)) (he : e.id = node.length) :
    Owned (node ++ [v]) (pqAdd e q') := by
  have hadd : ((pqAdd e q').map PqEntry.id).Perm (e.id :: q'.map PqEntry.id) := (pqAdd_perm e q').map _
  unfold Owned at *
  rw [List.flatMap_append, List.flatMap_singleton, List.length_append, List.length_singleton, List.range_succ]
  calc node.flatMap childrenOf ++ childrenOf v ++ (pqAdd e q').map PqEntry.id
    _ |>.Perm (node.flatMap childrenOf ++ childrenOf v ++ (e.id :: q'.map PqEntry.id)) := hadd.append_left _
    _ |>.Perm (e.id :: (node.flatMap childrenOf ++ childrenOf v ++ q'.map PqEntry.id)) := List.perm_middle
    _ |>.Perm (e.id :: (node.flatMap childrenOf ++ q.map PqEntry.id)) := by
      rw [List.append_assoc]
      exact (hq.symm.append_left _).cons _
    _ |>.Perm (e.id :: List.range node.length) := h.cons _
    _ |>.Perm (List.range node.length ++ [node.length]) := he ▸ List.perm_append_comm (l₁ := [e.id])

/-- The ids in PQ are valid and no two are equal. -/
theorem Owned.queue {node : List TreeNode} {q : List PqEntry} (h : Owned node q) :
    (q.map PqEntry.id).Nodup ∧ ∀ e ∈ q, e.id < node.length := by
  have hnodup := h.nodup_iff.2 List.nodup_range
  refine ⟨(List.nodup_append.1 hnodup).2.1, fun e he => ?_⟩
  exact List.mem_range.1 (h.mem_iff.1 (List.mem_append_right _ (List.mem_map_of_mem he)))

/-- Between two seed steps NODE holds the Leaf of each entry seeded so far (rule R141). -/
structure SeedInv (es : List FtEntry) (s : State) : Prop extends HtbInv es s where
  node_eq : s.per.mem.node = es.map fun e => .leaf e.sym e.count
  owned : Owned s.per.mem.node s.tr.pq

theorem pqClear_seedInv {s : State} (h : s.per.mem.node = []) : SeedInv [] (pqClear s) :=
  ⟨pqClear_htbInv h, h, by simp [Owned, h]⟩

theorem seedStep_seedInv {es : List FtEntry} {s : State} (h : SeedInv es s) (e : FtEntry) :
    SeedInv (es ++ [e]) (seedStep s e) := by
  have hnode : (seedStep s e).per.mem.node = s.per.mem.node ++ [.leaf e.sym e.count] :=
    nodeWrite_node_of_fresh _ h.seq_eq
  refine ⟨seedStep_htbInv h.toHtbInv e, by simp [hnode, h.node_eq], ?_⟩
  rw [hnode]
  exact h.owned.push (List.Perm.refl _) h.seq_eq

theorem seedLoop_seedInv {es : List FtEntry} {s : State} (h : SeedInv es s) (fs : List FtEntry) :
    SeedInv (es ++ fs) (fs.foldl seedStep s) := by
  induction fs generalizing es s with
  | nil => simpa using h
  | cons f fs ih => simpa using ih (seedStep_seedInv h f)

/-- What holds between two merges over the FT entries `es` (rule R42, items 2 and 3, on the way). -/
structure MergeInv (es : List FtEntry) (s : State) : Prop extends HtbInv es s where
  length_le : es.length ≤ s.per.mem.node.length
  entries : ∀ k v, s.per.mem.node[k]? = some v → EntryOk es s.per.mem.node k v
  owned : Owned s.per.mem.node s.tr.pq

theorem SeedInv.mergeInv {es : List FtEntry} {s : State} (h : SeedInv es s) : MergeInv es s := by
  refine ⟨h.toHtbInv, by simp [h.node_eq], fun k v hv => ?_, h.owned⟩
  rw [h.node_eq, List.getElem?_map] at hv
  obtain ⟨e, he, rfl⟩ := Option.map_eq_some_iff.1 hv
  exact he

theorem mergeStep_mergeInv {es : List FtEntry} {s t : State} (h : MergeInv es s) (hstep : mergeStep s = .ok t) :
    MergeInv es t := by
  obtain ⟨a, b, q₁, q₂, va, vb, hq₁, hq₂, hva, hvb, hnode, hpq, -⟩ := mergeStep_spec hstep h.seq_eq
  have hperm : s.tr.pq.Perm (a :: b :: q₂) := (pqTake_spec hq₁).1.trans ((pqTake_spec hq₂).1.cons a)
  obtain ⟨hnodup, hlt⟩ := h.owned.queue
  have ha : a.id < s.per.mem.node.length := hlt a (hperm.mem_iff.2 (by simp))
  have hb : b.id < s.per.mem.node.length := hlt b (hperm.mem_iff.2 (by simp))
  have hab : a.id ≠ b.id := by
    have := (hperm.map PqEntry.id).nodup_iff.1 hnodup
    simp only [List.map_cons, List.nodup_cons, List.mem_cons, not_or] at this
    exact this.1.1
  refine ⟨mergeStep_htbInv h.toHtbInv hstep, ?_, fun k v hv => ?_, ?_⟩
  · rw [hnode, List.length_append]
    exact le_add_right h.length_le
  · rw [hnode] at hv ⊢
    obtain hk | hk := lt_or_ge k s.per.mem.node.length
    · rw [List.getElem?_append_left hk] at hv
      exact (h.entries k v hv).append hk _
    · obtain ⟨hk', rfl⟩ : k - s.per.mem.node.length = 0 ∧ _ = v := by
        simpa [List.getElem?_append_right hk, List.getElem?_singleton] using hv
      obtain rfl : k = s.per.mem.node.length := by omega
      refine ⟨h.length_le, ha, hb, hab, ?_⟩
      rw [freqAt_append _ ha, freqAt_append _ hb, freqAt_of_getElem? hva, freqAt_of_getElem? hvb]
  · rw [hnode, hpq]
    exact h.owned.push (hperm.map _) h.seq_eq

theorem mergeLoop_mergeInv {k : Nat} {es : List FtEntry} {s t : State} (h : MergeInv es s)
    (hloop : mergeLoop k s = .ok t) : MergeInv es t := by
  induction k generalizing s with
  | zero => cases hloop; exact h
  | succ k ih =>
    obtain ⟨-, rfl⟩ | ⟨-, s₁, hstep, hrest⟩ := mergeLoop_cases hloop
    · exact h
    · exact ih (mergeStep_mergeInv h hstep) hrest

/-- No entry has the last id as its child. -/
theorem MergeInv.child_lt_last {es : List FtEntry} {s : State} (h : MergeInv es s) {c : Nat}
    (hc : c ∈ s.per.mem.node.flatMap childrenOf) : c < s.per.mem.node.length - 1 := by
  obtain ⟨v, hv, hcv⟩ := List.mem_flatMap.1 hc
  obtain ⟨k, hk, hkv⟩ := List.getElem_of_mem hv
  have := (h.entries k v (List.getElem?_eq_some_iff.2 ⟨hk, hkv⟩)).child_lt hcv
  omega

/-- When one entry is left in PQ it is the last one made. -/
theorem MergeInv.last_eq {es : List FtEntry} {s : State} (h : MergeInv es s) {r : PqEntry} (hpq : s.tr.pq = [r]) :
    r.id = s.per.mem.node.length - 1 := by
  have hr : r.id < s.per.mem.node.length := h.owned.queue.2 r (by simp [hpq])
  have hlast : s.per.mem.node.length - 1 ∈ s.per.mem.node.flatMap childrenOf ++ s.tr.pq.map PqEntry.id :=
    h.owned.mem_iff.2 (List.mem_range.2 (by omega))
  obtain hchild | hqueue := List.mem_append.1 hlast
  · exact absurd (h.child_lt_last hchild) (lt_irrefl _)
  · simpa [hpq, eq_comm] using hqueue

/-- An HTB stage that does not fault leaves a tree as rule R42 items 2 and 3 have it. -/
theorem htbStage_treeOk {s t : State} (h : htbStage s = .ok t) (hnode : s.per.mem.node = [])
    (hnsym : s.per.nsym = s.per.mem.ft.length) : treeOk t.per := by
  have hft : t.per.mem.ft = s.per.mem.ft := by rw [htbStage_frame h]
  have hnsym' : t.per.nsym = t.per.mem.ft.length := by rw [hft, htbStage_frame h]; exact hnsym
  obtain ⟨-, s₁, hloop, hroot⟩ := htbStage_cases h
  obtain ⟨r, hpq, rfl⟩ := takeRoot_cases hroot
  have hinv : MergeInv s.per.mem.ft s₁ :=
    mergeLoop_mergeInv (seedLoop_seedInv (pqClear_seedInv hnode) s.per.mem.ft).mergeInv hloop
  have hcount := hinv.node_add_pq
  rw [hpq, List.length_singleton, ← hft, ← hnsym'] at hcount
  have hnodecount : (setRoot r.id s₁).per.nodecount = s₁.per.mem.node.length := hinv.seq_eq
  refine ⟨by omega, hnodecount.symm, ?_, fun k hk => ?_, fun k hk => ?_⟩
  · rw [hnodecount]
    exact hinv.last_eq hpq
  · rw [hnodecount] at hk
    have hv := List.getElem?_eq_getElem hk
    exact nodeOk_of_entryOk hv (hft ▸ hinv.entries k _ hv) hnsym'
  · rw [hnodecount] at hk
    have hone := hinv.owned.count_eq k
    rw [hpq, List.count_append, List.count_eq_one_of_mem List.nodup_range (List.mem_range.2 hk)] at hone
    change _ = if k = r.id then 0 else 1
    by_cases hkr : k = r.id
    · simpa [hkr] using hone
    · simpa [hkr, Ne.symm hkr] using hone

/-! #### The codes of a tree (rules R161, R164) -/

/-- The codes below a path are the codes below its end, with the way there in front. -/
theorem HTree.codes_append (T : HTree) (path ext : Code) :
    T.codes (path ++ ext) = (T.codes ext).map fun p => (p.1, path ++ p.2) := by
  induction T generalizing ext with
  | leaf e => rfl
  | branch l r ihl ihr => simp only [HTree.codes, List.append_assoc, List.map_append, ihl, ihr]

theorem HTree.prefix_of_mem_codes {T : HTree} {path : Code} {p : Symbol × Code} (h : p ∈ T.codes path) :
    path <+: p.2 := by
  rw [← List.append_nil path, HTree.codes_append] at h
  obtain ⟨q, -, rfl⟩ := List.mem_map.1 h
  exact List.prefix_append _ _

theorem HTree.codes_map_fst (T : HTree) (path : Code) :
    (T.codes path).map Prod.fst = T.leaves.map FtEntry.sym := by
  induction T generalizing path with
  | leaf e => rfl
  | branch l r ihl ihr => simp [HTree.codes, HTree.leaves, ihl, ihr]

/-- Neither code begins with the other. -/
def Apart (a b : Symbol × Code) : Prop := ¬ a.2 <+: b.2 ∧ ¬ b.2 <+: a.2

theorem apart_symm : Std.Symm Apart := ⟨fun _ _ => And.symm⟩

theorem Apart.code_ne {a b : Symbol × Code} (h : Apart a b) : a.2 ≠ b.2 := fun he => h.1 (he ▸ List.prefix_refl _)

/-- Two codes that part at a branch: the second does not begin with the first. -/
theorem not_prefix_of_branch {path c d : Code} {x y : Digit} (hxy : x ≠ y) (hc : path ++ [x] <+: c)
    (hd : path ++ [y] <+: d) : ¬ c <+: d := fun hcd => by
  have heq := (List.prefix_of_prefix_length_le (hc.trans hcd) hd (by simp)).eq_of_length (by simp)
  exact hxy (by simpa using heq)

/-- No code of a tree begins with another (rule R167). -/
theorem HTree.codes_apart (T : HTree) (path : Code) : (T.codes path).Pairwise Apart := by
  induction T generalizing path with
  | leaf e => exact List.pairwise_singleton _ _
  | branch l r ihl ihr =>
    refine List.pairwise_append.2 ⟨ihl _, ihr _, fun a ha b hb => ?_⟩
    have hpa := HTree.prefix_of_mem_codes ha
    have hpb := HTree.prefix_of_mem_codes hb
    exact ⟨not_prefix_of_branch (by decide) hpa hpb, not_prefix_of_branch (by decide) hpb hpa⟩

theorem nodup_codes_of_apart {cs : List (Symbol × Code)} (h : cs.Pairwise Apart) : (cs.map Prod.snd).Nodup :=
  List.pairwise_map.2 (h.imp Apart.code_ne)

/-- A code leads from the root of its tree to its leaf (rules R97, R98). -/
theorem HTree.leadsTo_of_mem_codes {node : List TreeNode} {id : Nat} {T : HTree} (hT : Carries node id T)
    {p : Symbol × Code} (h : p ∈ T.codes []) : leadsTo node id p.2 p.1 = true := by
  induction T generalizing id p with
  | leaf e =>
    have hid : node[id]? = some (.leaf e.sym e.count) := hT
    obtain rfl : p = (e.sym, []) := by simpa [HTree.codes] using h
    simp [leadsTo, hid]
  | branch l r ihl ihr =>
    obtain ⟨a, b, hid, hl, hr⟩ := hT
    have hmem : p ∈ l.codes ([false] ++ []) ∨ p ∈ r.codes ([true] ++ []) := List.mem_append.1 h
    rw [HTree.codes_append, HTree.codes_append] at hmem
    obtain hp | hp := hmem <;> obtain ⟨q, hq, rfl⟩ := List.mem_map.1 hp
    · simpa [leadsTo, hid] using ihl hl hq
    · simpa [leadsTo, hid] using ihr hr hq

/-- The codes the CA stage gives the leaves: the forced one to a single Leaf, else the paths (rules R161, R164). -/
def HTree.assigned : HTree → List (Symbol × Code)
  | .leaf e => [(e.sym, forcedCode)]
  | .branch l r => (HTree.branch l r).codes []

theorem HTree.assigned_map_fst (T : HTree) : T.assigned.map Prod.fst = T.leaves.map FtEntry.sym := by
  cases T with
  | leaf e => rfl
  | branch l r => exact HTree.codes_map_fst _ _

theorem HTree.assigned_apart (T : HTree) : T.assigned.Pairwise Apart := by
  cases T with
  | leaf e => exact List.pairwise_singleton _ _
  | branch l r => exact HTree.codes_apart _ _

theorem HTree.assigned_ne_nil {T : HTree} {p : Symbol × Code} (h : p ∈ T.assigned) : p.2 ≠ [] := by
  intro hnil
  cases T with
  | leaf e =>
    obtain rfl : p = (e.sym, forcedCode) := by simpa [HTree.assigned] using h
    cases hnil
  | branch l r =>
    obtain h | h := List.mem_append.1 h <;>
      simpa [hnil] using HTree.prefix_of_mem_codes h

/-! #### What the CA stage leaves in ENC and DEC (rule R42, items 5 and 6) -/

section

variable {κ ν : Type} [DecidableEq κ]

/-- A write under a new key adds its entry and keeps the others. -/
theorem mapWrite_perm_new (lt : κ → κ → Bool) {k : κ} (v : ν) {m : List (κ × ν)} (h : k ∉ m.map Prod.fst) :
    (mapWrite lt k v m).Perm ((k, v) :: m) := by
  induction m with
  | nil => exact List.Perm.refl _
  | cons e m ih =>
    simp only [List.map_cons, List.mem_cons, not_or] at h
    obtain ⟨hne, hm⟩ := h
    unfold mapWrite
    rw [if_neg (Ne.symm hne)]
    split
    · exact List.Perm.refl _
    · exact ((ih hm).cons e).trans (List.Perm.swap _ _ _)

theorem mapFind_of_mem {e : κ × ν} {m : List (κ × ν)} (hnodup : (m.map Prod.fst).Nodup) (h : e ∈ m) :
    mapFind e.1 m = some e.2 := by
  induction m with
  | nil => cases h
  | cons a m ih =>
    simp only [List.map_cons, List.nodup_cons] at hnodup
    obtain ⟨ha, hm⟩ := hnodup
    unfold mapFind
    obtain rfl | h := List.mem_cons.1 h
    · rw [if_pos rfl]
    · have hne : a.1 ≠ e.1 := fun hae => ha (hae ▸ List.mem_map_of_mem h)
      rw [if_neg hne]
      exact ih hm h

end

/-- ENC and DEC hold exactly the pairs `cs`, each way round. -/
def HoldsCodes (cs : List (Symbol × Code)) (p : Persistent) : Prop :=
  p.mem.enc.Perm cs ∧ p.mem.dec.Perm (cs.map Prod.swap)

/-- Recording a new symbol under a new code adds the pair. -/
theorem recordCode_holdsCodes {cs : List (Symbol × Code)} {s : State} (h : HoldsCodes cs s.per) {p : Symbol × Code}
    (hsym : p.1 ∉ cs.map Prod.fst) (hcode : p.2 ∉ cs.map Prod.snd) :
    HoldsCodes (cs ++ [p]) (recordCode p.1 p.2 s).per := by
  obtain ⟨henc, hdec⟩ := h
  have hsym' : p.1 ∉ s.per.mem.enc.map Prod.fst := by rwa [(henc.map Prod.fst).mem_iff]
  have hcode' : p.2 ∉ s.per.mem.dec.map Prod.fst := by
    rw [(hdec.map Prod.fst).mem_iff]
    simpa [Function.comp_def] using hcode
  constructor
  · exact (mapWrite_perm_new _ _ hsym').trans ((henc.cons p).trans (List.perm_append_singleton _ _).symm)
  · rw [List.map_append]
    exact (mapWrite_perm_new _ _ hcode').trans ((hdec.cons p.swap).trans (List.perm_append_singleton _ _).symm)

/-- The Leaf actions add their pairs. -/
theorem recordLeaves_holdsCodes {cs ds : List (Symbol × Code)} {s : State} (h : HoldsCodes ds s.per)
    (hsym : ((ds ++ cs).map Prod.fst).Nodup) (hcode : ((ds ++ cs).map Prod.snd).Nodup) :
    HoldsCodes (ds ++ cs) (recordLeaves cs s).per := by
  induction cs generalizing ds s with
  | nil => rwa [List.append_nil]
  | cons p cs ih =>
    have hnew : HoldsCodes (ds ++ [p]) (leafAction p.1 p.2 s).per := by
      refine recordCode_holdsCodes h ?_ ?_
      · rw [List.map_append] at hsym
        exact fun hmem => (List.nodup_append.1 hsym).2.2 _ hmem _ List.mem_cons_self rfl
      · rw [List.map_append] at hcode
        exact fun hmem => (List.nodup_append.1 hcode).2.2 _ hmem _ List.mem_cons_self rfl
    rw [List.append_cons] at hsym hcode ⊢
    exact ih hnew hsym hcode

theorem recordLeaves_codes {T : HTree} {path : Code} {s : State} (h : HoldsCodes [] s.per)
    (hsym : (T.leaves.map FtEntry.sym).Nodup) :
    HoldsCodes (T.codes path) (recordLeaves (T.codes path) s).per :=
  recordLeaves_holdsCodes h (by rwa [List.nil_append, HTree.codes_map_fst])
    (nodup_codes_of_apart (HTree.codes_apart T path))

theorem longestCode_perm {cs ds : List (Symbol × Code)} (h : cs.Perm ds) : longestCode cs = longestCode ds :=
  h.foldr_eq' (fun a _ b _ n => max_left_comm b.2.length a.2.length n) 0

/-- The Leaf actions raise HEIGHT to the longest path (rule R166). -/
theorem recordLeaves_height (cs : List (Symbol × Code)) (s : State) :
    (recordLeaves cs s).per.height = max s.per.height (longestCode cs) := by
  induction cs generalizing s with
  | nil => exact (Nat.max_zero _).symm
  | cons p cs ih =>
    rw [recordLeaves_cons, ih]
    exact max_assoc _ _ _

/-- HEIGHT at the end of the CA stage: 0 for a single Leaf, else the longest code (rules R164, R166). -/
def HTree.height : HTree → Nat
  | .leaf _ => 0
  | .branch l r => longestCode (HTree.branch l r).assigned

/-- A CA stage that does not fault records the codes of the tree and its height. -/
theorem caStage_codes {s t : State} {T : HTree} (h : caStage s = .ok t) (hT : Carries s.per.mem.node s.per.root T)
    (hsym : (T.leaves.map FtEntry.sym).Nodup) : HoldsCodes T.assigned t.per ∧ t.per.height = T.height := by
  have hempty : HoldsCodes [] (startWalk s).per := ⟨List.Perm.refl _, List.Perm.refl _⟩
  cases T with
  | leaf e =>
    obtain ⟨x, f, hroot, rfl⟩ | ⟨f, l, r, hroot, -⟩ := caStage_cases h
    · obtain ⟨rfl, rfl⟩ : x = e.sym ∧ f = e.count := by simpa using hroot.symm.trans hT
      exact ⟨recordCode_holdsCodes (p := (e.sym, forcedCode)) hempty (by simp) (by simp), rfl⟩
    · cases hroot.symm.trans hT
  | branch l r =>
    obtain ⟨x, f, hroot, rfl⟩ | ⟨f, a, b, -, hwalk⟩ := caStage_cases h
    · obtain ⟨a, b, hroot', -, -⟩ := hT
      cases hroot.symm.trans hroot'
    · have hT' : Carries (startWalk s).per.mem.node s.per.root (.branch l r) := hT
      obtain ⟨last, rfl⟩ := walk_eq_recordLeaves hT' hwalk
      refine ⟨recordLeaves_codes hempty hsym, ?_⟩
      rw [setPath_per, recordLeaves_height]
      exact Nat.zero_max _

/-! #### The invariants after a BUILD (rule R42) -/

/-- ENC and DEC are inverses of each other when they hold pairs of different symbols and different codes. -/
theorem HoldsCodes.mapsOk {cs : List (Symbol × Code)} {p : Persistent} (h : HoldsCodes cs p)
    (hsym : (cs.map Prod.fst).Perm (p.mem.ft.map FtEntry.sym)) (hnodup : (p.mem.ft.map FtEntry.sym).Nodup)
    (hcode : (cs.map Prod.snd).Nodup) (hnsym : p.nsym = p.mem.ft.length) : mapsOk p := by
  obtain ⟨henc, hdec⟩ := h
  have hlen : cs.length = p.nsym := by simpa [hnsym] using hsym.length_eq
  have hkeys : (p.mem.enc.map Prod.fst).Nodup := ((henc.map _).trans hsym).nodup_iff.2 hnodup
  have hkeys' : (p.mem.dec.map Prod.fst).Nodup := by
    rw [(hdec.map Prod.fst).nodup_iff]
    simpa [Function.comp_def] using hcode
  refine ⟨henc.length_eq.trans hlen, ?_, fun e he => ?_, fun e he => ?_, fun e he => ?_⟩
  · simpa [hlen] using hdec.length_eq
  · have hmem : e.sym ∈ p.mem.enc.map Prod.fst := ((henc.map _).trans hsym).mem_iff.2 (List.mem_map_of_mem he)
    obtain ⟨q, hq, hqe⟩ := List.mem_map.1 hmem
    rw [← hqe, mapFind_of_mem hkeys hq]
    rfl
  · have hmem : e.swap ∈ p.mem.dec := hdec.mem_iff.2 (List.mem_map_of_mem (henc.mem_iff.1 he))
    exact mapFind_of_mem hkeys' hmem
  · obtain ⟨q, hq, rfl⟩ := List.mem_map.1 (hdec.mem_iff.1 he)
    exact mapFind_of_mem hkeys (henc.mem_iff.2 hq)

theorem HoldsCodes.codesOk {T : HTree} {p : Persistent} (h : HoldsCodes T.assigned p) : codesOk p := by
  obtain ⟨henc, -⟩ := h
  refine ⟨fun e he => HTree.assigned_ne_nil (henc.mem_iff.1 he), fun a ha b hb hne => ?_⟩
  have := apart_symm
  have hapart : Apart a b := T.assigned_apart.forall (henc.mem_iff.1 ha) (henc.mem_iff.1 hb)
    fun hab => hne (hab ▸ rfl)
  rw [Bool.eq_false_iff, ne_eq, List.isPrefixOf_iff_prefix]
  exact hapart.1

theorem HoldsCodes.pathsOk {T : HTree} {p : Persistent} (h : HoldsCodes T.assigned p)
    (hT : Carries p.mem.node p.root T) (hheight : p.height = T.height) (hnsym : p.nsym = T.leaves.length) :
    pathsOk p := by
  obtain ⟨henc, -⟩ := h
  cases T with
  | leaf e =>
    have hone : p.nsym = 1 := hnsym
    refine ⟨fun htwo => by omega, fun _ => ⟨hheight, fun q hq => ?_⟩⟩
    obtain rfl : q = (e.sym, forcedCode) := by simpa [HTree.assigned] using henc.mem_iff.1 hq
    rfl
  | branch l r =>
    have htwo : 2 ≤ p.nsym := by
      have hl := l.leaves_length_pos
      have hr := r.leaves_length_pos
      rw [hnsym, HTree.leaves, List.length_append]
      omega
    refine ⟨fun _ => ⟨fun q hq => HTree.leadsTo_of_mem_codes hT (henc.mem_iff.1 hq), ?_⟩, fun hone => by omega⟩
    rw [hheight, longestCode_perm henc]
    rfl

theorem tableOf_ftOk {c : Config} {text : List Symbol} {p : Persistent} (hft : p.mem.ft = tableOf text)
    (hnsym : p.nsym = (tableOf text).length) (hpos : p.nsym ≠ 0) (hfit : itemsFit c text = true) : ftOk c p := by
  refine ⟨Nat.one_le_iff_ne_zero.2 hpos, by rw [hft, hnsym], ?_, fun e he => ?_⟩
  · rw [hft, tableOf_map_sym]
    exact nodup_eraseDups text
  · rw [hft] at he
    obtain ⟨x, hx, rfl⟩ := List.mem_map.1 he
    have hmem : x ∈ text := List.mem_eraseDups.1 hx
    exact ⟨List.count_pos_iff.2 hmem, List.all_eq_true.1 hfit x hmem⟩

/-- What a BUILD of a text leaves meets the invariants of rule R42. -/
theorem buildStages_builtOk {c : Config} {text : List Symbol} {s t : State} (h : buildStages text s = .ok t)
    (hnode : s.per.mem.node = []) (hfit : itemsFit c text = true) : builtOk c t.per := by
  obtain ⟨s₁, hhtb, hca⟩ := buildStages_cases h
  obtain ⟨hft, hnsym⟩ := ftStage_holdsTable text s
  have hnode' : (ftStage text s).per.mem.node = [] := by rw [ftStage_frame]; exact hnode
  have hpos : s₁.per.nsym ≠ 0 := by rw [htbStage_frame hhtb]; exact (htbStage_cases hhtb).1
  have htree : treeOk s₁.per := htbStage_treeOk hhtb hnode' (by rw [hft, hnsym])
  obtain ⟨T, hT⟩ := htbStage_holdsTree hhtb hnode'
  have hft₁ : s₁.per.mem.ft = tableOf text := by rw [htbStage_frame hhtb]; exact hft
  have hnsym₁ : s₁.per.nsym = (tableOf text).length := by rw [htbStage_frame hhtb]; exact hnsym
  have hftOk : ftOk c s₁.per := tableOf_ftOk hft₁ hnsym₁ hpos hfit
  have ⟨_, hlen, hnodup, _⟩ := hftOk
  have hsyms : (T.leaves.map FtEntry.sym).Perm (s₁.per.mem.ft.map FtEntry.sym) := hT.leaves.map _
  have hfreq : frequencyOk s₁.per := by
    obtain ⟨v, hv, hvT⟩ := hT.carries.root
    exact (freqAt_of_getElem? hv).trans (hvT.trans (hT.leaves.map _).sum_eq)
  obtain ⟨hcodes, hheight⟩ := caStage_codes hca hT.carries (hsyms.nodup_iff.2 hnodup)
  have hcodesNodup : (T.assigned.map Prod.snd).Nodup := nodup_codes_of_apart T.assigned_apart
  have hframe := caStage_frame hca
  have hassigned : (T.assigned.map Prod.fst).Perm (t.per.mem.ft.map FtEntry.sym) := by
    rw [hframe, HTree.assigned_map_fst]
    exact hsyms
  refine ⟨?_, ?_, ?_, hcodes.mapsOk hassigned ?_ hcodesNodup ?_, hcodes.codesOk, hcodes.pathsOk ?_ hheight ?_⟩ <;>
    rw [hframe]
  · exact hftOk
  · exact htree
  · exact hfreq
  · exact hnodup
  · exact hlen.symm
  · exact hT.carries
  · rw [hT.leaves.length_eq]
    exact hlen.symm

/-- The stages of BUILD leave VALID and the statistics as they are. -/
theorem buildStages_stats {text : List Symbol} {s t : State} (h : buildStages text s = .ok t) :
    t.per.skipcount = s.per.skipcount ∧ t.per.bitcount = s.per.bitcount ∧ t.per.symcount = s.per.symcount := by
  obtain ⟨s₁, hhtb, hca⟩ := buildStages_cases h
  rw [caStage_frame hca, htbStage_frame hhtb, ftStage_frame]
  exact ⟨rfl, rfl, rfl⟩

/-! #### The invariants after any step -/

theorem Effect.keeps_statsOk {s t : State} (h : Effect s t) (hs : statsOk s.cfg s.per) : statsOk s.cfg t.per := by
  cases h with
  | status per => rw [per]; exact hs
  | stats _ ok _ => exact ok
  | empty per => rw [per]; exact reset_statsOk s.cfg
  | built _ _ s₁ _ _ stages done =>
    obtain ⟨hskip, hbits, hsyms⟩ := buildStages_stats stages
    have hzero : statsOk s.cfg s₁.per := by
      unfold statsOk
      rw [hskip, hbits, hsyms]
      exact reset_statsOk s.cfg
    rw [done]
    exact hzero

theorem Effect.keeps_builtOk {s t : State} (h : Effect s t) (hs : s.per.valid = true → builtOk s.cfg s.per)
    (ht : t.per.valid = true) : builtOk s.cfg t.per := by
  cases h with
  | status per =>
    have hvalid : s.per.valid = true := by rw [per] at ht; exact ht
    rw [per]
    exact hs hvalid
  | stats valid _ per => rw [per]; exact hs valid
  | empty per => rw [per] at ht; exact Bool.noConfusion ht
  | built _ s₀ s₁ _ fits stages done =>
    have hbuilt : builtOk s.cfg s₁.per := buildStages_builtOk stages rfl fits
    rw [done]
    exact hbuilt

/-- Settles O57: each of the ways in which a step writes the persistent state keeps each part of the invariant; only a
BUILD makes a new tree. -/
theorem stepKeepsInvariant : Obligations.StepKeepsInvariant := by
  rintro s t ⟨hwf, hstats, hbuilt, hempty⟩ h
  have heffect := step_effect h
  have hcfg : t.cfg = s.cfg := stepKeepsParameters s t h
  unfold State.Inv
  rw [hcfg]
  exact ⟨heffect.keeps_wf hwf, heffect.keeps_statsOk hstats, heffect.keeps_builtOk hbuilt, heffect.keeps_emptyOk hempty⟩

end Sys2Proof.Machine

/-! ### The state reset leaves, and that no result depends on the transients (rule R44) -/

namespace Sys2Proof.Machine

/-! #### BUILD reads its text alone (rules R153, R176) -/

/-- The state `b` with what the stages of BUILD read taken from `s`: the tables, the registers but STATUS, PQ and SEQ. -/
def graft (s b : State) : State :=
  { b with
    per := { s.per with status := b.per.status }
    tr := { b.tr with pq := s.tr.pq, seq := s.tr.seq } }

theorem ftStep_graft (s b : State) (x : Symbol) : ftStep (graft s b) x = graft (ftStep s x) b := by
  have hfind : ftFind x (graft s b) = ftFind x s := rfl
  unfold ftStep
  rw [hfind]
  split <;> rfl

theorem ftStage_graft (text : List Symbol) (s b : State) :
    ftStage text (graft s b) = graft (ftStage text s) b :=
  List.foldl_hom (graft · b) (init := ftClear s) fun s x => ftStep_graft s b x

theorem seedStage_graft (s b : State) : seedStage (graft s b) = graft (seedStage s) b :=
  List.foldl_hom (graft · b) (l := s.per.mem.ft) (init := pqClear s) fun _ _ => rfl

theorem pqExtract_graft {s s₁ : State} {e : PqEntry} (h : pqExtract s = some (e, s₁)) (b : State) :
    pqExtract (graft s b) = some (e, graft s₁ b) := by
  obtain ⟨rest, htake, rfl⟩ := pqExtract_spec h
  have htake' : pqTake (graft s b).tr.pq = some (e, rest) := htake
  rw [pqExtract, htake']
  rfl

theorem mergeNodes_graft {x y : PqEntry} {s t : State} (h : mergeNodes x y s = .ok t) (b : State) :
    mergeNodes x y (graft s b) = .ok (graft t b) := by
  obtain ⟨vx, vy, hx, hy, rfl⟩ := mergeNodes_cases h
  have hx' : nodeRead x.id (graft s b) = some vx := hx
  have hy' : nodeRead y.id (graft s b) = some vy := hy
  rw [mergeNodes, hx', hy']
  rfl

theorem mergeStep_graft {s t : State} (h : mergeStep s = .ok t) (b : State) :
    mergeStep (graft s b) = .ok (graft t b) := by
  obtain ⟨x, y, s₁, s₂, hx, hy, hmerge⟩ := mergeStep_cases h
  simp only [mergeStep, pqExtract_graft hx, pqExtract_graft hy, mergeNodes_graft hmerge]

theorem mergeLoop_graft {k : Nat} {s t : State} (h : mergeLoop k s = .ok t) (b : State) :
    mergeLoop k (graft s b) = .ok (graft t b) := by
  induction k generalizing s with
  | zero => cases h; rfl
  | succ k ih =>
    have hpq : (graft s b).tr.pq = s.tr.pq := rfl
    rw [mergeLoop_succ, hpq]
    obtain ⟨hle, rfl⟩ | ⟨hlt, s₁, hstep, hrest⟩ := mergeLoop_cases h
    · rw [if_neg (Nat.not_lt.2 hle)]
    · simp only [if_pos hlt, mergeStep_graft hstep, ih hrest]

theorem htbStage_graft {s t : State} (h : htbStage s = .ok t) (b : State) :
    htbStage (graft s b) = .ok (graft t b) := by
  obtain ⟨hnsym, s₁, hloop, hroot⟩ := htbStage_cases h
  obtain ⟨r, hpq, rfl⟩ := takeRoot_cases hroot
  have hnsym' : (graft s b).per.nsym = s.per.nsym := rfl
  have hpq' : (graft s₁ b).tr.pq = [r] := hpq
  rw [htbStage, hnsym', if_neg hnsym, seedStage_graft, mergeLoop_graft hloop b]
  simp only [takeRoot, hpq']
  rfl

/-- A walk finds the same codes, and leaves some path in PATH. -/
theorem walk_graft {fuel id : Nat} {path : Code} {s t : State} (h : walk fuel id path s = .ok t) (b : State) :
    ∃ last, walk fuel id path (graft s b) = .ok (setPath last (graft t b)) := by
  induction fuel generalizing id path s t b with
  | zero => cases h
  | succ k ih =>
    have hread : nodeRead id (setPath path (graft s b)) = nodeRead id s := rfl
    obtain ⟨k', hk, ⟨x, f, hx, rfl⟩ | ⟨f, l, r, s₁, hx, hl, hr⟩⟩ := walk_cases h
    · refine ⟨path, ?_⟩
      rw [walk, hread, hx]
      rfl
    · cases hk
      obtain ⟨lastl, hl'⟩ := ih hl (setPath path b)
      obtain ⟨lastr, hr'⟩ := ih hr (setPath lastl (setPath path b))
      have hstart : setPath path (graft s b) = graft (setPath path s) (setPath path b) := rfl
      have hmid : setPath lastl (graft s₁ (setPath path b)) = graft s₁ (setPath lastl (setPath path b)) := rfl
      refine ⟨lastr, ?_⟩
      simp only [walk, hread, hx]
      rw [hstart, hl']
      simp only [hmid, hr']
      rfl

theorem caStage_graft {s t : State} (h : caStage s = .ok t) (b : State) :
    ∃ t', caStage (graft s b) = .ok t' ∧ t'.per = { t.per with status := b.per.status } := by
  have hread : nodeRead (graft s b).per.root (graft s b) = nodeRead s.per.root s := rfl
  obtain ⟨x, f, hx, rfl⟩ | ⟨f, l, r, hx, hwalk⟩ := caStage_cases h
  · refine ⟨recordCode x forcedCode (startWalk (graft s b)), ?_, rfl⟩
    rw [caStage, hread, hx]
  · obtain ⟨last, hwalk'⟩ := walk_graft hwalk (setPath [] (setStack [] b))
    refine ⟨setPath last (graft t (setPath [] (setStack [] b))), ?_, rfl⟩
    rw [caStage, hread, hx]
    exact hwalk'

/-- The HTB stage empties PQ and SEQ before it reads them (rule R141). -/
theorem buildStages_pqClear (text : List Symbol) (s : State) :
    buildStages text (pqClear s) = buildStages text s := by
  have hft : ftStage text (pqClear s) = pqClear (ftStage text s) := by
    rw [ftStage_frame, ftStage_frame text s]
    obtain ⟨hft, hnsym⟩ := ftStage_holdsTable text s
    obtain ⟨hft', hnsym'⟩ := ftStage_holdsTable text (pqClear s)
    rw [hft, hnsym, hft', hnsym']
    rfl
  rw [buildStages, hft]
  rfl

/-- After the discard the stages give the same tables and registers, but STATUS, from every state. -/
theorem buildStages_discard {text : List Symbol} {s t : State} (h : buildStages text (discard s) = .ok t) (s' : State) :
    ∃ t', buildStages text (discard s') = .ok t' ∧ t'.per = { t.per with status := s'.per.status } := by
  rw [← buildStages_pqClear] at h ⊢
  have hstart : pqClear (discard s') = graft (pqClear (discard s)) s' := rfl
  obtain ⟨s₁, hhtb, hca⟩ := buildStages_cases h
  obtain ⟨t', hca', hper⟩ := caStage_graft hca s'
  refine ⟨t', ?_, hper⟩
  simp only [hstart, buildStages, ftStage_graft, htbStage_graft hhtb, hca']

theorem buildStages_out {text : List Symbol} {s t : State} (h : buildStages text s = .ok t) : t.out = s.out := by
  obtain ⟨s₁, hhtb, hca⟩ := buildStages_cases h
  rw [caStage_frame hca, htbStage_frame hhtb, ftStage_frame]

/-! #### The commands with an admitted operand, forwards -/

section
variable {s : State}

theorem execBuild_of_nil (htext : textOperand s.cfg s.inp = .ok []) :
    execBuild s = .next (buildFailed (discard (startCommand s))) := by
  simp [execBuild, htext, buildText]

theorem execBuild_of_stages {text : List Symbol} {s₁ : State} (htext : textOperand s.cfg s.inp = .ok text)
    (hne : text ≠ []) (hstages : buildStages text (discard (startCommand s)) = .ok s₁) :
    execBuild s = .next (buildDone s₁) := by
  simp [execBuild, htext, buildText, hne, hstages]

theorem execCompress_of_not_valid {text : List Symbol} (htext : textOperand s.cfg s.inp = .ok text)
    (hvalid : s.per.valid = false) : execCompress s = .next (compressNoTree (startCommand s)) := by
  simp [execCompress, htext, compressText, hvalid]

theorem execCompress_of_valid {text : List Symbol} (htext : textOperand s.cfg s.inp = .ok text)
    (hvalid : s.per.valid = true) (hbits : within s.cfg.maxBits (text.flatMap (codeOrNothing s)).length = true) :
    execCompress s = .next (compressDone (text.foldl compressStep (zeroStats (startCommand s)))) := by
  rw [← compressLoop_bitcount] at hbits
  simp [execCompress, htext, compressText, hvalid, hbits]

theorem execDecompress_of_digits {bits : List Digit} (hbits : digitsOperand s.cfg s.inp = .ok bits) :
    execDecompress s = .next (decompressDigits bits (startCommand s)) := by
  simp [execDecompress, hbits]

theorem query_of_symbol {answer : Symbol → State → Response} {x : Symbol} (hx : symbolOperand s.cfg s.inp = .ok x) :
    query answer s = .next (respond (answer x s) (startCommand s)) := by
  simp [query, hx]

end

/-! #### No result depends on the transients -/

/-- The outcome `r` is a next state with the result of `t`: its persistent state, what is on OUT, and the response. -/
def GivesResult (t : State) (r : Host.Outcome State Fault Refusal) : Prop :=
  ∃ t', r = .next t' ∧ t'.per = t.per ∧ t'.out = t.out ∧ t'.resp = t.resp

/-- BUILDs of one text have one result, whatever the states they start from (rules R153, R176). -/
theorem execBuild_givesResult {s s' t : State} (h : execBuild s = .next t)
    (hop : textOperand s'.cfg s'.inp = textOperand s.cfg s.inp) : GivesResult t (execBuild s') := by
  obtain ⟨text, htext, ⟨rfl, rfl⟩ | ⟨hne, s₁, hstages, rfl⟩⟩ := execBuild_cases h
  · exact ⟨_, execBuild_of_nil (hop.trans htext), rfl, rfl, rfl⟩
  · obtain ⟨s₁', hstages', hper⟩ := buildStages_discard hstages (startCommand s')
    refine ⟨_, execBuild_of_stages (hop.trans htext) hne hstages', ?_, ?_, rfl⟩
    · simp only [buildDone, respondBuild, respond_per, setStatus, setValid, hper]
    · exact (buildStages_out hstages').trans (buildStages_out hstages).symm

section
variable {s t : State} (tr : Transient)

theorem execCompress_givesResult (h : execCompress s = .next t) : GivesResult t (execCompress { s with tr := tr }) := by
  obtain ⟨text, htext, ⟨hvalid, rfl⟩ | ⟨hvalid, rfl, hbits⟩⟩ := execCompress_cases h
  · exact ⟨_, execCompress_of_not_valid (s := { s with tr := tr }) htext hvalid, rfl, rfl, rfl⟩
  · rw [compressLoop_bitcount] at hbits
    refine ⟨_, execCompress_of_valid (s := { s with tr := tr }) htext hvalid hbits, ?_⟩
    rw [compressDone_loop, compressDone_loop]
    exact ⟨rfl, rfl, rfl⟩

/-- DECOMPRESS empties BUF before it reads it (rule R207). -/
theorem execDecompress_givesResult (h : execDecompress s = .next t) :
    GivesResult t (execDecompress { s with tr := tr }) := by
  obtain ⟨bits, hbits, rfl⟩ := execDecompress_cases h
  refine ⟨_, execDecompress_of_digits (s := { s with tr := tr }) hbits, ?_⟩
  cases hvalid : s.per.valid with
  | false =>
    rw [decompressDigits_of_not_valid (s := startCommand s) hvalid,
      decompressDigits_of_not_valid (s := startCommand { s with tr := tr }) hvalid]
    exact ⟨rfl, rfl, rfl⟩
  | true =>
    rw [decompressDigits_of_valid (s := startCommand s) hvalid,
      decompressDigits_of_valid (s := startCommand { s with tr := tr }) hvalid]
    exact ⟨rfl, rfl, rfl⟩

theorem query_givesResult {answer : Symbol → State → Response}
    (hanswer : ∀ x, answer x { s with tr := tr } = answer x s) (h : query answer s = .next t) :
    GivesResult t (query answer { s with tr := tr }) := by
  obtain ⟨x, hx, rfl⟩ := query_cases h
  refine ⟨_, query_of_symbol (s := { s with tr := tr }) hx, rfl, rfl, ?_⟩
  rw [respond_resp, hanswer, respond_resp]

end

/-- Settles O6: reset and CLEAR both leave the empty state, and each command initialises a transient before it reads it. -/
theorem resetStateValues : Obligations.ResetStateValues := by
  refine ⟨fun c => ⟨rfl, rfl, fun s t h => by cases h; rfl⟩, fun i s t tr h => ?_⟩
  cases i with
  | build => exact execBuild_givesResult h rfl
  | compress => exact execCompress_givesResult tr h
  | decompress => exact execDecompress_givesResult tr h
  | clear => cases h; exact ⟨_, rfl, rfl, rfl, rfl⟩
  | qfreq => exact query_givesResult (answer := fun x s => .qfreq (freqAnswer x s)) tr (fun _ => rfl) h
  | qcode => exact query_givesResult (answer := codeAnswer) tr (fun _ => rfl) h
  | qmember => exact query_givesResult (answer := memberAnswer) tr (fun _ => rfl) h

end Sys2Proof.Machine

/-! ### The query operand that is not one symbol (rule R63, U10) -/

namespace Sys2Proof.Machine

/-- A query operand with no symbol, or with two or more, is refused whatever its items are. -/
theorem symbolOperand_notOneSymbol {c : Config} {op : Operand} {text : List Symbol} (ht : asText op = some text)
    (hlen : text.length ≠ 1) : symbolOperand c op = .error .notOneSymbol := by
  match text with
  | [] => simp [symbolOperand, ht]
  | [_] => exact absurd rfl hlen
  | _ :: _ :: _ => simp [symbolOperand, ht]

theorem query_refused {answer : Symbol → State → Response} {s : State} {r : Refusal}
    (h : symbolOperand s.cfg s.inp = .error r) : query answer s = .refused r := by
  simp [query, h]

/-- Settles O12: the three queries share one operand form, which refuses any length but one. -/
theorem queryOfOtherLengthRefused : Obligations.QueryOfOtherLengthRefused := by
  intro s text ht hlen
  have hop : symbolOperand s.cfg s.inp = .error .notOneSymbol := symbolOperand_notOneSymbol ht hlen
  exact ⟨query_refused (answer := fun x s => .qfreq (freqAnswer x s)) hop,
    query_refused (answer := codeAnswer) hop, query_refused (answer := memberAnswer) hop⟩

end Sys2Proof.Machine

/-! ### Command words (rules R90, R91, R94) -/

namespace Sys2Proof

/-- The opcode map names a command at its opcode and nowhere else (rule R91). -/
theorem opcodeMap_eq_some {op : BitVec 4} {i : Instr} : opcodeMap op = some i ↔ op = opcodeOf i := by
  constructor
  · intro h
    unfold opcodeMap at h
    split at h <;> cases h <;> exact BitVec.eq_of_toNat_eq ‹_›
  · rintro rfl
    cases i <;> rfl

/-- The opcodes of the map are `0x1` to `0x7` (rule R91). -/
theorem exists_opcodeMap_iff (op : BitVec 4) : (∃ i, opcodeMap op = some i) ↔ 1 ≤ op.toNat ∧ op.toNat ≤ 7 := by
  rw [← Option.isSome_iff_exists]
  revert op
  decide

/-- A word decodes to a command when its `RSV` is 0 and the opcode map has its `OP` (rules R90, R94). -/
theorem decode_eq_ok {w : CommandWord} {i : Instr} :
    decode w = .ok i ↔ rsvField w = 0#4 ∧ opcodeMap (opField w) = some i := by
  unfold decode
  split
  · next hrsv => cases opcodeMap (opField w) <;> simp [hrsv]
  · next hrsv => simp [hrsv]

/-- A word is its two fields, `RSV` above `OP` (rule R90). -/
theorem rsvField_append_opField (w : CommandWord) : rsvField w ++ opField w = w := by
  calc w.extractLsb' 4 4 ++ w.extractLsb' 0 4 = w.extractLsb' 0 8 :=
        BitVec.extractLsb'_append_extractLsb'_eq_extractLsb' rfl
    _ = w := BitVec.extractLsb'_eq_self

theorem decode_encode (i : Instr) : decode (encode i) = .ok i := by
  cases i <;> rfl

theorem eq_encode_of_decode {w : CommandWord} {i : Instr} (h : decode w = .ok i) : w = encode i := by
  obtain ⟨hrsv, hop⟩ := decode_eq_ok.1 h
  calc w = rsvField w ++ opField w := (rsvField_append_opField w).symm
    _ = encode i := by rw [hrsv, opcodeMap_eq_some.1 hop, encode]

/-- The legal words (rule R94). -/
theorem exists_decode_iff (w : CommandWord) :
    (∃ i, decode w = .ok i) ↔ rsvField w = 0#4 ∧ 1 ≤ (opField w).toNat ∧ (opField w).toNat ≤ 7 := by
  simp only [decode_eq_ok, exists_and_left, exists_opcodeMap_iff]

/-- Settles O1: each of the seven words is the encoding of its command. -/
theorem opcodeMapDecodes : Obligations.OpcodeMapDecodes :=
  ⟨decode_encode .build, decode_encode .compress, decode_encode .decompress, decode_encode .clear,
    decode_encode .qfreq, decode_encode .qcode, decode_encode .qmember⟩

/-- Settles O2: a legal word has `RSV = 0` and the opcode of the command it decodes to, which is how a command is
encoded. -/
theorem decodeEncodeAgree : Obligations.DecodeEncodeAgree :=
  ⟨decode_encode, fun _ _ => eq_encode_of_decode⟩

end Sys2Proof

namespace Sys2Proof.Machine

theorem legalWord_reserved {s : State} {w : CommandWord} (hbusy : s.busy = false) (hw : ¬ ∃ i, decode w = .ok i) :
    legalWord w s = .error (.reservedWord w) := by
  cases hdec : decode w with
  | error e => simp [legalWord, hbusy, hdec]
  | ok i => exact absurd ⟨i, hdec⟩ hw

theorem fetch_issueOpen {s : State} {w : CommandWord} {op : Operand} {rest : List HostAction}
    (h : s.host = .issueOpen w op :: rest) : fetch s = fetchOpen w op rest s := by
  simp [fetch, h]

/-- A reserved word is refused before its operand is looked at (rule R94). -/
theorem fetch_reserved {s : State} {w : CommandWord} {op : Operand} {rest : List HostAction}
    (hlegal : legalWord w s = .error (.reservedWord w))
    (hhost : s.host = .issue w op :: rest ∨ s.host = .issueOpen w op :: rest) :
    fetch s = .refuse (.reservedWord w) := by
  obtain hissue | hopen := hhost
  · rw [fetch_issue hissue, fetchWhole, hlegal]
  · rw [fetch_issueOpen hopen, fetchOpen, hlegal]

/-- Settles O3: a word that is not legal decodes to no command, so the fetch refuses it; the count runs through all 256
words. -/
theorem reservedWordsRefused : Obligations.ReservedWordsRefused := by
  refine ⟨exists_decode_iff, by decide +kernel, fun s w op rest hw hbusy hhost => ?_⟩
  have hlegal : legalWord w s = .error (.reservedWord w) := legalWord_reserved hbusy (mt (exists_decode_iff w).1 hw)
  exact step_of_refuse (fetch_reserved hlegal hhost)

end Sys2Proof.Machine

/-! ### Packed keys and packed codes (rules R102, R104) -/

namespace Sys2Proof.Machine

/-- A smaller frequency makes a smaller packed key, whatever the sequence numbers of `w` bits are. -/
theorem keyPacked_lt_of_freq_lt {w : Nat} {a b : PqEntry} (ha : a.seq < 2 ^ w) (h : a.freq < b.freq) :
    keyPacked w a < keyPacked w b := by
  calc a.freq * 2 ^ w + a.seq < (a.freq + 1) * 2 ^ w := by rw [Nat.succ_mul]; exact Nat.add_lt_add_left ha _
    _ ≤ b.freq * 2 ^ w := Nat.mul_le_mul_right _ h
    _ ≤ b.freq * 2 ^ w + b.seq := Nat.le_add_right _ _

/-- The packed keys are in the order of the keys when the sequence numbers have `w` bits (rule R102). -/
theorem keyPacked_lt_iff {w : Nat} {a b : PqEntry} (ha : a.seq < 2 ^ w) (hb : b.seq < 2 ^ w) :
    keyPacked w a < keyPacked w b ↔ keyLt a b = true := by
  rw [keyLt_iff]
  obtain hlt | heq | hgt := Nat.lt_trichotomy a.freq b.freq
  · exact iff_of_true (keyPacked_lt_of_freq_lt ha hlt) (.inl hlt)
  · simp [keyPacked, heq]
  · exact iff_of_false (keyPacked_lt_of_freq_lt hb hgt).asymm (by omega)

/-- Settles O17: keys are compared by frequency, then by sequence number, and packing keeps that order. -/
theorem keyOrderIsTotalAndPacked : Obligations.KeyOrderIsTotalAndPacked := by
  refine ⟨keyLt_iff, fun a b hseq => ⟨keyLt_asymm, fun hba => ?_⟩, fun _ _ _ => keyLt_trans,
    fun _ _ _ => keyPacked_lt_iff⟩
  exact (keyLt_total hseq).resolve_right (Bool.eq_false_iff.1 hba)

/-- A further digit becomes the lowest bit. -/
theorem packedBits_concat (c : Code) (d : Digit) : packedBits (c ++ [d]) = Nat.bit d (packedBits c) := by
  rw [packedBits, List.foldl_append, Nat.bit_val]
  rfl

/-- Digit `i` of a code of length `L` is bit `L−1−i` of its packed view (rule R104). -/
theorem digit_eq_testBit_packedBits {code : Code} {i : Nat} (h : i < code.length) :
    code[i]? = some ((packedBits code).testBit (code.length - 1 - i)) := by
  induction code using List.reverseRecOn with
  | nil => cases h
  | append_singleton code d ih =>
    rw [packedBits_concat, List.length_append, List.length_singleton, Nat.add_sub_cancel]
    by_cases hi : i < code.length
    · have hpos : code.length - i = (code.length - 1 - i) + 1 := by omega
      rw [List.getElem?_append_left hi, hpos, Nat.testBit_bit_succ, ih hi]
    · have hlast : i = code.length := by
        rw [List.length_append, List.length_singleton] at h
        omega
      rw [hlast, List.getElem?_concat_length, Nat.sub_self, Nat.testBit_bit_zero]

/-- The bits from the length of the code on are 0 (rule R104). -/
theorem packedBits_lt (c : Code) : packedBits c < 2 ^ c.length := by
  induction c using List.reverseRecOn with
  | nil => exact Nat.one_pos
  | append_singleton c d ih =>
    rw [packedBits_concat, List.length_append, List.length_singleton]
    exact Nat.bit_lt_two_pow_succ_iff.2 ih

/-- Length and packed bits together identify a code (rule R104). -/
theorem code_eq_of_packedBits_eq {c d : Code} (hlen : c.length = d.length) (hbits : packedBits c = packedBits d) :
    c = d := by
  apply List.ext_getElem?
  intro i
  by_cases hi : i < c.length
  · rw [digit_eq_testBit_packedBits hi, digit_eq_testBit_packedBits (hlen ▸ hi), hlen, hbits]
  · rw [List.getElem?_eq_none (by omega), List.getElem?_eq_none (by omega)]

/-- Settles O49: each digit is its bit of the packed view, so only the length is lost in it. -/
theorem packedCodeBits : Obligations.PackedCodeBits :=
  ⟨fun _ _ => digit_eq_testBit_packedBits, packedBits_lt, rfl, fun _ _ => code_eq_of_packedBits_eq⟩

end Sys2Proof.Machine

/-! ### The codes of a BUILD are the paths to its leaves (rules R97, R98) -/

namespace Sys2Proof.Machine

/-- A BUILD of a non-empty text leaves the table of the text in FT and meets the invariants of rule R42. -/
theorem execBuild_builtOk {s t : State} {text : List Symbol} (h : execBuild s = .next t)
    (htext : asText s.inp = some text) (hne : text ≠ []) :
    t.per.mem.ft = tableOf text ∧ builtOk s.cfg t.per := by
  obtain ⟨text', hop, hend⟩ := execBuild_cases h
  obtain ⟨htext', hfit, -⟩ := textOperand_ok.1 hop
  obtain rfl : text = text' := Option.some.inj (htext.symm.trans htext')
  obtain ⟨hnil, -⟩ | ⟨-, s₁, hstages, rfl⟩ := hend
  · exact absurd hnil hne
  · have hbuilt : builtOk s.cfg s₁.per := buildStages_builtOk hstages rfl hfit
    exact ⟨(buildStages_sizedByTable hstages rfl).ft_eq, hbuilt⟩

/-- The keys of ENC are the symbols of FT (rule R42 item 5). -/
theorem enc_keys_perm {c : Config} {p : Persistent} (hft : ftOk c p) (hmaps : mapsOk p) :
    (p.mem.ft.map FtEntry.sym).Perm (p.mem.enc.map Prod.fst) := by
  obtain ⟨-, hlen, hnodup, -⟩ := hft
  obtain ⟨henc, -, hmapped, -⟩ := hmaps
  have hsub : p.mem.ft.map FtEntry.sym ⊆ p.mem.enc.map Prod.fst := fun x hx => by
    obtain ⟨e, he, rfl⟩ := List.mem_map.1 hx
    obtain ⟨code, hcode⟩ := Option.isSome_iff_exists.1 (hmapped e he)
    exact List.mem_map_of_mem (mapFind_mem hcode)
  exact (hnodup.subperm hsub).perm_of_length_le (by simp [hlen, henc])

theorem isSome_mapFind {κ ν : Type} [DecidableEq κ] {k : κ} {m : List (κ × ν)} :
    (mapFind k m).isSome = true ↔ k ∈ m.map Prod.fst := by
  rw [Option.isSome_iff_ne_none, ne_eq, mapFind_eq_none]
  simp

/-- Settles O23: after a BUILD the keys of ENC are the symbols of FT, those of the text, and from two symbols on the
invariant says that every code of ENC is a path. -/
theorem codesArePathsToLeaves : Obligations.CodesArePathsToLeaves := by
  intro s t text htext htwo h x
  have hne : text ≠ [] := by rintro rfl; simp at htwo
  obtain ⟨hft, hftOk, -, -, hmaps, -, hpaths, -⟩ := execBuild_builtOk h htext hne
  have hkeys := enc_keys_perm hftOk hmaps
  have hnsym : 2 ≤ t.per.nsym := by
    obtain ⟨-, hlen, -⟩ := hftOk
    rwa [← hlen, hft, length_tableOf]
  obtain ⟨hleads, -⟩ := hpaths hnsym
  refine ⟨?_, fun c hc => hleads _ (mapFind_mem hc)⟩
  rw [encFind, isSome_mapFind, ← hkeys.mem_iff, hft, tableOf_map_sym, List.mem_eraseDups]

end Sys2Proof.Machine

/-! ### The frequency table of a text (rules R131 to R133) -/

namespace Sys2Proof.Machine

/-- Settles O14: the loop keeps the table of the text visited so far. -/
theorem ftCountsInFirstOccurrenceOrder : Obligations.FtCountsInFirstOccurrenceOrder := by
  intro text s
  obtain ⟨hft, hnsym⟩ := ftStage_holdsTable text s
  exact ⟨hft, hnsym.trans (length_tableOf text)⟩

/-- Settles O15: every turn of the loop writes FT and NSYM alone, and with no symbol there is no turn. -/
theorem ftStageWritesFtAndNsymOnly : Obligations.FtStageWritesFtAndNsymOnly :=
  ⟨ftStage_frame, fun s => ftStage_holdsTable [] s⟩

/-- An entry of the table of a text has a symbol of the text, so at least one position. -/
theorem one_le_count_of_mem_tableOf {text : List Symbol} {e : FtEntry} (he : e ∈ tableOf text) : 1 ≤ e.count := by
  obtain ⟨x, hx, rfl⟩ := List.mem_map.1 he
  exact List.count_pos_iff.2 (List.mem_eraseDups.1 hx)

/-- Counts of at least 1 are no more than their sum. -/
theorem length_tableOf_le (text : List Symbol) : (tableOf text).length ≤ text.length := by
  have hone : ∀ n ∈ (tableOf text).map FtEntry.count, 1 ≤ n := fun n hn => by
    obtain ⟨e, he, rfl⟩ := List.mem_map.1 hn
    exact one_le_count_of_mem_tableOf he
  simpa [sum_count_tableOf] using List.card_nsmul_le_sum _ 1 hone

theorem length_tableOf_eq_zero {text : List Symbol} : (tableOf text).length = 0 ↔ text = [] := by
  constructor
  · intro hlen
    have hsum := sum_count_tableOf text
    rw [List.length_eq_zero_iff.1 hlen] at hsum
    exact List.length_eq_zero_iff.1 hsum.symm
  · rintro rfl
    rfl

/-- Settles O16: the six properties are those of the table of the text, which the stage leaves in FT whatever the state
before. -/
theorem frequencyTableProperties : Obligations.FrequencyTableProperties := by
  intro text s
  obtain ⟨hft, hnsym⟩ := ftStage_holdsTable text s
  rw [hft, hnsym]
  refine ⟨?_, fun e => one_le_count_of_mem_tableOf, sum_count_tableOf text, length_tableOf_le text,
    length_tableOf_le_nMax, length_tableOf_eq_zero, fun s' => (ftStage_holdsTable text s').1⟩
  rw [tableOf_map_sym]
  exact nodup_eraseDups text

end Sys2Proof.Machine

/-! ### The small steps of a command (rules R135, R154, R169, R180, R199, R216, R289) -/

namespace Sys2Proof.Machine

/-- From the start `e`, exactly `k` small steps lead to `m`, none of them from the end of a command. -/
inductive Reaches : Nat → Except Fault Micro → Micro → Prop where
  | here (m : Micro) : Reaches 0 (.ok m) m
  | step {k : Nat} {m m' : Micro} (running : m.work ≠ .done) (rest : Reaches k (microStep m) m') :
      Reaches (k + 1) (.ok m) m'

theorem microRun_succ {m m₁ : Micro} (h : microStep m = .ok m₁) (k : Nat) : microRun (k + 1) m = microRun k m₁ := by
  simp [microRun, h]

/-- What is reached after `k` steps is where a run of `k` steps ends, and no shorter run ends the command. -/
theorem Reaches.microRun_eq {k : Nat} {m m' : Micro} (h : Reaches k (.ok m) m') :
    microRun k m = .ok m' ∧ ∀ (j : Nat) (n : Micro), j < k → microRun j m = .ok n → n.work ≠ .done := by
  induction k generalizing m with
  | zero => cases h; exact ⟨rfl, fun j n hj => absurd hj (Nat.not_lt_zero j)⟩
  | succ k ih =>
    obtain _ | ⟨hrunning, hrest⟩ := h
    cases hstep : microStep m with
    | error f => rw [hstep] at hrest; cases hrest
    | ok m₁ =>
      obtain ⟨hend, hbefore⟩ := ih (hstep ▸ hrest)
      refine ⟨(microRun_succ hstep k).trans hend, fun j n hj hrun => ?_⟩
      cases j with
      | zero => cases hrun; exact hrunning
      | succ j =>
        rw [microRun_succ hstep] at hrun
        exact hbefore j n (Nat.lt_of_succ_lt_succ hj) hrun

/-- A last small step, to the end of a command. -/
theorem Reaches.last {m m' : Micro} (running : m.work ≠ .done) (h : microStep m = .ok m') : Reaches 1 (.ok m) m' :=
  .step running (h ▸ .here m')

/-! #### COMPRESS and DECOMPRESS (rules R199, R216) -/

/-- COMPRESS with a tree takes one step for each symbol. -/
theorem reaches_enterCompress (text : List Symbol) (s : State) :
    Reaches text.length (.ok (enterCompress text s)) ⟨.done, compressDone (text.foldl compressStep s)⟩ := by
  induction text generalizing s with
  | nil => exact .here _
  | cons x xs ih => exact .step (by simp [enterCompress]) (ih (compressStep s x))

/-- COMPRESS with no tree takes one step for each symbol it drops. -/
theorem reaches_enterCompressDrop (text : List Symbol) (s : State) :
    Reaches text.length (.ok (enterCompressDrop text s)) ⟨.done, compressNoTree s⟩ := by
  induction text with
  | nil => exact .here _
  | cons x xs ih => exact .step (by simp [enterCompressDrop]) ih

/-- DECOMPRESS with a tree takes one step for each digit and one for the test at the end. -/
theorem reaches_decompress (bits : List Digit) (s : State) :
    Reaches (bits.length + 1) (.ok ⟨.decompress bits, s⟩) ⟨.done, decompressEnd (bits.foldl digitStep s)⟩ := by
  induction bits generalizing s with
  | nil => exact .last (by simp) rfl
  | cons d ds ih => exact .step (by simp) (ih (digitStep s d))

/-- DECOMPRESS with no tree takes one step for each digit it drops and one for the end. -/
theorem reaches_decompressDrop (bits : List Digit) (s : State) :
    Reaches (bits.length + 1) (.ok ⟨.decompressDrop bits, s⟩) ⟨.done, decompressNoTree s⟩ := by
  induction bits with
  | nil => exact .last (by simp) rfl
  | cons d ds ih => exact .step (by simp) ih

/-! #### BUILD: the FT and the HTB stage (rules R135, R154)

Each stage is stated with the `k` steps that lead from its end to `m`, and adds its own steps to them. -/

section
variable {k : Nat} {m : Micro}

/-- The FT stage takes one step for each symbol. -/
theorem reaches_enterFt {text : List Symbol} {s : State}
    (h : Reaches k (enterFt [] (text.foldl ftStep s)) m) : Reaches (k + text.length) (enterFt text s) m := by
  induction text generalizing s with
  | nil => exact h
  | cons x xs ih => exact .step (by simp) (ih h)

/-- The seed step takes one step for each entry of FT. -/
theorem reaches_enterSeed {es : List FtEntry} {s : State}
    (h : Reaches k (enterMerge (es.foldl seedStep s)) m) : Reaches (k + es.length) (enterSeed es s) m := by
  induction es generalizing s with
  | nil => exact h
  | cons e es ih => exact .step (by simp) (ih h)

/-- A merge takes two entries out of PQ and puts one in (rule R146). -/
theorem mergeStep_length_pq {s t : State} (h : mergeStep s = .ok t) : s.tr.pq.length = t.tr.pq.length + 1 := by
  obtain ⟨a, b, s₁, s₂, ha, hb, hmerge⟩ := mergeStep_cases h
  obtain ⟨q₁, hq₁, rfl⟩ := pqExtract_spec ha
  obtain ⟨q₂, hq₂, rfl⟩ := pqExtract_spec hb
  obtain ⟨va, vb, -, -, rfl⟩ := mergeNodes_cases hmerge
  have hlen₁ := (pqTake_spec hq₁).1.length_eq
  have hlen₂ := (pqTake_spec hq₂).1.length_eq
  simp only [List.length_cons] at hlen₁ hlen₂
  simp [pqAdd_length, hlen₁, hlen₂]

theorem enterMerge_of_lt {s : State} (h : 1 < s.tr.pq.length) : enterMerge s = .ok ⟨.merge, s⟩ := by
  simp [enterMerge, h]

theorem enterMerge_of_takeRoot {s t : State} (h : takeRoot s = .ok t) : enterMerge s = enterWalk t := by
  obtain ⟨r, hpq, -⟩ := takeRoot_cases h
  simp [enterMerge, hpq, h]

theorem microStep_merge {s t : State} (h : mergeStep s = .ok t) : microStep ⟨.merge, s⟩ = enterMerge t := by
  simp [microStep, h]

/-- The merge loop takes one step for each merge, one fewer than there are entries in PQ (rule R150). -/
theorem reaches_enterMerge {fuel : Nat} {s s₁ t : State} (hloop : mergeLoop fuel s = .ok s₁)
    (hroot : takeRoot s₁ = .ok t) (h : Reaches k (enterWalk t) m) :
    Reaches (k + (s.tr.pq.length - 1)) (enterMerge s) m := by
  have hend : Reaches (k + (s₁.tr.pq.length - 1)) (enterMerge s₁) m := by
    obtain ⟨r, hpq, -⟩ := takeRoot_cases hroot
    rw [enterMerge_of_takeRoot hroot, hpq]
    exact h
  induction fuel generalizing s with
  | zero => cases hloop; exact hend
  | succ fuel ih =>
    obtain ⟨-, rfl⟩ | ⟨hlt, s₂, hstep, hrest⟩ := mergeLoop_cases hloop
    · exact hend
    · have hlen : k + (s.tr.pq.length - 1) = k + (s₂.tr.pq.length - 1) + 1 := by
        have := mergeStep_length_pq hstep
        omega
      rw [enterMerge_of_lt hlt, hlen]
      exact .step (by simp) (microStep_merge hstep ▸ ih hrest)

/-- The HTB stage takes `2n − 1` steps for `n` entries of FT. -/
theorem reaches_htbStage {s t : State} (hhtb : htbStage s = .ok t) (hnode : s.per.mem.node = [])
    (hnsym : s.per.nsym = s.per.mem.ft.length) (h : Reaches k (enterWalk t) m) :
    Reaches (k + (2 * s.per.nsym - 1)) (enterFt [] s) m := by
  obtain ⟨hpos, s₁, hloop, hroot⟩ := htbStage_cases hhtb
  have hseed : SeedInv s.per.mem.ft (seedStage s) := seedLoop_seedInv (pqClear_seedInv hnode) s.per.mem.ft
  have hpq : (seedStage s).tr.pq.length = s.per.nsym := by
    have hcount := hseed.node_add_pq
    rw [hseed.node_eq, List.length_map] at hcount
    omega
  have hmerges := reaches_enterMerge hloop hroot h
  have hsteps : k + (2 * s.per.nsym - 1) = k + (s.per.nsym - 1) + s.per.mem.ft.length := by omega
  rw [hsteps]
  exact reaches_enterSeed (hpq ▸ hmerges)

/-! #### BUILD: the CA stage (rule R169) -/

theorem visitStep_leaf {id : Nat} {path : Code} {pending : List (Nat × Code)} {x : Symbol} {f : Nat} {s : State}
    (h : nodeRead id s = some (.leaf x f)) :
    visitStep (setStack ((id, path) :: pending) s) =
      .ok (setStack pending (leafAction x path (setPath path s))) := by
  have hread : nodeRead id (setStack ((id, path) :: pending) s) = some (.leaf x f) := h
  simp only [visitStep, setStack_tr_stack, hread]
  rfl

theorem visitStep_internal {id : Nat} {path : Code} {pending : List (Nat × Code)} {f l r : Nat} {s : State}
    (h : nodeRead id s = some (.internal f l r)) :
    visitStep (setStack ((id, path) :: pending) s) =
      .ok (setStack ((l, path ++ [false]) :: (r, path ++ [true]) :: pending) (setPath path s)) := by
  have hread : nodeRead id (setStack ((id, path) :: pending) s) = some (.internal f l r) := h
  simp only [visitStep, setStack_tr_stack, hread]
  rfl

theorem microStep_walk {s t : State} (h : visitStep s = .ok t) : microStep ⟨.walk, s⟩ = .ok (enterVisit t) := by
  simp [microStep, h]

theorem enterVisit_pending (p : Nat × Code) (pending : List (Nat × Code)) (s : State) :
    enterVisit (setStack (p :: pending) s) = ⟨.walk, setStack (p :: pending) s⟩ := by
  simp [enterVisit]

/-- The walk below a node takes one step for each node, `2n − 1` for `n` leaves, and leaves what was pending. -/
theorem reaches_walk {T : HTree} {fuel id : Nat} {path : Code} {pending : List (Nat × Code)} {s t : State}
    (hT : Carries s.per.mem.node id T) (hwalk : walk fuel id path s = .ok t)
    (h : Reaches k (.ok (enterVisit (setStack pending t))) m) :
    Reaches (k + (2 * T.leaves.length - 1)) (.ok (enterVisit (setStack ((id, path) :: pending) s))) m := by
  induction T generalizing k fuel id path pending s t with
  | leaf e =>
    obtain ⟨_, rfl, ⟨x, f, hid, rfl⟩ | ⟨f, l, r, s₁, hid, -, -⟩⟩ := walk_cases hwalk
    · rw [enterVisit_pending]
      exact .step (by simp) (microStep_walk (visitStep_leaf hid) ▸ h)
    · cases hid.symm.trans hT
  | branch l r ihl ihr =>
    obtain ⟨a, b, hab, hl, hr⟩ := hT
    obtain ⟨_, rfl, ⟨x, f, hid, -⟩ | ⟨f, a', b', s₁, hid, hwalkl, hwalkr⟩⟩ := walk_cases hwalk
    · cases hid.symm.trans hab
    · cases hid.symm.trans hab
      have hnode : s₁.per.mem.node = s.per.mem.node := by rw [walk_frame hwalkl]; rfl
      have hright := ihr (hnode ▸ hr) hwalkr h
      have hleft := ihl (s := setPath path s) hl hwalkl hright
      have hsteps : k + (2 * (HTree.branch l r).leaves.length - 1) =
          k + (2 * r.leaves.length - 1) + (2 * l.leaves.length - 1) + 1 := by
        have hposl := l.leaves_length_pos
        have hposr := r.leaves_length_pos
        rw [HTree.leaves, List.length_append]
        omega
      rw [hsteps, enterVisit_pending]
      exact .step (by simp) (microStep_walk (visitStep_internal hid) ▸ hleft)

theorem walk_stack {fuel id : Nat} {path : Code} {s t : State} (h : walk fuel id path s = .ok t) :
    setStack s.tr.stack t = t := by
  rw [walk_frame h]
  rfl

/-- The CA stage takes one step for each node of the tree, the one step of a single Leaf included. -/
theorem reaches_caStage {T : HTree} {s t : State} (hT : Carries s.per.mem.node s.per.root T) (hca : caStage s = .ok t)
    (h : Reaches k (.ok ⟨.buildEnd, t⟩) m) : Reaches (k + (2 * T.leaves.length - 1)) (enterWalk s) m := by
  obtain ⟨x, f, hroot, rfl⟩ | ⟨f, l, r, hroot, hwalk⟩ := caStage_cases hca
  · cases T with
    | leaf e =>
      simp only [enterWalk, hroot]
      exact .step (by simp) h
    | branch l r =>
      obtain ⟨a, b, hab, -, -⟩ := hT
      cases hroot.symm.trans hab
  · have hstack : setStack [] t = t := walk_stack hwalk
    have hend : enterVisit (setStack [] t) = ⟨.buildEnd, t⟩ := by
      rw [hstack, enterVisit, if_pos (hstack ▸ rfl)]
    have hnodes := reaches_walk (s := startWalk s) hT hwalk (hend ▸ h)
    rw [enterVisit_pending] at hnodes
    simpa only [enterWalk, hroot] using hnodes

end

/-! #### BUILD as a whole (rule R180) -/

/-- BUILD of the empty text takes its discard step and its error step. -/
theorem reaches_build_nil (s : State) :
    Reaches 2 (.ok ⟨.discard [], s⟩) ⟨.done, buildFailed (discard s)⟩ :=
  .step (by simp) (.last (by simp) rfl)

/-- BUILD of a text takes its discard step, the steps of the three stages and its final step. -/
theorem reaches_build {text : List Symbol} {s t : State} (hne : text ≠ [])
    (hstages : buildStages text (discard s) = .ok t) :
    Reaches (1 + text.length + (2 * t.per.nsym - 1) + t.per.nodecount + 1) (.ok ⟨.discard text, s⟩)
      ⟨.done, buildDone t⟩ := by
  obtain ⟨s₁, hhtb, hca⟩ := buildStages_cases hstages
  obtain ⟨hft, hnsym⟩ := ftStage_holdsTable text (discard s)
  have hnode : (ftStage text (discard s)).per.mem.node = [] := by rw [ftStage_frame]; rfl
  obtain ⟨T, hT⟩ := htbStage_holdsTree hhtb hnode
  have hnsym' : t.per.nsym = (ftStage text (discard s)).per.nsym := by rw [caStage_frame hca, htbStage_frame hhtb]
  have hnodes : t.per.nodecount = 2 * T.leaves.length - 1 := by
    have hcount : t.per.nodecount = s₁.per.nodecount := by rw [caStage_frame hca]
    rw [hcount, hT.nodecount_eq, hT.node_length, hT.leaves.length_eq]
  have hend : Reaches 1 (.ok ⟨.buildEnd, t⟩) ⟨.done, buildDone t⟩ := .last (by simp) rfl
  have hcaSteps := reaches_caStage hT.carries hca hend
  have hhtbSteps := reaches_htbStage hhtb hnode (by rw [hft, hnsym]) hcaSteps
  have hftSteps := reaches_enterFt (text := text) (s := ftClear (discard s)) hhtbSteps
  have hdiscard : microStep ⟨.discard text, s⟩ = enterFt text (ftClear (discard s)) := by
    cases text with
    | nil => exact absurd rfl hne
    | cons x xs => rfl
  have hsteps : 1 + text.length + (2 * t.per.nsym - 1) + t.per.nodecount + 1 =
      1 + (2 * T.leaves.length - 1) + (2 * (ftStage text (discard s)).per.nsym - 1) + text.length + 1 := by
    rw [hnodes, hnsym']
    omega
  rw [hsteps]
  exact .step (by simp) (hdiscard ▸ hftSteps)

/-! #### Every command -/

theorem inDigits_of_digitsOperand {s : State} {bits : List Digit} (h : digitsOperand s.cfg s.inp = .ok bits) :
    inDigits s = bits := by
  simp [inDigits, (digitsOperand_ok.1 h).1]

/-- The small steps of the command `i` from `s` end in `t` after the number the rules give. -/
def EndsInCount (i : Instr) (s t : State) : Prop :=
  Reaches (microCount i s t) (.ok (microStart i s)) ⟨.done, t⟩

theorem execBuild_endsInCount {s t : State} (h : execBuild s = .next t) : EndsInCount .build s t := by
  obtain ⟨text, htext, hend⟩ := execBuild_cases h
  simp only [EndsInCount, microCount, microStart, inText_of_textOperand htext]
  obtain ⟨rfl, rfl⟩ | ⟨hne, s₁, hstages, rfl⟩ := hend
  · exact reaches_build_nil (startCommand s)
  · have hsteps := reaches_build hne hstages
    rw [if_neg hne]
    exact hsteps

theorem execCompress_endsInCount {s t : State} (h : execCompress s = .next t) : EndsInCount .compress s t := by
  obtain ⟨text, htext, hend⟩ := execCompress_cases h
  simp only [EndsInCount, microCount, microStart, inText_of_textOperand htext]
  obtain ⟨hvalid, rfl⟩ | ⟨hvalid, rfl, -⟩ := hend
  · rw [if_neg (Bool.eq_false_iff.1 hvalid)]
    exact reaches_enterCompressDrop text (startCommand s)
  · rw [if_pos hvalid]
    exact reaches_enterCompress text (zeroStats (startCommand s))

theorem execDecompress_endsInCount {s t : State} (h : execDecompress s = .next t) : EndsInCount .decompress s t := by
  obtain ⟨bits, hbits, rfl⟩ := execDecompress_cases h
  simp only [EndsInCount, microCount, microStart, inDigits_of_digitsOperand hbits, decompressDigits, startCommand_per]
  by_cases hvalid : s.per.valid
  · simpa [hvalid] using reaches_decompress bits (setBuf [] (startCommand s))
  · simpa [hvalid] using reaches_decompressDrop bits (startCommand s)

/-- A query takes one step, which gives the answer to the symbol on IN. -/
theorem reaches_query {answer : Symbol → State → Response} {s t : State} (h : query answer s = .next t) :
    Reaches 1 (.ok ⟨.query (inAnswer answer s), startCommand s⟩) ⟨.done, t⟩ := by
  obtain ⟨x, hx, rfl⟩ := query_cases h
  have hin : inAnswer answer s = answer x s := by simp [inAnswer, inText, (symbolOperand_ok.1 hx).1]
  rw [hin]
  exact .last (by simp) rfl

theorem exec_endsInCount {i : Instr} {s t : State} (h : exec i s = .next t) : EndsInCount i s t := by
  cases i with
  | build => exact execBuild_endsInCount h
  | compress => exact execCompress_endsInCount h
  | decompress => exact execDecompress_endsInCount h
  | clear => cases h; exact .last (m := microStart .clear s) (by simp [microStart]) rfl
  | qfreq => exact reaches_query (answer := fun x s => .qfreq (freqAnswer x s)) h
  | qcode => exact reaches_query (answer := codeAnswer) h
  | qmember => exact reaches_query (answer := memberAnswer) h

/-- Settles O59: each loop of a command takes one small step for each turn, over the same loop bodies, so the steps add
up to the number the rules give. -/
theorem smallStepsReachCommandResult : Obligations.SmallStepsReachCommandResult :=
  fun _ _ _ h => (exec_endsInCount h).microRun_eq

end Sys2Proof.Machine

/-! ### The tree builder: extraction, merging and the built tree (rules R143 to R152) -/

namespace Sys2Proof.Machine

/-! #### What an extraction takes when no two keys are equal (rule R143) -/

/-- No two entries have the same key (rule R142). -/
def DistinctKeys (q : List PqEntry) : Prop := (q.map fun e => (e.freq, e.seq)).Nodup

theorem DistinctKeys.perm {q q' : List PqEntry} (h : DistinctKeys q) (hq : q.Perm q') : DistinctKeys q' :=
  (hq.map _).nodup_iff.1 h

/-- Between two of the entries the order of keys is total. -/
theorem DistinctKeys.eq_of_not_keyLt {q : List PqEntry} {a b : PqEntry} (h : DistinctKeys q) (ha : a ∈ q)
    (hb : b ∈ q) (hab : keyLt a b = false) (hba : keyLt b a = false) : a = b := by
  rw [Bool.eq_false_iff, ne_eq, keyLt_iff] at hab hba
  exact List.inj_on_of_nodup_map h ha hb (Prod.ext (by omega) (by omega))

/-- The entry taken is below all the others. -/
theorem DistinctKeys.take {q rest : List PqEntry} {e : PqEntry} (h : DistinctKeys q)
    (htake : pqTake q = some (e, rest)) : q.Perm (e :: rest) ∧ (∀ a ∈ rest, keyLt e a = true) ∧ DistinctKeys rest := by
  obtain ⟨hperm, hleast⟩ := pqTake_spec htake
  have hkeys := h.perm hperm
  obtain ⟨hnotMem, hnodup⟩ := List.nodup_cons.1 (List.Nodup.of_map _ hkeys)
  refine ⟨hperm, fun a ha => ?_, (List.nodup_cons.1 hkeys).2⟩
  have hmem : a ∈ e :: rest := List.mem_cons_of_mem _ ha
  by_contra hnot
  have heq := hkeys.eq_of_not_keyLt List.mem_cons_self hmem (Bool.eq_false_iff.2 hnot) (hleast a (hperm.mem_iff.2 hmem))
  exact hnotMem (heq ▸ ha)

/-- Two extractions take the smallest key and the next smallest (rule R145). -/
theorem DistinctKeys.take_two {q q₁ q₂ : List PqEntry} {a b : PqEntry} (h : DistinctKeys q)
    (ha : pqTake q = some (a, q₁)) (hb : pqTake q₁ = some (b, q₂)) :
    q.Perm (a :: b :: q₂) ∧ keyLt a b = true ∧ ∀ e ∈ q₂, keyLt b e = true := by
  obtain ⟨hperm₁, hlt₁, hkeys₁⟩ := h.take ha
  obtain ⟨hperm₂, hlt₂, -⟩ := hkeys₁.take hb
  exact ⟨hperm₁.trans (hperm₂.cons a), hlt₁ b (hperm₂.mem_iff.2 List.mem_cons_self), hlt₂⟩

theorem exists_pqTake {q : List PqEntry} (h : q ≠ []) : ∃ e rest, pqTake q = some (e, rest) := by
  obtain ⟨⟨e, rest⟩, htake⟩ := Option.ne_none_iff_exists'.1 (mt pqTake_eq_none.1 h)
  exact ⟨e, rest, htake⟩

/-- What is taken does not depend on the order in which PQ holds the entries. -/
theorem DistinctKeys.take_perm {q q' : List PqEntry} (h : DistinctKeys q) (hq : q'.Perm q) :
    (pqTake q').map Prod.fst = (pqTake q).map Prod.fst := by
  by_cases hnil : q = []
  · rw [hnil] at hq ⊢
    rw [hq.eq_nil]
  · obtain ⟨e, rest, he⟩ := exists_pqTake hnil
    obtain ⟨e', rest', he'⟩ := exists_pqTake (q := q') fun hnil' => hnil (hnil' ▸ hq.symm).eq_nil
    obtain ⟨hperm, hleast⟩ := pqTake_spec he
    obtain ⟨hperm', hleast'⟩ := pqTake_spec he'
    have hmem : e ∈ q := hperm.mem_iff.2 List.mem_cons_self
    have hmem' : e' ∈ q' := hperm'.mem_iff.2 List.mem_cons_self
    rw [he, he', h.eq_of_not_keyLt hmem (hq.mem_iff.1 hmem') (hleast' e (hq.mem_iff.2 hmem))
      (hleast e' (hq.mem_iff.1 hmem'))]
    rfl

/-- Settles O18: the entry taken has a key that no other is below, and only one entry has such a key. -/
theorem extractMinTakesSmallestKey : Obligations.ExtractMinTakesSmallestKey := by
  intro q hq
  have hkeys : DistinctKeys q := hq
  refine ⟨fun hne => ?_, fun e rest htake => ?_, fun q' => hkeys.take_perm⟩
  · obtain ⟨e, rest, htake⟩ := exists_pqTake hne
    rw [htake]
    rfl
  · obtain ⟨hperm, hlt, -⟩ := hkeys.take htake
    exact ⟨hperm, hlt⟩

/-! #### What a BUILD leaves: the HTB stage's tree and queue -/

theorem nodeOk_leaf {p : Persistent} {k f : Nat} {x : Symbol} (h : nodeOk p k = true)
    (hk : p.mem.node[k]? = some (.leaf x f)) : k < p.nsym ∧ p.mem.ft[k]? = some { sym := x, count := f } := by
  simpa [nodeOk, hk] using h

theorem nodeOk_internal {p : Persistent} {k f l r : Nat} (h : nodeOk p k = true)
    (hk : p.mem.node[k]? = some (.internal f l r)) :
    p.nsym ≤ k ∧ l < k ∧ r < k ∧ f = freqAt p.mem.node l + freqAt p.mem.node r := by
  obtain ⟨⟨⟨⟨hnsym, hl⟩, hr⟩, -⟩, hf⟩ : (((p.nsym ≤ k ∧ l < k) ∧ r < k) ∧ l ≠ r) ∧
    f = freqAt p.mem.node l + freqAt p.mem.node r := by simpa [nodeOk, hk] using h
  exact ⟨hnsym, hl, hr, hf⟩

/-- Every entry of NODE is as rule R42 items 2 and 3 have it. -/
theorem nodeOk_of_treeOk {p : Persistent} (h : treeOk p) {k : Nat} {v : TreeNode} (hk : p.mem.node[k]? = some v) :
    nodeOk p k = true := by
  obtain ⟨-, hlen, -, hnodes, -⟩ := h
  exact hnodes k (hlen ▸ (List.getElem?_eq_some_iff.1 hk).1)

/-- `t` has the tree and the queue that an HTB stage started on an empty NODE left. -/
def HasHtbResult (t : State) : Prop :=
  ∃ s₀ s₁, htbStage s₀ = .ok s₁ ∧ s₀.per.mem.node = [] ∧ t.per.mem.node = s₁.per.mem.node ∧
    t.per.nodecount = s₁.per.nodecount ∧ t.tr.pq = s₁.tr.pq ∧ t.tr.seq = s₁.tr.seq

theorem execBuild_hasHtbResult {s t : State} {text : List Symbol} (h : execBuild s = .next t)
    (htext : asText s.inp = some text) (hne : text ≠ []) : HasHtbResult t := by
  obtain ⟨text', hop, hend⟩ := execBuild_cases h
  obtain rfl : text = text' := Option.some.inj (htext.symm.trans (textOperand_ok.1 hop).1)
  obtain ⟨hnil, -⟩ | ⟨-, s₂, hstages, rfl⟩ := hend
  · exact absurd hnil hne
  · obtain ⟨s₁, hhtb, hca⟩ := buildStages_cases hstages
    refine ⟨_, s₁, hhtb, by rw [ftStage_frame]; rfl, ?_⟩
    rw [caStage_frame hca]
    exact ⟨rfl, rfl, rfl, rfl⟩

/-- The HTB stage ends with one entry in PQ, and NODECOUNT is SEQ (rule R147). -/
theorem htbStage_queue {s t : State} (h : htbStage s = .ok t) : t.tr.pq.length = 1 ∧ t.tr.seq = t.per.nodecount := by
  obtain ⟨-, s₁, -, hroot⟩ := htbStage_cases h
  obtain ⟨r, hpq, rfl⟩ := takeRoot_cases hroot
  simp [hpq]

/-- Settles O19: the counts and the entries are those of the invariant of rule R42; PQ and SEQ are as the HTB stage left
them. -/
theorem buildNodeCounts : Obligations.BuildNodeCounts := by
  intro s t text htext hne h
  obtain ⟨hft, ⟨-, hlen, -⟩, htree, -⟩ := execBuild_builtOk h htext hne
  have ⟨hcount, hnode, hroot, _, _⟩ := htree
  obtain ⟨s₀, s₁, hhtb, -, -, hcount₁, hpq₁, hseq₁⟩ := execBuild_hasHtbResult h htext hne
  obtain ⟨hpq, hseq⟩ := htbStage_queue hhtb
  refine ⟨?_, hcount, hnode, hroot, ?_, ?_, fun k x f hk => ?_, fun k f l r hk => ?_⟩
  · rw [← hlen, hft, length_tableOf]
  · rw [hseq₁, hcount₁, hseq]
  · rw [hpq₁, hpq]
  · exact (nodeOk_leaf (nodeOk_of_treeOk htree hk) hk).1
  · obtain ⟨hnsym, hl, hr, -⟩ := nodeOk_internal (nodeOk_of_treeOk htree hk) hk
    exact ⟨hnsym, hl, hr⟩

/-! #### The frequencies of a built tree (rule R152) -/

/-- When no count of FT is 0, no node has frequency 0. -/
theorem one_le_freqAt {p : Persistent} (h : treeOk p) (hft : ∀ e ∈ p.mem.ft, 1 ≤ e.count) {k : Nat}
    (hk : k < p.mem.node.length) : 1 ≤ freqAt p.mem.node k := by
  induction k using Nat.strong_induction_on with
  | _ k ih =>
    have hv := List.getElem?_eq_getElem hk
    rw [freqAt_of_getElem? hv]
    cases hvk : p.mem.node[k] with
    | leaf x f =>
      rw [hvk] at hv
      exact hft _ (List.mem_of_getElem? (nodeOk_leaf (nodeOk_of_treeOk h hv) hv).2)
    | internal f l r =>
      rw [hvk] at hv
      obtain ⟨-, hl, hr, rfl⟩ := nodeOk_internal (nodeOk_of_treeOk h hv) hv
      exact le_add_right (ih l hl (hl.trans hk))

/-- Settles O21: the root's frequency is the sum of the counts of the text's table; an Internal node has two children of
frequency at least 1. -/
theorem rootFrequencyIsTextLength : Obligations.RootFrequencyIsTextLength := by
  intro s t text htext hne h
  obtain ⟨hft, -, htree, hfreq, -⟩ := execBuild_builtOk h htext hne
  have hcounts : ∀ e ∈ t.per.mem.ft, 1 ≤ e.count := fun e he => one_le_count_of_mem_tableOf (hft ▸ he)
  have hsum : (t.per.mem.ft.map FtEntry.count).sum = text.length := by rw [hft, sum_count_tableOf]
  refine ⟨hfreq.trans hsum, hsum, fun k x f hk => ?_, fun k f l r hk => ?_⟩
  · exact hcounts _ (List.mem_of_getElem? (nodeOk_leaf (nodeOk_of_treeOk htree hk) hk).2)
  · obtain ⟨-, hl, hr, rfl⟩ := nodeOk_internal (nodeOk_of_treeOk htree hk) hk
    have hlen := (List.getElem?_eq_some_iff.1 hk).1
    exact Nat.add_le_add (one_le_freqAt htree hcounts (hl.trans hlen)) (one_le_freqAt htree hcounts (hr.trans hlen))

/-! #### The order of extraction (rules R145, R146, R151) -/

theorem pqExtract_of_take {s : State} {e : PqEntry} {q : List PqEntry} (h : pqTake s.tr.pq = some (e, q)) :
    pqExtract s = some (e, { s with tr := { s.tr with pq := q } }) := by
  simp [pqExtract, h]

theorem exists_node_of_lt {node : List TreeNode} {k : Nat} (h : k < node.length) :
    ∃ v, node[k]? = some v ∧ freqAt node k = nodeFreq v :=
  have hv := List.getElem?_eq_getElem h
  ⟨_, hv, freqAt_of_getElem? hv⟩

/-- A merge of two valid entries does not fault (rules R145, R146). -/
theorem mergeStep_of_takes {s : State} {a b : PqEntry} {q₁ q₂ : List PqEntry} (ha : pqTake s.tr.pq = some (a, q₁))
    (hb : pqTake q₁ = some (b, q₂)) (hida : a.id < s.per.mem.node.length) (hidb : b.id < s.per.mem.node.length)
    (hseq : s.tr.seq = s.per.mem.node.length) :
    mergeStep s = .ok { s with
      per := { s.per with mem := { s.per.mem with node := s.per.mem.node ++
        [.internal (freqAt s.per.mem.node a.id + freqAt s.per.mem.node b.id) a.id b.id] } }
      tr := { s.tr with
        pq := pqAdd ⟨freqAt s.per.mem.node a.id + freqAt s.per.mem.node b.id, s.tr.seq, s.tr.seq⟩ q₂
        seq := s.tr.seq + 1 } } := by
  obtain ⟨va, hva, hfa⟩ := exists_node_of_lt hida
  obtain ⟨vb, hvb, hfb⟩ := exists_node_of_lt hidb
  rw [hfa, hfb, mergeStep, pqExtract_of_take ha]
  dsimp only
  rw [pqExtract_of_take hb]
  simp [mergeNodes, nodeRead, hva, hvb, nodeWrite, pqInsert, nextSeq, hseq]

/-- The order of extraction between two nodes: frequency, then id (rule R151). -/
def Before (node : List TreeNode) (j k : Nat) : Prop :=
  freqAt node j < freqAt node k ∨ (freqAt node j = freqAt node k ∧ j < k)

theorem Before.freqAt_le {node : List TreeNode} {j k : Nat} (h : Before node j k) : freqAt node j ≤ freqAt node k := by
  unfold Before at h
  omega

theorem Before.append {node : List TreeNode} {j k : Nat} (h : Before node j k) (v : TreeNode) (hj : j < node.length)
    (hk : k < node.length) : Before (node ++ [v]) j k := by
  unfold Before
  rwa [freqAt_append v hj, freqAt_append v hk]

/-- A node comes before a new one of no smaller frequency. -/
theorem Before.of_new {node : List TreeNode} {j : Nat} {v : TreeNode} (hj : j < node.length)
    (hle : freqAt node j ≤ nodeFreq v) : Before (node ++ [v]) j node.length := by
  have hv : freqAt (node ++ [v]) node.length = nodeFreq v := freqAt_of_getElem? (by simp)
  unfold Before
  rw [hv, freqAt_append v hj]
  omega

/-- The key of every entry of PQ is its node's frequency and its node's id (rules R141, R146). -/
def Keyed (node : List TreeNode) (q : List PqEntry) : Prop :=
  ∀ e ∈ q, e.freq = freqAt node e.id ∧ e.seq = e.id

theorem Keyed.before {node : List TreeNode} {q : List PqEntry} {a b : PqEntry} (h : Keyed node q) (ha : a ∈ q)
    (hb : b ∈ q) (hlt : keyLt a b = true) : Before node a.id b.id := by
  obtain ⟨hfa, hsa⟩ := h a ha
  obtain ⟨hfb, hsb⟩ := h b hb
  rwa [keyLt_iff, hfa, hfb, hsa, hsb] at hlt

theorem Keyed.distinctKeys {node : List TreeNode} {q : List PqEntry} (h : Keyed node q)
    (hids : (q.map PqEntry.id).Nodup) : DistinctKeys q := by
  refine List.Nodup.of_map Prod.snd ?_
  rw [List.map_map]
  rwa [← List.map_congr_left fun e he => (h e he).2] at hids

/-- A new node goes into PQ with its frequency and its id as the key. -/
theorem Keyed.push {node : List TreeNode} {q : List PqEntry} (h : Keyed node q) (hlt : ∀ e ∈ q, e.id < node.length)
    (v : TreeNode) : Keyed (node ++ [v]) (pqAdd ⟨nodeFreq v, node.length, node.length⟩ q) := by
  intro e he
  obtain rfl | he := mem_pqAdd.1 he
  · exact ⟨(freqAt_of_getElem? (by simp)).symm, rfl⟩
  · rw [freqAt_append v (hlt e he)]
    exact h e he

theorem seedLoop_keyed {es : List FtEntry} {s : State} (h : SeedInv es s) (hkeyed : Keyed s.per.mem.node s.tr.pq)
    (fs : List FtEntry) : Keyed (fs.foldl seedStep s).per.mem.node (fs.foldl seedStep s).tr.pq := by
  induction fs generalizing es s with
  | nil => exact hkeyed
  | cons f fs ih =>
    refine ih (seedStep_seedInv h f) ?_
    have hnode : (seedStep s f).per.mem.node = s.per.mem.node ++ [.leaf f.sym f.count] :=
      nodeWrite_node_of_fresh _ h.seq_eq
    have hpq : (seedStep s f).tr.pq = pqAdd ⟨f.count, s.tr.seq, s.tr.seq⟩ s.tr.pq := rfl
    rw [hnode, hpq, h.seq_eq]
    exact hkeyed.push h.owned.queue.2 _

/-- Between two merges: the nodes taken out of PQ so far rise, and they come before those still in it. -/
structure OrderInv (es : List FtEntry) (s : State) : Prop extends MergeInv es s where
  keyed : Keyed s.per.mem.node s.tr.pq
  taken : (s.per.mem.node.flatMap childrenOf).Pairwise (Before s.per.mem.node)
  taken_before : ∀ c ∈ s.per.mem.node.flatMap childrenOf, ∀ e ∈ s.tr.pq, Before s.per.mem.node c e.id

theorem SeedInv.orderInv {es : List FtEntry} {s : State} (h : SeedInv es s) (hkeyed : Keyed s.per.mem.node s.tr.pq) :
    OrderInv es s := by
  have hnone : s.per.mem.node.flatMap childrenOf = [] := by simp [h.node_eq, childrenOf]
  refine ⟨h.mergeInv, hkeyed, ?_, ?_⟩ <;> rw [hnone]
  · exact List.Pairwise.nil
  · exact fun _ hc => absurd hc List.not_mem_nil

/-- The next two nodes taken come after those taken before and, like them, before those left in PQ. -/
theorem OrderInv.take_two {es : List FtEntry} {s : State} (h : OrderInv es s) {a b : PqEntry} {q₁ q₂ : List PqEntry}
    (hq₁ : pqTake s.tr.pq = some (a, q₁)) (hq₂ : pqTake q₁ = some (b, q₂)) :
    (s.per.mem.node.flatMap childrenOf ++ [a.id, b.id]).Pairwise (Before s.per.mem.node) ∧
      ∀ c ∈ s.per.mem.node.flatMap childrenOf ++ [a.id, b.id],
        freqAt s.per.mem.node c ≤ freqAt s.per.mem.node a.id + freqAt s.per.mem.node b.id ∧
          ∀ e ∈ q₂, Before s.per.mem.node c e.id := by
  obtain ⟨hperm, hab, hrest⟩ := (h.keyed.distinctKeys h.owned.queue.1).take_two hq₁ hq₂
  have ha : a ∈ s.tr.pq := hperm.mem_iff.2 (by simp)
  have hb : b ∈ s.tr.pq := hperm.mem_iff.2 (by simp)
  have hmem : ∀ e ∈ q₂, e ∈ s.tr.pq := fun e he => hperm.mem_iff.2 (by simp [he])
  constructor
  · refine List.pairwise_append.2 ⟨h.taken, List.pairwise_pair.2 (h.keyed.before ha hb hab), fun c hc d hd => ?_⟩
    obtain rfl | rfl : d = a.id ∨ d = b.id := by simpa using hd
    · exact h.taken_before c hc a ha
    · exact h.taken_before c hc b hb
  · intro c hc
    simp only [List.mem_append, List.mem_cons, List.not_mem_nil, or_false] at hc
    obtain hc | rfl | rfl := hc
    · exact ⟨le_add_right (h.taken_before c hc a ha).freqAt_le, fun e he => h.taken_before c hc e (hmem e he)⟩
    · exact ⟨Nat.le_add_right _ _, fun e he => h.keyed.before ha (hmem e he) (keyLt_trans hab (hrest e he))⟩
    · exact ⟨Nat.le_add_left _ _, fun e he => h.keyed.before hb (hmem e he) (hrest e he)⟩

/-- The new node is no less frequent than any taken so far and has the greatest id, so it comes after all of them. -/
theorem mergeStep_orderInv {es : List FtEntry} {s t : State} (h : OrderInv es s) (hstep : mergeStep s = .ok t) :
    OrderInv es t := by
  have ht : MergeInv es t := mergeStep_mergeInv h.toMergeInv hstep
  obtain ⟨a, b, q₁, q₂, va, vb, hq₁, hq₂, hva, hvb, hnode, hpq, -⟩ := mergeStep_spec hstep h.seq_eq
  obtain ⟨hrise, hbefore⟩ := h.take_two hq₁ hq₂
  rw [freqAt_of_getElem? hva, freqAt_of_getElem? hvb] at hbefore
  have hrest : ∀ e ∈ q₂, e ∈ s.tr.pq := fun e he =>
    (pqTake_spec hq₁).1.mem_iff.2 (List.mem_cons_of_mem _ ((pqTake_spec hq₂).1.mem_iff.2 (List.mem_cons_of_mem _ he)))
  have hlt : ∀ e ∈ q₂, e.id < s.per.mem.node.length := fun e he => h.owned.queue.2 e (hrest e he)
  have hchildren : t.per.mem.node.flatMap childrenOf = s.per.mem.node.flatMap childrenOf ++ [a.id, b.id] := by
    simp [hnode, childrenOf]
  have hold : ∀ c ∈ s.per.mem.node.flatMap childrenOf ++ [a.id, b.id], c < s.per.mem.node.length := fun c hc => by
    simpa [hnode] using ht.child_lt_last (hchildren ▸ hc)
  refine ⟨ht, ?_, ?_, ?_⟩
  · rw [hnode, hpq, h.seq_eq]
    exact Keyed.push (fun e he => h.keyed e (hrest e he)) hlt _
  · rw [hchildren, hnode]
    exact hrise.imp_of_mem fun hc hd hcd => hcd.append _ (hold _ hc) (hold _ hd)
  · rw [hchildren, hnode, hpq]
    intro c hc e he
    obtain ⟨hle, hqueue⟩ := hbefore c hc
    obtain rfl | he := mem_pqAdd.1 he
    · rw [h.seq_eq]
      exact .of_new (hold c hc) hle
    · exact (hqueue e he).append _ (hold c hc) (hlt e he)

theorem mergeLoop_orderInv {k : Nat} {es : List FtEntry} {s t : State} (h : OrderInv es s)
    (hloop : mergeLoop k s = .ok t) : OrderInv es t := by
  induction k generalizing s with
  | zero => cases hloop; exact h
  | succ k ih =>
    obtain ⟨-, rfl⟩ | ⟨-, s₁, hstep, hrest⟩ := mergeLoop_cases hloop
    · exact h
    · exact ih (mergeStep_orderInv h hstep) hrest

/-- In a built tree the children rise in the order of extraction (rule R151). -/
theorem htbStage_children_rise {s t : State} (h : htbStage s = .ok t) (hnode : s.per.mem.node = []) :
    (t.per.mem.node.flatMap childrenOf).Pairwise (Before t.per.mem.node) := by
  obtain ⟨-, s₁, hloop, hroot⟩ := htbStage_cases h
  obtain ⟨r, -, rfl⟩ := takeRoot_cases hroot
  have hempty : SeedInv [] (pqClear s) := pqClear_seedInv hnode
  have hkeyed : Keyed (seedStage s).per.mem.node (seedStage s).tr.pq :=
    seedLoop_keyed hempty (fun e he => absurd he List.not_mem_nil) s.per.mem.ft
  exact (mergeLoop_orderInv ((seedLoop_seedInv hempty s.per.mem.ft).orderInv hkeyed) hloop).taken

theorem childrenOf_before {node : List TreeNode} (h : (node.flatMap childrenOf).Pairwise (Before node))
    {k f l r : Nat} (hk : node[k]? = some (.internal f l r)) : Before node l r :=
  List.pairwise_pair.1 ((List.pairwise_flatMap.1 h).1 _ (List.mem_of_getElem? hk))

/-- From NSYM on every node is Internal, with the sum of its children's frequencies. -/
theorem exists_internal_of_nsym_le {p : Persistent} (h : treeOk p) {k : Nat} (hnsym : p.nsym ≤ k)
    (hk : k < p.mem.node.length) :
    ∃ f l r, p.mem.node[k]? = some (.internal f l r) ∧
      freqAt p.mem.node k = freqAt p.mem.node l + freqAt p.mem.node r := by
  obtain ⟨v, hv, hf⟩ := exists_node_of_lt hk
  cases v with
  | leaf x f => exact absurd (nodeOk_leaf (nodeOk_of_treeOk h hv) hv).1 (Nat.not_lt.2 hnsym)
  | internal f l r =>
    obtain ⟨-, -, -, hsum⟩ := nodeOk_internal (nodeOk_of_treeOk h hv) hv
    exact ⟨f, l, r, hv, hf.trans hsum⟩

/-- An Internal node made later has children that come later, so no smaller frequency (rule R151 (e)). -/
theorem internal_freqAt_le {p : Persistent} (htree : treeOk p)
    (h : (p.mem.node.flatMap childrenOf).Pairwise (Before p.mem.node)) {j k : Nat} (hj : p.nsym ≤ j) (hjk : j ≤ k)
    (hk : k < p.mem.node.length) : freqAt p.mem.node j ≤ freqAt p.mem.node k := by
  obtain rfl | hlt := hjk.eq_or_lt
  · exact le_rfl
  · obtain ⟨f, l, r, hvj, hfj⟩ := exists_internal_of_nsym_le htree hj (hlt.trans hk)
    obtain ⟨f', l', r', hvk, hfk⟩ := exists_internal_of_nsym_le htree (hj.trans hjk) hk
    have hcross := List.pairwise_iff_getElem.1 (List.pairwise_flatMap.1 h).2 j k (hlt.trans hk) hk hlt
    rw [(List.getElem?_eq_some_iff.1 hvj).2, (List.getElem?_eq_some_iff.1 hvk).2] at hcross
    have hl := (hcross l (by simp [childrenOf]) l' (by simp [childrenOf])).freqAt_le
    have hr := (hcross r (by simp [childrenOf]) r' (by simp [childrenOf])).freqAt_le
    rw [hfj, hfk]
    exact Nat.add_le_add hl hr

/-- Settles O20: a merge extracts the smallest key and the next smallest; as what it puts back comes after both, the
nodes taken so far rise and come before those still in PQ, at every merge. -/
theorem mergesInFrequencyOrder : Obligations.MergesInFrequencyOrder := by
  refine ⟨fun s htwo hkeys hids hseq => ?_, fun s t text htext hne h => ?_⟩
  · obtain ⟨a, q₁, ha⟩ := exists_pqTake (q := s.tr.pq) (by intro hnil; simp [hnil] at htwo)
    have hlen := (pqTake_spec ha).1.length_eq
    obtain ⟨b, q₂, hb⟩ := exists_pqTake (q := q₁) (by rintro rfl; simp [hlen] at htwo)
    obtain ⟨hperm, hab, hrest⟩ := DistinctKeys.take_two hkeys ha hb
    have hida := hids a (hperm.mem_iff.2 (by simp))
    have hidb := hids b (hperm.mem_iff.2 (by simp))
    exact ⟨a, b, q₂, _, hperm, hab, hrest, pqAdd_perm _ _, mergeStep_of_takes ha hb hida hidb hseq⟩
  · obtain ⟨-, -, htree, -⟩ := execBuild_builtOk h htext hne
    obtain ⟨s₀, s₁, hhtb, hnode₀, hnode, -⟩ := execBuild_hasHtbResult h htext hne
    have hrise : (t.per.mem.node.flatMap childrenOf).Pairwise (Before t.per.mem.node) := by
      rw [hnode]
      exact htbStage_children_rise hhtb hnode₀
    have ⟨_, hlen, _⟩ := htree
    exact ⟨hrise, fun k f l r => childrenOf_before hrise,
      fun j k hj hjk hk => internal_freqAt_le htree hrise hj hjk (hlen ▸ hk)⟩

end Sys2Proof.Machine

/-! ### The code of a BUILD: forced, prefix-free, complete, and its lengths (rules R164, R166, R167) -/

namespace Sys2Proof.Machine

/-- Settles O22: the stage reads a Leaf at ROOT, and all it does is to record the forced code in the emptied LUTs. -/
theorem singleLeafGetsCodeZero : Obligations.SingleLeafGetsCodeZero := by
  intro s x f hroot
  have hread : nodeRead s.per.root s = some (.leaf x f) := hroot
  refine ⟨recordCode x forcedCode (startWalk s), ?_, rfl, rfl, rfl, rfl, rfl, rfl⟩
  rw [caStage, hread]

/-! #### ENC and DEC as inverse maps, and prefix-freedom (rule R167 items 1, 2 and 5) -/

/-- ENC and DEC answer the same pairs (rule R42 item 5). -/
theorem mapFind_enc_iff_dec {p : Persistent} (h : mapsOk p) (x : Symbol) (c : Code) :
    mapFind x p.mem.enc = some c ↔ mapFind c p.mem.dec = some x := by
  obtain ⟨-, -, -, henc, hdec⟩ := h
  exact ⟨fun hc => henc _ (mapFind_mem hc), fun hx => hdec _ (mapFind_mem hx)⟩

/-- A BUILD of the empty text leaves everything empty, any other the invariants of rule R42. -/
theorem execBuild_empty_or_builtOk {s t : State} (h : execBuild s = .next t) :
    emptyOk t.per ∨ builtOk s.cfg t.per := by
  obtain ⟨text, hop, ⟨-, rfl⟩ | ⟨hne, -⟩⟩ := execBuild_cases h
  · exact .inl rfl
  · exact .inr (execBuild_builtOk h (textOperand_ok.1 hop).1 hne).2

/-- Settles O24: empty LUTs have no code; otherwise this is what the invariant says of them (rule R42 items 5 and 6). -/
theorem codesPrefixFreeAndInverse : Obligations.CodesPrefixFreeAndInverse := by
  intro s t h
  obtain hempty | ⟨-, -, -, hmaps, ⟨hne, hprefix⟩, -⟩ := execBuild_empty_or_builtOk h
  · unfold encFind decFind
    rw [hempty]
    simp [Persistent.reset, mapFind]
  · have ⟨henc, hdec, _⟩ := hmaps
    refine ⟨henc, hdec, mapFind_enc_iff_dec hmaps, fun x c hc => hne _ (mapFind_mem hc), ?_⟩
    intro x y c d hc hd hxy hcd
    have hnot := hprefix _ (mapFind_mem hc) _ (mapFind_mem hd) hxy
    rw [List.isPrefixOf_iff_prefix.2 hcd] at hnot
    exact Bool.noConfusion hnot

/-! #### The paths of a tree as a complete code (rule R167 item 3) -/

/-- The longest code is the least bound on all the code lengths. -/
theorem longestCode_le_iff {cs : List (Symbol × Code)} {n : Nat} :
    longestCode cs ≤ n ↔ ∀ p ∈ cs, p.2.length ≤ n := by
  induction cs with
  | nil => simp [longestCode]
  | cons p cs ih =>
    rw [List.forall_mem_cons, ← ih]
    exact max_le_iff

/-- A bound on the code lengths below a path is a bound on the path. -/
theorem HTree.length_path_le {T : HTree} {path : Code} {n : Nat} (h : ∀ p ∈ T.codes path, p.2.length ≤ n) :
    path.length ≤ n := by
  have hpos : 0 < (T.codes path).length := by
    rw [HTree.length_codes]
    exact T.leaves_length_pos
  obtain ⟨p, hp⟩ := List.exists_mem_of_length_pos hpos
  exact (HTree.prefix_of_mem_codes hp).length_le.trans (h p hp)

/-- The Kraft sum below a path is the share of the path: each branch halves it. -/
theorem HTree.kraft_sum {T : HTree} {path : Code} {n : Nat} (h : ∀ p ∈ T.codes path, p.2.length ≤ n) :
    ((T.codes path).map fun p => 2 ^ (n - p.2.length)).sum = 2 ^ (n - path.length) := by
  induction T generalizing path with
  | leaf e => simp [HTree.codes]
  | branch l r ihl ihr =>
    obtain ⟨hl, hr⟩ := List.forall_mem_append.1 h
    have hlt : path.length + 1 ≤ n := by simpa using HTree.length_path_le hl
    rw [HTree.codes, List.map_append, List.sum_append, ihl hl, ihr hr, List.length_append, List.length_append]
    calc 2 ^ (n - (path.length + 1)) + 2 ^ (n - (path.length + 1))
      _ = 2 ^ (n - (path.length + 1) + 1) := by rw [pow_succ, Nat.mul_two]
      _ = 2 ^ (n - path.length) := by rw [← Nat.sub_sub, Nat.sub_add_cancel (Nat.le_sub_of_add_le' hlt)]

/-- Digits enough to reach every leaf below a path lead to one of them. -/
theorem HTree.exists_code_prefix {T : HTree} {path bits : Code}
    (h : ∀ p ∈ T.codes path, p.2.length ≤ path.length + bits.length) : ∃ p ∈ T.codes path, p.2 <+: path ++ bits := by
  induction T generalizing path bits with
  | leaf e => exact ⟨(e.sym, path), List.mem_singleton_self _, List.prefix_append _ _⟩
  | branch l r ihl ihr =>
    obtain ⟨hl, hr⟩ := List.forall_mem_append.1 h
    cases bits with
    | nil => exact absurd (HTree.length_path_le hl) (by simp)
    | cons d ds =>
      rw [List.append_cons]
      have hlen : ∀ b : Digit, path.length + (d :: ds).length = (path ++ [b]).length + ds.length := fun b => by
        simp only [List.length_append, List.length_cons, List.length_nil]
        omega
      cases d with
      | false =>
        obtain ⟨p, hp, hpre⟩ := ihl (hlen false ▸ hl)
        exact ⟨p, List.mem_append_left _ hp, hpre⟩
      | true =>
        obtain ⟨p, hp, hpre⟩ := ihr (hlen true ▸ hr)
        exact ⟨p, List.mem_append_right _ hp, hpre⟩

/-- Two codes of a prefix-free list that begin the same sequence are one entry. -/
theorem eq_of_prefix_of_apart {cs : List (Symbol × Code)} (h : cs.Pairwise Apart) {p q : Symbol × Code} {bits : Code}
    (hp : p ∈ cs) (hq : q ∈ cs) (hpre : p.2 <+: bits) (hqre : q.2 <+: bits) : p = q := by
  by_contra hne
  have := apart_symm
  obtain ⟨hpq, hqp⟩ := h.forall hp hq hne
  exact (List.prefix_or_prefix_of_prefix hpre hqre).elim hpq hqp

/-- From two leaves on the codes are the paths, and the height is the longest of them (rule R161). -/
theorem HTree.assigned_eq_codes {T : HTree} (h : 2 ≤ T.leaves.length) :
    T.assigned = T.codes [] ∧ T.height = longestCode (T.codes []) := by
  cases T with
  | leaf e => exact absurd h (by simp [HTree.leaves])
  | branch l r => exact ⟨rfl, rfl⟩

/-- The stages of BUILD leave in ENC, DEC and HEIGHT the code of a tree with NSYM leaves. -/
theorem buildStages_tree {text : List Symbol} {s t : State} (h : buildStages text s = .ok t)
    (hnode : s.per.mem.node = []) :
    ∃ T : HTree, T.leaves.length = t.per.nsym ∧ HoldsCodes T.assigned t.per ∧ t.per.height = T.height := by
  obtain ⟨s₁, hhtb, hca⟩ := buildStages_cases h
  obtain ⟨hft, hnsym⟩ := ftStage_holdsTable text s
  obtain ⟨T, hT⟩ := htbStage_holdsTree hhtb (by rw [ftStage_frame]; exact hnode)
  have hft₁ : s₁.per.mem.ft = tableOf text := by rw [htbStage_frame hhtb]; exact hft
  have hsyms : (T.leaves.map FtEntry.sym).Nodup := by
    rw [(hT.leaves.map _).nodup_iff, hft₁, tableOf_map_sym]
    exact nodup_eraseDups text
  refine ⟨T, ?_, caStage_codes hca hT.carries hsyms⟩
  rw [hT.leaves.length_eq, hft₁, ← hnsym, caStage_frame hca, htbStage_frame hhtb]

/-- What a BUILD of a non-empty text leaves in them (rules R175, R178). -/
theorem execBuild_tree {s t : State} {text : List Symbol} (h : execBuild s = .next t)
    (htext : asText s.inp = some text) (hne : text ≠ []) :
    ∃ T : HTree, T.leaves.length = t.per.nsym ∧ HoldsCodes T.assigned t.per ∧ t.per.height = T.height := by
  obtain ⟨text', hop, hend⟩ := execBuild_cases h
  obtain rfl : text = text' := Option.some.inj (htext.symm.trans (textOperand_ok.1 hop).1)
  obtain ⟨hnil, -⟩ | ⟨-, s₁, hstages, rfl⟩ := hend
  · exact absurd hnil hne
  · have htree := buildStages_tree hstages rfl
    exact htree

/-- Settles O25: the codes are the paths of a tree, whose Kraft sum is 1 and one of which every long enough sequence
follows; no two of them begin the same sequence. -/
theorem codeIsComplete : Obligations.CodeIsComplete := by
  intro s t text htext htwo h
  have hne : text ≠ [] := by rintro rfl; simp at htwo
  obtain ⟨hft, ⟨-, hlen, -⟩, -⟩ := execBuild_builtOk h htext hne
  obtain ⟨T, hleaves, ⟨henc, -⟩, hheight⟩ := execBuild_tree h htext hne
  have htwo' : 2 ≤ T.leaves.length := by rwa [hleaves, ← hlen, hft, length_tableOf]
  obtain ⟨hcodes, hlongest⟩ := HTree.assigned_eq_codes htwo'
  rw [hcodes] at henc
  have hbound : ∀ p ∈ T.codes [], p.2.length ≤ t.per.height := longestCode_le_iff.1 (hheight.trans hlongest).ge
  refine ⟨(henc.map _).sum_eq.trans (HTree.kraft_sum hbound), fun bits hbits => ?_⟩
  obtain ⟨p, hp, hpre⟩ := HTree.exists_code_prefix (bits := bits) fun p hp =>
    ((hbound p hp).trans hbits).trans (Nat.le_add_left _ _)
  exact ⟨p, henc.mem_iff.2 hp, hpre, fun q hq hqre =>
    eq_of_prefix_of_apart (T.codes_apart []) (henc.mem_iff.1 hq) hp hqre hpre⟩

/-! #### HEIGHT and the code lengths (rules R100, R166) -/

/-- A tree is less high than it has leaves. -/
theorem HTree.height_lt (T : HTree) : T.height < T.leaves.length := by
  cases T with
  | leaf e => exact Nat.one_pos
  | branch l r =>
    have hpos := (HTree.branch l r).leaves_length_pos
    have hle : longestCode ((HTree.branch l r).codes []) ≤ (HTree.branch l r).leaves.length - 1 :=
      longestCode_le_iff.2 fun p hp => by
        have := HTree.length_code_lt hp
        simp only [List.length_nil] at this
        omega
    exact Nat.lt_of_le_pred hpos hle

/-- Each leaf adds at least 1 to the Kraft sum over 2^height. -/
theorem HTree.leaves_length_le_two_pow (T : HTree) : T.leaves.length ≤ 2 ^ T.height := by
  cases T with
  | leaf e => exact le_rfl
  | branch l r =>
    have hkraft := HTree.kraft_sum (longestCode_le_iff.1 (le_refl (HTree.branch l r).height))
    rw [List.length_nil, Nat.sub_zero] at hkraft
    rw [← HTree.length_codes _ [], ← hkraft]
    refine (List.length_map _).ge.trans (List.length_le_sum_of_one_le _ fun k hk => ?_)
    obtain ⟨p, -, rfl⟩ := List.mem_map.1 hk
    exact Nat.one_le_two_pow

/-- Settles O26: a tree of n leaves is at most n − 1 high, and has at most 2^HEIGHT leaves; the code
lengths are bounded by HEIGHT, or it is the forced code. -/
theorem heightAndCodeLengthBounds : Obligations.HeightAndCodeLengthBounds := by
  intro s t text htext hne h
  obtain ⟨-, ⟨hone, -⟩, -, -, -, ⟨hcode, -⟩, hpaths, hforced⟩ := execBuild_builtOk h htext hne
  obtain ⟨T, hleaves, -, hheight⟩ := execBuild_tree h htext hne
  have hlt : t.per.height < t.per.nsym := hleaves ▸ hheight ▸ T.height_lt
  have hpow : t.per.nsym ≤ 2 ^ t.per.height := hleaves ▸ hheight ▸ T.leaves_length_le_two_pow
  have hmax : t.per.nsym ≤ s.cfg.nMax := (buildFitsWidths s t h).1
  refine ⟨fun hn => (hforced hn).1, fun hn => ?_, fun x c hc => ?_⟩
  · exact ⟨(hpaths hn).2, Nat.clog_pos one_lt_two hn, Nat.clog_le_of_le_pow hpow, Nat.le_sub_one_of_lt hlt⟩
  · have hmem : (x, c) ∈ t.per.mem.enc := mapFind_mem hc
    have hbound : c.length ≤ max 1 (t.per.nsym - 1) := by
      obtain hn | hn := hone.eq_or_lt
      · obtain rfl : c = [false] := (hforced hn.symm).2 _ hmem
        exact le_max_left _ _
      · have hle : c.length ≤ t.per.height := longestCode_le_iff.1 (hpaths hn).2.ge _ hmem
        exact (hle.trans (Nat.le_sub_one_of_lt hlt)).trans (le_max_right _ _)
    refine ⟨List.length_pos_iff.2 (hcode _ hmem), hbound, hbound.trans ?_⟩
    exact max_le_max_left 1 (Nat.sub_le_sub_right hmax 1)

end Sys2Proof.Machine

/-! ### BUILD and CLEAR (43_build_clear.md) -/

namespace Sys2Proof.Machine

/-! #### The stages of BUILD do not fault (rules R150, R169, R178) -/

/-- Between two merges every entry of PQ is valid in NODE, so with two of them a merge does not fault (rule R145). -/
theorem MergeInv.exists_mergeStep {es : List FtEntry} {s : State} (h : MergeInv es s) (hpq : 1 < s.tr.pq.length) :
    ∃ t, mergeStep s = .ok t := by
  obtain ⟨a, q₁, ha⟩ := exists_pqTake (List.ne_nil_of_length_pos (Nat.zero_lt_of_lt hpq))
  have hperm₁ := (pqTake_spec ha).1
  have hq₁ : 0 < q₁.length := by simpa [hperm₁.length_eq] using hpq
  obtain ⟨b, q₂, hb⟩ := exists_pqTake (List.ne_nil_of_length_pos hq₁)
  have hmem : b ∈ q₁ := (pqTake_spec hb).1.mem_iff.2 List.mem_cons_self
  have hlt := h.owned.queue.2
  exact ⟨_, mergeStep_of_takes ha hb (hlt a (hperm₁.mem_iff.2 List.mem_cons_self))
    (hlt b (hperm₁.mem_iff.2 (List.mem_cons_of_mem _ hmem))) h.seq_eq⟩

/-- Each merge leaves one entry fewer in PQ, so as many merges as there are entries bring it down to one (rule R150). -/
theorem MergeInv.exists_mergeLoop {k : Nat} {es : List FtEntry} {s : State} (h : MergeInv es s)
    (hpos : 0 < s.tr.pq.length) (hk : s.tr.pq.length ≤ k) : ∃ t, mergeLoop k s = .ok t ∧ t.tr.pq.length = 1 := by
  induction k generalizing s with
  | zero => omega
  | succ k ih =>
    rw [mergeLoop_succ]
    by_cases hpq : 1 < s.tr.pq.length
    · obtain ⟨s₁, hstep⟩ := h.exists_mergeStep hpq
      have hlen := mergeStep_length_pq hstep
      rw [if_pos hpq, hstep]
      exact ih (mergeStep_mergeInv h hstep) (by omega) (by omega)
    · rw [if_neg hpq]
      exact ⟨s, rfl, by omega⟩

/-- Seeding puts one entry in PQ for each entry of FT (rule R141). -/
theorem SeedInv.length_pq {es : List FtEntry} {s : State} (h : SeedInv es s) : s.tr.pq.length = es.length := by
  have hcount := h.node_add_pq
  rw [h.node_eq, List.length_map] at hcount
  omega

/-- The HTB stage does not fault on a table that is not empty (rules R148, R150). -/
theorem exists_htbStage {s : State} (hnode : s.per.mem.node = []) (hnsym : s.per.nsym = s.per.mem.ft.length)
    (hpos : s.per.nsym ≠ 0) : ∃ t, htbStage s = .ok t := by
  have hseed : SeedInv s.per.mem.ft (seedStage s) := seedLoop_seedInv (pqClear_seedInv hnode) s.per.mem.ft
  have hpq : (seedStage s).tr.pq.length = s.per.nsym := hseed.length_pq.trans hnsym.symm
  obtain ⟨s₁, hloop, hone⟩ := hseed.mergeInv.exists_mergeLoop (hpq ▸ Nat.pos_of_ne_zero hpos) hpq.le
  obtain ⟨r, hr⟩ := List.length_eq_one_iff.1 hone
  exact ⟨setRoot r.id s₁, by simp [htbStage, hpos, hloop, takeRoot, hr]⟩

/-- A walk over a tree does not fault with as much fuel as the tree has leaves, which is more than its depth. -/
theorem Carries.exists_walk {T : HTree} {fuel id : Nat} {path : Code} {s : State} (hT : Carries s.per.mem.node id T)
    (hfuel : T.leaves.length ≤ fuel) : ∃ t, walk fuel id path s = .ok t := by
  induction T generalizing fuel id path s with
  | leaf e =>
    obtain ⟨k, rfl⟩ := Nat.exists_eq_add_of_le' hfuel
    have hid : nodeRead id (setPath path s) = some (.leaf e.sym e.count) := hT
    exact ⟨_, by rw [HTree.leaves, List.length_singleton, walk, hid]⟩
  | branch l r ihl ihr =>
    obtain ⟨a, b, hab, hl, hr⟩ := hT
    have hposl := l.leaves_length_pos
    have hposr := r.leaves_length_pos
    rw [HTree.leaves, List.length_append] at hfuel
    obtain ⟨k, rfl⟩ : ∃ k, fuel = k + 1 := ⟨fuel - 1, by omega⟩
    have hid : nodeRead id (setPath path s) = some (.internal (l.freq + r.freq) a b) := hab
    obtain ⟨s₁, hwalkl⟩ := ihl (path := path ++ [false]) (s := setPath path s) hl (by omega : _ ≤ k)
    have hnode : s₁.per.mem.node = s.per.mem.node := by rw [walk_frame hwalkl]; rfl
    obtain ⟨t, hwalkr⟩ := ihr (path := path ++ [true]) (hnode ▸ hr) (by omega : _ ≤ k)
    exact ⟨t, by simp only [walk, hid, hwalkl, hwalkr]⟩

/-- The CA stage does not fault on a tree of at most NODECOUNT leaves (rule R169). -/
theorem Carries.exists_caStage {T : HTree} {s : State} (hT : Carries s.per.mem.node s.per.root T)
    (hcount : T.leaves.length ≤ s.per.nodecount) : ∃ t, caStage s = .ok t := by
  cases T with
  | leaf e =>
    have hroot : nodeRead s.per.root s = some (.leaf e.sym e.count) := hT
    exact ⟨_, by rw [caStage, hroot]⟩
  | branch l r =>
    have hroot := hT
    obtain ⟨a, b, hab, -, -⟩ := hroot
    have hread : nodeRead s.per.root s = some (.internal (l.freq + r.freq) a b) := hab
    rw [caStage, hread]
    exact Carries.exists_walk (s := startWalk s) hT hcount

/-- The three stages, started on empty tables, do not fault on a text with at least one symbol (rule R178). -/
theorem exists_buildStages {text : List Symbol} {s : State} (hne : text ≠ []) (hnode : s.per.mem.node = []) :
    ∃ t, buildStages text s = .ok t := by
  obtain ⟨hft, hnsym⟩ := ftStage_holdsTable text s
  have hnode' : (ftStage text s).per.mem.node = [] := by rw [ftStage_frame]; exact hnode
  have hpos : (ftStage text s).per.nsym ≠ 0 := by rw [hnsym]; exact mt length_tableOf_eq_zero.1 hne
  obtain ⟨s₁, hhtb⟩ := exists_htbStage hnode' (by rw [hft, hnsym]) hpos
  obtain ⟨T, hT⟩ := htbStage_holdsTree hhtb hnode'
  have hcount : T.leaves.length ≤ s₁.per.nodecount := by
    have hlt := T.leaves_length_pos
    rw [hT.nodecount_eq, hT.node_length, ← hT.leaves.length_eq]
    omega
  obtain ⟨t, hca⟩ := hT.carries.exists_caStage hcount
  exact ⟨t, by simp only [buildStages, hhtb, hca]⟩

/-- BUILD of an admitted text with at least one symbol comes to its final step (rules R175, R178). -/
theorem exists_execBuild_eq_buildDone {s : State} {text : List Symbol} (htext : textOperand s.cfg s.inp = .ok text)
    (hne : text ≠ []) : ∃ s₁, execBuild s = .next (buildDone s₁) := by
  obtain ⟨s₁, hstages⟩ := exists_buildStages (s := discard (startCommand s)) hne rfl
  exact ⟨s₁, execBuild_of_stages htext hne hstages⟩

/-- Settles O28: the stages do not fault, and the final step writes VALID, STATUS and the response; the rest is the
invariant of rule R42 and the frequency of the root, which every BUILD of a text leaves. -/
theorem buildOfTextSucceeds : Obligations.BuildOfTextSucceeds := by
  intro s text htext hfit hlen hne
  obtain ⟨s₁, h⟩ := exists_execBuild_eq_buildDone (textOperand_ok.2 ⟨htext, hfit, hlen⟩) hne
  exact ⟨buildDone s₁, h, rfl, rfl, (execBuild_builtOk h htext hne).2,
    (rootFrequencyIsTextLength s _ text htext hne h).1, rfl⟩

/-! #### When a command answers a next state (rules R178, R289) -/

/-- The outcome `r` is a next state exactly when `p`, and it is no fault. -/
def CompletesWhen (p : Prop) (r : Host.Outcome State Fault Refusal) : Prop :=
  ((∃ t, r = .next t) ↔ p) ∧ ∀ f, r ≠ .fault f

section
variable {p q : Prop} {r : Host.Outcome State Fault Refusal}

theorem CompletesWhen.congr (h : CompletesWhen p r) (hpq : p ↔ q) : CompletesWhen q r :=
  ⟨h.1.trans hpq, h.2⟩

theorem CompletesWhen.of_next {t : State} (h : r = .next t) (hp : p) :
    CompletesWhen p r := by
  subst h
  exact ⟨iff_of_true ⟨t, rfl⟩ hp, nofun⟩

theorem CompletesWhen.of_refused {e : Refusal} (h : r = .refused e) (hp : ¬ p) : CompletesWhen p r := by
  subst h
  exact ⟨iff_of_false nofun hp, nofun⟩

end

theorem execBuild_completes (s : State) :
    CompletesWhen (admitted (textOperand s.cfg s.inp) = true) (execBuild s) := by
  cases htext : textOperand s.cfg s.inp with
  | error e => exact .of_refused (execBuild_refused htext) Bool.false_ne_true
  | ok text =>
    by_cases hne : text = []
    · subst hne
      exact .of_next (execBuild_of_nil htext) rfl
    · obtain ⟨s₁, h⟩ := exists_execBuild_eq_buildDone htext hne
      exact .of_next h rfl

/-- The VALID test stands between the operand form and the bound on the result (rules R7, R190, R191). -/
theorem execCompress_completes (s : State) :
    CompletesWhen (admitted (textOperand s.cfg s.inp) = true ∧ (s.per.valid = true →
      within s.cfg.maxBits ((inText s).flatMap (codeOrNothing s)).length = true)) (execCompress s) := by
  cases htext : textOperand s.cfg s.inp with
  | error e => exact .of_refused (execCompress_refused htext) fun h => Bool.false_ne_true h.1
  | ok text =>
    rw [inText_of_textOperand htext]
    cases hvalid : s.per.valid with
    | false => exact .of_next (execCompress_of_not_valid htext hvalid) ⟨rfl, fun h => absurd h Bool.false_ne_true⟩
    | true =>
      cases hbits : within s.cfg.maxBits (text.flatMap (codeOrNothing s)).length with
      | false =>
        exact .of_refused (execCompress_resultTooLong htext hvalid hbits) fun h => Bool.false_ne_true (h.2 rfl)
      | true => exact .of_next (execCompress_of_valid htext hvalid hbits) ⟨rfl, fun _ => rfl⟩

theorem execDecompress_completes (s : State) :
    CompletesWhen (admitted (digitsOperand s.cfg s.inp) = true) (execDecompress s) := by
  cases hbits : digitsOperand s.cfg s.inp with
  | error e => exact .of_refused (execDecompress_refused hbits) Bool.false_ne_true
  | ok bits => exact .of_next (execDecompress_of_digits hbits) rfl

theorem query_completes (answer : Symbol → State → Response) (s : State) :
    CompletesWhen (admitted (symbolOperand s.cfg s.inp) = true) (query answer s) := by
  cases hx : symbolOperand s.cfg s.inp with
  | error e => exact .of_refused (query_refused hx) Bool.false_ne_true
  | ok x => exact .of_next (query_of_symbol hx) rfl

/-- The domain of each command is what its operand form admits, and CLEAR takes none (rules R63, R91). -/
theorem exec_completes (i : Instr) (s : State) :
    CompletesWhen ((i = .clear ∨ WellFormed s.cfg i s.inp = true) ∧ (i = .compress → s.per.valid = true →
      within s.cfg.maxBits ((inText s).flatMap (codeOrNothing s)).length = true)) (exec i s) := by
  cases i with
  | build => exact (execBuild_completes s).congr (by simp [WellFormed, operandKindOf])
  | compress => exact (execCompress_completes s).congr (by simp [WellFormed, operandKindOf])
  | decompress => exact (execDecompress_completes s).congr (by simp [WellFormed, operandKindOf])
  | clear => exact .of_next rfl (by simp)
  | qfreq => exact (query_completes (fun x s => .qfreq (freqAnswer x s)) s).congr (by simp [WellFormed, operandKindOf])
  | qcode => exact (query_completes codeAnswer s).congr (by simp [WellFormed, operandKindOf])
  | qmember => exact (query_completes memberAnswer s).congr (by simp [WellFormed, operandKindOf])

/-- Settles O13: every command completes exactly then, BUILD because its stages do not fault. -/
theorem commandsCompleteWhenAdmitted : Obligations.CommandsCompleteWhenAdmitted :=
  ⟨fun i s => (exec_completes i s).1, fun i s => (exec_completes i s).2⟩

/-! #### What a BUILD depends on and what it leaves alone (rules R176, R177, R179) -/

/-- Settles O29: the discard leaves the reset state of everything but STATUS, as CLEAR does. -/
theorem buildOfEmptyTextFails : Obligations.BuildOfEmptyTextFails := by
  intro s htext
  have hop : textOperand s.cfg s.inp = .ok [] := textOperand_ok.2 ⟨htext, rfl, within_zero _⟩
  refine ⟨_, execBuild_of_nil hop, rfl, rfl, fun u v hclear => ?_⟩
  cases hclear
  rfl

/-- Settles O30: both BUILDs are of one text, whatever the bounds it was admitted under. -/
theorem buildIsFunctionOfText : Obligations.BuildIsFunctionOfText := by
  intro s s' t t' hin h h'
  obtain ⟨text, htext, -⟩ := execBuild_cases h
  obtain ⟨text', htext', -⟩ := execBuild_cases h'
  obtain rfl : text = text' := Option.some.inj
    (((textOperand_ok.1 htext).1.symm.trans hin).trans (textOperand_ok.1 htext').1)
  obtain ⟨u, hu, hper, -, -⟩ := execBuild_givesResult h (htext'.trans htext.symm)
  cases h'.symm.trans hu
  exact hper.symm

/-- The stages of BUILD write the tables, NSYM, NODECOUNT, ROOT, HEIGHT, and the transients but BUF. -/
theorem buildStages_frame {text : List Symbol} {s t : State} (h : buildStages text s = .ok t) :
    t = { s with
      per := { s.per with
        nsym := t.per.nsym, nodecount := t.per.nodecount, root := t.per.root, height := t.per.height, mem := t.per.mem }
      tr := { t.tr with buf := s.tr.buf } } := by
  obtain ⟨s₁, hhtb, hca⟩ := buildStages_cases h
  rw [caStage_frame hca, htbStage_frame hhtb, ftStage_frame]

/-- Settles O31: the discard zeroes the statistics, and neither the stages nor the end of BUILD write what is listed. -/
theorem buildFrame : Obligations.BuildFrame := by
  intro s t h
  obtain ⟨text, -, ⟨-, rfl⟩ | ⟨-, s₁, hstages, rfl⟩⟩ := execBuild_cases h
  · exact ⟨rfl, rfl, rfl, rfl, rfl, rfl, rfl, rfl, rfl, rfl⟩
  · rw [buildStages_frame hstages]
    exact ⟨rfl, rfl, rfl, rfl, rfl, rfl, rfl, rfl, rfl, rfl⟩

/-! #### CLEAR (rules R183, R184) -/

/-- Settles O32: the word is CLEAR's, and CLEAR reads nothing of what it discards. -/
theorem clearDiscardsEverything : Obligations.ClearDiscardsEverything :=
  ⟨decode_encode .clear, fun _ => rfl⟩

/-- Settles O33: CLEAR writes the same persistent state whatever was there. It has VALID = 0, with which the other two
commands end in NoTreeError. -/
theorem clearLeavesNoTree : Obligations.ClearLeavesNoTree := by
  refine ⟨fun s t _ hempty h => ?_, fun s t u h h' => ?_, fun s t u op h h' => ?_⟩
  · cases h
    rw [hempty]
    rfl
  · cases h
    cases h'
    rfl
  · cases h
    obtain h' | h' := h'
    · exact (execCompress_outcome h').1
    · exact (execDecompress_outcome h').1

/-! #### VALID between the small steps of a BUILD (rule R180) -/

/-- What a BUILD has left to do from its discard step on, its end not counted. -/
def Work.isBuildStage : Work → Bool
  | .emptyText | .ft _ | .seed _ | .merge | .single _ | .walk | .buildEnd => true
  | _ => false

/-- The command has ended, or it is a BUILD after its discard step and VALID is 0. -/
def DoneOrNoTree (m : Micro) : Prop :=
  m.work = .done ∨ (m.work.isBuildStage = true ∧ m.st.per.valid = false)

section
variable {s : State} {m : Micro} (hvalid : s.per.valid = false)
include hvalid

theorem enterVisit_doneOrNoTree : DoneOrNoTree (enterVisit s) := by
  unfold enterVisit
  split <;> exact .inr ⟨rfl, hvalid⟩

theorem enterWalk_doneOrNoTree (h : enterWalk s = .ok m) : DoneOrNoTree m := by
  unfold enterWalk at h
  split at h <;> cases h <;> exact .inr ⟨rfl, hvalid⟩

theorem enterMerge_doneOrNoTree (h : enterMerge s = .ok m) : DoneOrNoTree m := by
  unfold enterMerge at h
  split at h
  · cases h
    exact .inr ⟨rfl, hvalid⟩
  · split at h
    · cases h
    · next s₁ hroot =>
      obtain ⟨r, -, rfl⟩ := takeRoot_cases hroot
      exact enterWalk_doneOrNoTree (s := setRoot r.id s) hvalid h

theorem enterSeed_doneOrNoTree {es : List FtEntry} (h : enterSeed es s = .ok m) : DoneOrNoTree m := by
  cases es with
  | nil => exact enterMerge_doneOrNoTree hvalid h
  | cons e es =>
    cases h
    exact .inr ⟨rfl, hvalid⟩

theorem enterFt_doneOrNoTree {text : List Symbol} (h : enterFt text s = .ok m) : DoneOrNoTree m := by
  cases text with
  | nil => exact enterSeed_doneOrNoTree (s := pqClear s) hvalid h
  | cons x xs =>
    cases h
    exact .inr ⟨rfl, hvalid⟩

end

/-- A visit of the walk does not write VALID (rule R165). -/
theorem visitStep_valid {s t : State} (h : visitStep s = .ok t) : t.per.valid = s.per.valid := by
  unfold visitStep at h
  split at h
  · cases h
    rfl
  · split at h <;> cases h <;> rfl

/-- The discard step of a BUILD sets VALID to 0 (rule R176). -/
theorem microStep_discard_doneOrNoTree {text : List Symbol} {s : State} {m : Micro}
    (h : microStep ⟨.discard text, s⟩ = .ok m) : DoneOrNoTree m := by
  cases text with
  | nil =>
    cases h
    exact .inr ⟨rfl, rfl⟩
  | cons x xs => exact enterFt_doneOrNoTree (text := x :: xs) (s := ftClear (discard s)) rfl h

/-- Of the small steps of a BUILD after the discard step only the final one writes VALID. -/
theorem microStep_doneOrNoTree {m m' : Micro} (hm : DoneOrNoTree m) (h : microStep m = .ok m') : DoneOrNoTree m' := by
  obtain ⟨work, s⟩ := m
  obtain hdone | ⟨hstage, hvalid⟩ := hm
  · cases hdone
    cases h
    exact .inl rfl
  · have hvalid : s.per.valid = false := hvalid
    cases work with
    | emptyText => cases h; exact .inl rfl
    | buildEnd => cases h; exact .inl rfl
    | single x => cases h; exact .inr ⟨rfl, hvalid⟩
    | ft rest =>
      cases rest with
      | nil => exact enterFt_doneOrNoTree (text := []) hvalid h
      | cons x xs =>
        have hvalid' : (ftStep s x).per.valid = false := by rw [ftStep_frame]; exact hvalid
        exact enterFt_doneOrNoTree hvalid' h
    | seed rest =>
      cases rest with
      | nil => exact enterSeed_doneOrNoTree (es := []) hvalid h
      | cons e es => exact enterSeed_doneOrNoTree (s := seedStep s e) hvalid h
    | merge =>
      cases hstep : mergeStep s with
      | error f => simp [microStep, hstep] at h
      | ok s₁ =>
        have hframe : SameButNodePq s s₁ := mergeStep_frame hstep
        have hvalid' : s₁.per.valid = false := by rw [hframe]; exact hvalid
        exact enterMerge_doneOrNoTree hvalid' ((microStep_merge hstep).symm.trans h)
    | walk =>
      cases hstep : visitStep s with
      | error f => simp [microStep, hstep] at h
      | ok s₁ =>
        cases (microStep_walk hstep).symm.trans h
        exact enterVisit_doneOrNoTree ((visitStep_valid hstep).trans hvalid)
    | _ => cases hstage

/-- A run that does not fault is its first step and the rest of it. -/
theorem microRun_succ_cases {k : Nat} {m m' : Micro} (h : microRun (k + 1) m = .ok m') :
    ∃ m₁, microStep m = .ok m₁ ∧ microRun k m₁ = .ok m' := by
  cases hstep : microStep m with
  | error f => simp [microRun, hstep] at h
  | ok m₁ => exact ⟨m₁, rfl, (microRun_succ hstep k).symm.trans h⟩

theorem microRun_doneOrNoTree {k : Nat} {m m' : Micro} (hm : DoneOrNoTree m) (h : microRun k m = .ok m') :
    DoneOrNoTree m' := by
  induction k generalizing m with
  | zero =>
    cases h
    exact hm
  | succ k ih =>
    obtain ⟨m₁, hstep, hrest⟩ := microRun_succ_cases h
    exact ih (microStep_doneOrNoTree hm hstep) hrest

/-- Settles O60: the first small step is the discard, every later one but the last leaves VALID at 0, and before its last
step the BUILD has not ended. -/
theorem noTreeWhileBuilding : Obligations.NoTreeWhileBuilding := by
  intro s t k m h hpos hlt hrun
  have hrunning : m.work ≠ .done := (smallStepsReachCommandResult .build s t h).2 k m hlt hrun
  obtain ⟨k, rfl⟩ := Nat.exists_eq_add_of_le' hpos
  obtain ⟨m₁, hdiscard, hrest⟩ := microRun_succ_cases hrun
  have hm : DoneOrNoTree m := microRun_doneOrNoTree (microStep_discard_doneOrNoTree hdiscard) hrest
  exact (hm.resolve_left hrunning).2

end Sys2Proof.Machine

/-! ### COMPRESS: what it gives, its lengths, and the way back (44_encoder.md) -/

namespace Sys2Proof.Machine

/-- Settles O34: with the operand and the result within the bounds the command ends in the closed form of the encoder's
loop. -/
theorem compressEncodesText : Obligations.CompressEncodesText := by
  intro s text htext hfit hlen hvalid hbits
  have h := execCompress_of_valid (textOperand_ok.2 ⟨htext, hfit, hlen⟩) hvalid hbits
  rwa [compressDone_loop] at h

/-- Settles O35: the VALID test comes before the loop, so all that is written is STATUS. -/
theorem compressWithoutTree : Obligations.CompressWithoutTree := fun _ _ htext hfit hlen hvalid =>
  execCompress_of_not_valid (textOperand_ok.2 ⟨htext, hfit, hlen⟩) hvalid

/-! #### How many digits are emitted (rule R197 items 1, 2 and 5) -/

section
variable {s : State} {x : Symbol} {c : Code}

theorem codeOrNothing_of_find (h : encFind x s = some c) : codeOrNothing s x = c := by
  simp [codeOrNothing, h]

theorem isMapped_of_find (h : encFind x s = some c) : isMapped s x = true := by
  simp [isMapped, h]

theorem codeOrNothing_of_none (h : encFind x s = none) : codeOrNothing s x = [] := by
  simp [codeOrNothing, h]

theorem isMapped_of_none (h : encFind x s = none) : isMapped s x = false := by
  simp [isMapped, h]

/-- Under the invariants of a tree a code has between one digit and `max(HEIGHT, 1)` (rules R42 item 6, R164). -/
theorem code_length_bounds {k : Config} (hbuilt : builtOk k s.per) (h : encFind x s = some c) :
    1 ≤ c.length ∧ c.length ≤ max s.per.height 1 := by
  obtain ⟨⟨hone, -⟩, -, -, -, ⟨hne, -⟩, hpaths, hforced⟩ := hbuilt
  have hmem : (x, c) ∈ s.per.mem.enc := mapFind_mem h
  refine ⟨List.length_pos_iff.2 (hne _ hmem), ?_⟩
  obtain hn | hn := hone.eq_or_lt
  · obtain rfl : c = [false] := (hforced hn.symm).2 _ hmem
    exact le_max_right _ _
  · exact (longestCode_le_iff.1 (hpaths hn).2.ge _ hmem).trans (le_max_left _ _)

end

/-- Each mapped symbol emits between 1 and `n` digits when the codes are that long, each other one none. -/
theorem length_emitted_bounds {s : State} {n : Nat}
    (hcode : ∀ x c, encFind x s = some c → 1 ≤ c.length ∧ c.length ≤ n) (text : List Symbol) :
    text.countP (isMapped s) ≤ (text.flatMap (codeOrNothing s)).length ∧
    (text.flatMap (codeOrNothing s)).length ≤ text.countP (isMapped s) * n := by
  induction text with
  | nil => simp
  | cons x xs ih =>
    obtain ⟨hlow, hhigh⟩ := ih
    rw [List.flatMap_cons, List.length_append]
    cases hx : encFind x s with
    | none =>
      rw [codeOrNothing_of_none hx, List.countP_cons_of_neg (by simp [isMapped_of_none hx]), List.length_nil,
        Nat.zero_add]
      exact ⟨hlow, hhigh⟩
    | some c =>
      obtain ⟨hpos, hle⟩ := hcode x c hx
      rw [codeOrNothing_of_find hx, List.countP_cons_of_pos (isMapped_of_find hx), Nat.succ_mul]
      omega

/-- Settles O36: the counters are the lengths and the count of the encoder's closed form, and `SYMCOUNT − SKIPCOUNT`
is the number of the mapped symbols. -/
theorem compressedLengthBounds : Obligations.CompressedLengthBounds := by
  intro s t ⟨_, _, hbuilt, _⟩ hvalid h
  obtain ⟨text, -, ⟨hnot, -⟩ | ⟨-, rfl, -⟩⟩ := execCompress_cases h
  · exact absurd (hvalid.symm.trans hnot) (by decide)
  · have hmapped : text.length - text.countP (fun x => !isMapped s x) = text.countP (isMapped s) := by
      have := text.length_eq_countP_add_countP (isMapped s)
      simp only [Bool.not_eq_true, Bool.decide_eq_false] at this
      omega
    rw [compressDone_loop]
    refine ⟨List.countP_le_length, rfl, ?_⟩
    dsimp only
    rw [hmapped]
    exact length_emitted_bounds (fun _ _ => code_length_bounds (hbuilt hvalid)) text

/-- A sum over the positions of a text is the sum over its table, each symbol taken as often as it occurs. -/
theorem sum_map_eq_sum_tableOf (g : Symbol → Nat) (text : List Symbol) :
    (text.map g).sum = ((tableOf text).map fun e => e.count * g e.sym).sum := by
  have hset : text.eraseDups.toFinset = text.toFinset := by
    ext x
    simp only [List.mem_toFinset, List.mem_eraseDups]
  calc (text.map g).sum = ∑ x ∈ text.toFinset, text.count x • g x := Finset.sum_list_map_count text g
    _ = (text.eraseDups.map fun x => text.count x * g x).sum := by
      rw [← hset, List.sum_toFinset _ (nodup_eraseDups text)]
      rfl
    _ = ((tableOf text).map fun e => e.count * g e.sym).sum := by rw [tableOf, List.map_map]; rfl

/-- After a BUILD of a non-empty text there is a tree, and every symbol of the text has a code (rules R178, R42). -/
theorem execBuild_maps_text {s t : State} {text : List Symbol} (h : execBuild s = .next t)
    (htext : asText s.inp = some text) (hne : text ≠ []) :
    t.per.valid = true ∧ ∀ x ∈ text, isMapped t x = true := by
  obtain ⟨hft, -, -, -, ⟨-, -, hmapped, -⟩, -⟩ := execBuild_builtOk h htext hne
  refine ⟨?_, fun x hx => ?_⟩
  · obtain ⟨text', hop, ⟨hnil, -⟩ | ⟨-, s₁, -, rfl⟩⟩ := execBuild_cases h
    · exact absurd (Option.some.inj (htext.symm.trans (textOperand_ok.1 hop).1) ▸ hnil) hne
    · rfl
  · have he : (⟨x, text.count x⟩ : FtEntry) ∈ t.per.mem.ft :=
      hft ▸ List.mem_map_of_mem (List.mem_eraseDups.2 hx)
    exact hmapped _ he

/-- Settles O37: every symbol of the text has a code, and the lengths are added up over the table of the text. -/
theorem ownTextBitCount : Obligations.OwnTextBitCount := by
  intro s t u text htext hne hbuild h
  obtain ⟨hvalid, hall⟩ := execBuild_maps_text hbuild htext hne
  have hft : t.per.mem.ft = tableOf text := (execBuild_builtOk hbuild htext hne).1
  obtain ⟨text', hop, ⟨hnot, -⟩ | ⟨-, rfl, -⟩⟩ := execCompress_cases h
  · exact absurd (hvalid.symm.trans hnot) (by decide)
  · obtain rfl : text = text' := Option.some.inj (textOperand_ok.1 hop).1
    rw [compressDone_loop]
    refine ⟨List.countP_eq_zero.2 fun x hx => ?_, ?_⟩
    · have hx' : isMapped { t with inp := .text text } x = true := hall x hx
      simp [hx']
    · rw [hft, ← sum_map_eq_sum_tableOf fun x => (codeOrNothing t x).length]
      exact List.length_flatMap

/-! #### Decoding what was encoded (rule R197 items 3 and 4) -/

/-- The decoder emits nothing until its buffer is in the map: along a code of which no proper prefix is, it comes to
that code and starts again. -/
theorem decodeFrom_code_append {dec : List (Code × Symbol)} {c : Code} {x : Symbol} (hc : mapFind c dec = some x)
    (hfree : ∀ d, d <+: c → d ≠ c → mapFind d dec = none) (rest : List Digit) {buf ds : Code} (hds : ds ≠ [])
    (hbuf : buf ++ ds = c) :
    decodeFrom dec buf (ds ++ rest) = (x :: (decodeFrom dec [] rest).1, (decodeFrom dec [] rest).2) := by
  induction ds generalizing buf with
  | nil => exact absurd rfl hds
  | cons d ds ih =>
    rw [List.append_cons] at hbuf
    rw [List.cons_append, decodeFrom]
    obtain rfl | hds' := eq_or_ne ds []
    · rw [List.append_nil] at hbuf
      rw [hbuf, hc, List.nil_append]
    · have hproper : buf ++ [d] ≠ c := fun he => hds' (by simpa [he] using hbuf)
      rw [hfree _ ⟨ds, hbuf⟩ hproper]
      exact ih hds' hbuf

/-- No proper prefix of a code is a code (rule R42 items 5 and 6). -/
theorem mapFind_dec_of_proper_prefix {p : Persistent} (hmaps : mapsOk p) (hcodes : codesOk p) {x : Symbol} {c d : Code}
    (hc : mapFind x p.mem.enc = some c) (hdc : d <+: c) (hne : d ≠ c) : mapFind d p.mem.dec = none := by
  by_contra hfound
  obtain ⟨y, hy⟩ := Option.ne_none_iff_exists'.1 hfound
  have hd : mapFind y p.mem.enc = some d := (mapFind_enc_iff_dec hmaps y d).2 hy
  have hyx : y ≠ x := by
    rintro rfl
    exact hne (Option.some.inj (hd.symm.trans hc))
  have hnot := hcodes.2 _ (mapFind_mem hd) _ (mapFind_mem hc) hyx
  rw [List.isPrefixOf_iff_prefix.2 hdc] at hnot
  exact Bool.noConfusion hnot

/-- The codes of a text decode to its mapped symbols, and nothing is left in the buffer (rules R197, R213). -/
theorem decodeFrom_emitted {s : State} (hmaps : mapsOk s.per) (hcodes : codesOk s.per) (text : List Symbol) :
    decodeFrom s.per.mem.dec [] (text.flatMap (codeOrNothing s)) = (text.filter (isMapped s), []) := by
  induction text with
  | nil => rfl
  | cons x xs ih =>
    rw [List.flatMap_cons]
    cases hx : encFind x s with
    | none =>
      rw [codeOrNothing_of_none hx, List.filter_cons_of_neg (by simp [isMapped_of_none hx]), List.nil_append, ih]
    | some c =>
      have hne : c ≠ [] := hcodes.1 _ (mapFind_mem hx)
      have hdec : mapFind c s.per.mem.dec = some x := (mapFind_enc_iff_dec hmaps x c).1 hx
      rw [codeOrNothing_of_find hx, List.filter_cons_of_pos (isMapped_of_find hx),
        decodeFrom_code_append hdec (fun _ => mapFind_dec_of_proper_prefix hmaps hcodes hx) _ hne (List.nil_append c),
        ih]

/-- A DECOMPRESS whose digits decode to `xs` with nothing left over answers `xs` and err = 0 (rules R210, R212). -/
theorem execDecompress_of_decoded {s : State} {bits : List Digit} {xs : List Symbol}
    (hbits : digitsOperand s.cfg s.inp = .ok bits) (hvalid : s.per.valid = true)
    (hdecode : decodeFrom s.per.mem.dec [] bits = (xs, [])) :
    ∃ u, execDecompress s = .next u ∧ u.per.status = 0#2 ∧ u.out.text = xs ∧ u.tr.buf = [] ∧
      u.resp = some (.response (.decompress 0#2 xs)) := by
  refine ⟨_, execDecompress_of_digits hbits, ?_⟩
  rw [decompressDigits_of_valid (s := startCommand s) hvalid, startCommand_per, hdecode]
  exact ⟨rfl, rfl, rfl, rfl⟩

/-- Settles O38: COMPRESS leaves VALID and the LUTs as they are, and the digits it puts on OUT decode to the mapped
symbols, which are all of them when every symbol is mapped. -/
theorem roundTripReturnsMappedText : Obligations.RoundTripReturnsMappedText := by
  intro s text ⟨_, _, hbuilt, _⟩ hvalid hfit hlen hbits
  obtain ⟨-, -, -, hmaps, hcodes, -⟩ := hbuilt hvalid
  obtain ⟨t, hcompress, hcfg, hvalid', hmem, hout⟩ : ∃ t, runCommand .compress (.text text) s = .next t ∧
      t.cfg = s.cfg ∧ t.per.valid = true ∧ t.per.mem = s.per.mem ∧ t.out.digits = text.flatMap (codeOrNothing s) :=
    ⟨_, compressEncodesText (accept (.text text) s.host s) text rfl hfit hlen hvalid hbits, rfl, hvalid, rfl, rfl⟩
  rw [roundTrip, hcompress]
  have hdecode : decodeFrom t.per.mem.dec [] t.out.digits = (text.filter (isMapped s), []) := by
    rw [hmem, hout]
    exact decodeFrom_emitted hmaps hcodes text
  have hop : digitsOperand t.cfg (.digits t.out.digits) = .ok t.out.digits :=
    digitsOperand_ok.2 ⟨rfl, by rwa [hcfg, hout]⟩
  obtain ⟨u, hu, hstatus, htext, -, hresp⟩ :=
    execDecompress_of_decoded (s := accept (.digits t.out.digits) t.host t) hop hvalid' hdecode
  refine ⟨u, hu, hstatus, htext, fun hall => ?_⟩
  rw [hresp, List.filter_eq_self.2 hall]

end Sys2Proof.Machine

/-! ### DECOMPRESS: the decoder and what is left in its buffer (45_decoder.md) -/

namespace Sys2Proof.Machine

/-- Settles O39: the two cases of the decoder's step, told apart by the lookup. -/
theorem digitStepMatchesExactly : Obligations.DigitStepMatchesExactly := by
  intro s d
  obtain ⟨x, hx, hstep⟩ | ⟨hx, hstep⟩ := digitStep_cases s d
  · refine ⟨fun y hy => ?_, fun hnone => by simp [hx] at hnone⟩
    obtain rfl : x = y := Option.some.inj (hx.symm.trans hy)
    exact hstep
  · exact ⟨fun y hy => by simp [hx] at hy, fun _ => hstep⟩

/-- Settles O40: the digits are admitted, and the command ends in the closed form of the decoder's loop. -/
theorem decompressRunsDecoder : Obligations.DecompressRunsDecoder := by
  intro s bits hbits hlen hvalid
  have h := execDecompress_of_digits (digitsOperand_ok.2 ⟨hbits, hlen⟩)
  rwa [decompressDigits_of_valid (s := startCommand s) hvalid] at h

/-- Settles O41: the VALID test comes before the loop, so all that is written is STATUS. -/
theorem decompressWithoutTree : Obligations.DecompressWithoutTree := by
  intro s bits hbits hlen hvalid
  have h := execDecompress_of_digits (digitsOperand_ok.2 ⟨hbits, hlen⟩)
  rwa [decompressDigits_of_not_valid (s := startCommand s) hvalid] at h

/-- Settles O42: nothing of a text of mapped symbols is skipped, and its codes decode to it. -/
theorem codesDecodeToTheirSymbols : Obligations.CodesDecodeToTheirSymbols := by
  intro s xs ⟨_, _, hbuilt, _⟩ hvalid hmapped hbits hlen
  obtain ⟨-, -, -, hmaps, hcodes, -⟩ := hbuilt hvalid
  have hdecode := decodeFrom_emitted hmaps hcodes xs
  rw [List.filter_eq_self.2 hmapped] at hdecode
  obtain ⟨t, ht, hstatus, htext, hbuf, hresp⟩ :=
    execDecompress_of_decoded (digitsOperand_ok.2 ⟨hbits, hlen⟩) hvalid hdecode
  exact ⟨t, ht, htext, hstatus, hbuf, hresp⟩

/-- What a DECOMPRESS with a tree puts on OUT and leaves in BUF (rules R207, R212). -/
theorem execDecompress_of_valid {s t : State} (h : execDecompress s = .next t) (hvalid : s.per.valid = true) :
    ∃ bits, asDigits s.inp = some bits ∧ t.out.text = (decodeFrom s.per.mem.dec [] bits).1 ∧
      t.tr.buf = (decodeFrom s.per.mem.dec [] bits).2 := by
  obtain ⟨bits, hop, rfl⟩ := execDecompress_cases h
  rw [decompressDigits_of_valid (s := startCommand s) hvalid]
  exact ⟨bits, (digitsOperand_ok.1 hop).1, rfl, rfl⟩

/-! #### One digit of the machine `Accumulating(buffer)` (rules R208, R209) -/

section
variable {dec : List (Code × Symbol)} {buf : Code} {d : Digit}

theorem decodeFrom_cons_of_some {x : Symbol} (h : mapFind (buf ++ [d]) dec = some x) (ds : List Digit) :
    decodeFrom dec buf (d :: ds) = (x :: (decodeFrom dec [] ds).1, (decodeFrom dec [] ds).2) := by
  simp [decodeFrom, h]

theorem decodeFrom_cons_of_none (h : mapFind (buf ++ [d]) dec = none) (ds : List Digit) :
    decodeFrom dec buf (d :: ds) = decodeFrom dec (buf ++ [d]) ds := by
  simp [decodeFrom, h]

end

/-! #### No digit is lost (rules R207 to R211) -/

/-- The digits taken are the entries of the map under which symbols were emitted, then the buffer. -/
theorem append_eq_emitted_append_buffer {dec : List (Code × Symbol)} {codeOf : Symbol → Code}
    (hcode : ∀ c x, mapFind c dec = some x → codeOf x = c) (buf : Code) (bits : List Digit) :
    buf ++ bits = (decodeFrom dec buf bits).1.flatMap codeOf ++ (decodeFrom dec buf bits).2 := by
  induction bits generalizing buf with
  | nil => simp [decodeFrom]
  | cons d ds ih =>
    rw [List.append_cons]
    cases hx : mapFind (buf ++ [d]) dec with
    | none =>
      rw [decodeFrom_cons_of_none hx]
      exact ih (buf ++ [d])
    | some x =>
      have hrest : ds = (decodeFrom dec [] ds).1.flatMap codeOf ++ (decodeFrom dec [] ds).2 := ih []
      rw [decodeFrom_cons_of_some hx, List.flatMap_cons, hcode _ _ hx, List.append_assoc _ _ (Prod.snd _), ← hrest]

/-- Settles O43: the entries of DEC are the codes of their symbols, and BUF is empty at the start. -/
theorem decoderLosesNoDigit : Obligations.DecoderLosesNoDigit := by
  intro s t bits ⟨_, _, hbuilt, _⟩ hvalid hbits h
  obtain ⟨-, -, -, hmaps, -⟩ := hbuilt hvalid
  obtain ⟨bits', hbits', htext, hbuf⟩ := execDecompress_of_valid h hvalid
  obtain rfl : bits = bits' := Option.some.inj (hbits.symm.trans hbits')
  rw [htext, hbuf]
  exact append_eq_emitted_append_buffer
    (fun c x hx => codeOrNothing_of_find ((mapFind_enc_iff_dec hmaps x c).2 hx)) [] bits

/-! #### A bounded buffer (rule R214) -/

section
variable {dec : List (Code × Symbol)} {cap : Nat}

/-- A buffer as long as every code of the map misses from then on. -/
theorem decodeFrom_of_long (hcap : ∀ c x, mapFind c dec = some x → c.length ≤ cap) (bits : List Digit) {buf : Code}
    (hbuf : cap ≤ buf.length) : decodeFrom dec buf bits = ([], buf ++ bits) := by
  induction bits generalizing buf with
  | nil => simp [decodeFrom]
  | cons d ds ih =>
    have hlen : cap < (buf ++ [d]).length := by simpa using Nat.lt_succ_of_le hbuf
    have hmiss : mapFind (buf ++ [d]) dec = none :=
      Option.eq_none_iff_forall_ne_some.2 fun x hx => hlen.not_ge (hcap _ x hx)
    rw [decodeFrom_cons_of_none hmiss, ih hlen.le, List.append_assoc, List.singleton_append]

theorem decodeBounded_of_dead (buf : Code) (bits : List Digit) : decodeBounded cap dec buf true bits = ([], false) := by
  induction bits with
  | nil => rfl
  | cons d ds ih => simpa [decodeBounded] using ih

/-- A bound that every code is within changes nothing but what a buffer holds that can match no longer. -/
theorem decodeBounded_eq_decodeFrom (hcap : ∀ c x, mapFind c dec = some x → c.length ≤ cap)
    (buf : Code) (bits : List Digit) :
    decodeBounded cap dec buf false bits = ((decodeFrom dec buf bits).1, (decodeFrom dec buf bits).2.isEmpty) := by
  induction bits generalizing buf with
  | nil => simp [decodeBounded, decodeFrom]
  | cons d ds ih =>
    by_cases hfull : cap ≤ buf.length
    · have hempty : (buf ++ d :: ds).isEmpty = false := by simp
      rw [decodeFrom_of_long hcap (d :: ds) hfull, hempty]
      simpa [decodeBounded, hfull] using decodeBounded_of_dead buf ds
    · cases hx : mapFind (buf ++ [d]) dec with
      | none =>
        rw [decodeFrom_cons_of_none hx, ← ih]
        simp [decodeBounded, hfull, hx]
      | some x =>
        rw [decodeFrom_cons_of_some hx]
        simp [decodeBounded, hfull, hx, ih]

end

/-- Settles O45: no code is longer than `max(HEIGHT, 1)`. -/
theorem boundedBufferSuffices : Obligations.BoundedBufferSuffices := by
  intro s cap bits ⟨_, _, hbuilt, _⟩ hvalid hcap
  obtain ⟨-, -, -, hmaps, -⟩ := hbuilt hvalid
  have hcodes : ∀ c x, mapFind c s.per.mem.dec = some x → c.length ≤ cap := fun c x hx =>
    (code_length_bounds (hbuilt hvalid) ((mapFind_enc_iff_dec hmaps x c).2 hx)).2.trans hcap
  exact decodeBounded_eq_decodeFrom hcodes [] bits

/-! #### What cannot be left in the buffer (rule R214) -/

/-- The buffer and every beginning of it miss in the map. -/
def Unmatched (dec : List (Code × Symbol)) (buf : Code) : Prop := ∀ c, c <+: buf → mapFind c dec = none

/-- No code is empty (rule R42 item 6). -/
theorem unmatched_nil {k : Config} {p : Persistent} (hbuilt : builtOk k p) : Unmatched p.mem.dec [] := by
  obtain ⟨-, -, -, hmaps, ⟨hne, -⟩, -⟩ := hbuilt
  intro c hc
  obtain rfl := List.prefix_nil.1 hc
  refine Option.eq_none_iff_forall_ne_some.2 fun x hx => ?_
  exact hne _ (mapFind_mem ((mapFind_enc_iff_dec hmaps x []).2 hx)) rfl

/-- The decoder keeps only what missed. -/
theorem decodeFrom_unmatched {dec : List (Code × Symbol)} (hnil : Unmatched dec []) {buf : Code}
    (hbuf : Unmatched dec buf) (bits : List Digit) : Unmatched dec (decodeFrom dec buf bits).2 := by
  induction bits generalizing buf with
  | nil => exact hbuf
  | cons d ds ih =>
    cases hx : mapFind (buf ++ [d]) dec with
    | none =>
      have hbuf' : Unmatched dec (buf ++ [d]) := fun c hc => by
        obtain rfl | hc := List.prefix_concat_iff.1 hc
        · exact hx
        · exact hbuf c hc
      rw [decodeFrom_cons_of_none hx]
      exact ih hbuf'
    | some x =>
      rw [decodeFrom_cons_of_some hx]
      exact ih hnil

/-- The child of the NODE entry `id` on the side the digit says. -/
def childAt (node : List TreeNode) (id : Nat) (d : Digit) : Option Nat :=
  match node[id]? with
  | some (.internal _ l r) => some (if d then r else l)
  | _ => none

theorem childAt_eq_some {node : List TreeNode} {id k : Nat} {d : Digit} :
    childAt node id d = some k ↔ ∃ f l r, node[id]? = some (.internal f l r) ∧ (if d then r else l) = k := by
  unfold childAt
  split
  · next f l r hid => simp [hid]
  · next hid =>
    constructor
    · nofun
    · rintro ⟨f, l, r, hlr, -⟩
      exact absurd hlr (hid f l r)

/-- The node a path leads to. -/
def nodeAt (node : List TreeNode) (id : Nat) (c : Code) : Option Nat := c.foldlM (childAt node) id

theorem nodeAt_concat (node : List TreeNode) (id : Nat) (c : Code) (d : Digit) :
    nodeAt node id (c ++ [d]) = (nodeAt node id c).bind fun k => childAt node k d := by
  simp [nodeAt, List.foldlM_append]

theorem nodeAt_of_leadsTo {node : List TreeNode} {id : Nat} {c : Code} {x : Symbol}
    (h : leadsTo node id c x = true) : ∃ k f, nodeAt node id c = some k ∧ node[k]? = some (.leaf x f) := by
  induction c generalizing id with
  | nil =>
    unfold leadsTo at h
    split at h
    · next y f hid => exact ⟨id, f, rfl, (of_decide_eq_true h) ▸ hid⟩
    · cases h
  | cons d ds ih =>
    unfold leadsTo at h
    split at h
    · next f l r hid =>
      obtain ⟨k, g, hk, hleaf⟩ := ih h
      have hchild : childAt node id d = some (if d then r else l) := childAt_eq_some.2 ⟨f, l, r, hid, rfl⟩
      exact ⟨k, g, by simpa [nodeAt, hchild] using hk, hleaf⟩
    · cases h

/-- The children's ids are on the list of what the entries own. -/
theorem childAt_mem {node : List TreeNode} {id k : Nat} {d : Digit} (h : childAt node id d = some k) :
    ∃ v, node[id]? = some v ∧ k ∈ childrenOf v := by
  obtain ⟨f, l, r, hid, rfl⟩ := childAt_eq_some.1 h
  exact ⟨_, hid, by cases d <;> simp [childrenOf]⟩

theorem Carries.freqAt_eq {node : List TreeNode} {id : Nat} {T : HTree} (h : Carries node id T) :
    freqAt node id = T.freq := by
  obtain ⟨v, hv, hfreq⟩ := h.root
  rw [freqAt_of_getElem? hv, hfreq]

section
variable {p : Persistent} (htree : treeOk p)
include htree

/-- A child is older than its parent (rule R42 item 3). -/
theorem lt_of_mem_childrenOf {id k : Nat} {v : TreeNode} (hv : p.mem.node[id]? = some v) (hk : k ∈ childrenOf v) :
    k < id := by
  cases v with
  | leaf x f => cases hk
  | internal f l r =>
    obtain ⟨-, hl, hr, -⟩ := nodeOk_internal (nodeOk_of_treeOk htree hv) hv
    obtain rfl | rfl : k = l ∨ k = r := by simpa [childrenOf] using hk
    · exact hl
    · exact hr

theorem lt_nodecount_of_mem_children {k : Nat} (hk : k ∈ p.mem.node.flatMap childrenOf) : k < p.nodecount := by
  obtain ⟨v, hv, hkv⟩ := List.mem_flatMap.1 hk
  obtain ⟨id, hid⟩ := List.mem_iff_getElem?.1 hv
  have hlt := lt_of_mem_childrenOf htree hid hkv
  obtain ⟨-, hlen, -⟩ := htree
  exact hlen ▸ hlt.trans (List.getElem?_eq_some_iff.1 hid).1

/-- No id is a child twice (rule R42 item 3). -/
theorem children_nodup : (p.mem.node.flatMap childrenOf).Nodup := by
  refine List.nodup_iff_count_le_one.2 fun k => ?_
  by_cases hk : k ∈ p.mem.node.flatMap childrenOf
  · have hlt := lt_nodecount_of_mem_children htree hk
    obtain ⟨-, -, -, -, hcount⟩ := htree
    rw [hcount k hlt]
    split <;> decide
  · simp [List.count_eq_zero_of_not_mem hk]

/-- ROOT is no child (rule R42 item 3). -/
theorem childAt_ne_root {id : Nat} {d : Digit} : childAt p.mem.node id d ≠ some p.root := by
  intro h
  obtain ⟨v, hv, hroot⟩ := childAt_mem h
  have hmem := List.mem_flatMap.2 ⟨v, List.mem_of_getElem? hv, hroot⟩
  have hpos := List.count_pos_iff.2 hmem
  have hlt := lt_nodecount_of_mem_children htree hmem
  obtain ⟨-, -, -, -, hcount⟩ := htree
  simp [hcount _ hlt] at hpos

/-- An id is a child of one entry only. -/
theorem parent_unique {id id' k : Nat} {v v' : TreeNode} (hv : p.mem.node[id]? = some v)
    (hv' : p.mem.node[id']? = some v') (hk : k ∈ childrenOf v) (hk' : k ∈ childrenOf v') : id = id' := by
  obtain ⟨-, hapart⟩ := List.nodup_flatMap.1 (children_nodup htree)
  rw [List.pairwise_iff_getElem] at hapart
  obtain ⟨hid, rfl⟩ := List.getElem?_eq_some_iff.1 hv
  obtain ⟨hid', rfl⟩ := List.getElem?_eq_some_iff.1 hv'
  obtain hlt | heq | hgt := Nat.lt_trichotomy id id'
  · exact absurd hk' (hapart id id' hid hid' hlt hk)
  · exact heq
  · exact absurd hk (hapart id' id hid' hid hgt hk')

/-- An id is a child of one entry and on one side only. -/
theorem childAt_injective {id id' k : Nat} {d d' : Digit} (h : childAt p.mem.node id d = some k)
    (h' : childAt p.mem.node id' d' = some k) : id = id' ∧ d = d' := by
  obtain ⟨v, hv, hk⟩ := childAt_mem h
  obtain ⟨v', hv', hk'⟩ := childAt_mem h'
  obtain rfl := parent_unique htree hv hv' hk hk'
  obtain ⟨f, l, r, hid, hd⟩ := childAt_eq_some.1 h
  obtain ⟨f', l', r', hid', hd'⟩ := childAt_eq_some.1 h'
  obtain ⟨rfl, rfl, rfl⟩ : f = f' ∧ l = l' ∧ r = r' := by simpa [hid] using hid'
  obtain ⟨hown, -⟩ := List.nodup_flatMap.1 (children_nodup htree)
  have hlr : l ≠ r := by simpa [childrenOf] using hown _ (List.mem_of_getElem? hid)
  refine ⟨rfl, ?_⟩
  cases d <;> cases d'
  · rfl
  · exact absurd (hd.trans hd'.symm) hlr
  · exact absurd (hd'.trans hd.symm) hlr
  · rfl

/-- Only one path leads from ROOT to a node. -/
theorem nodeAt_root_injective {c c' : Code} {k : Nat} (h : nodeAt p.mem.node p.root c = some k)
    (h' : nodeAt p.mem.node p.root c' = some k) : c = c' := by
  induction c using List.reverseRecOn generalizing c' k with
  | nil =>
    obtain rfl : p.root = k := Option.some.inj h
    cases c' using List.reverseRecOn with
    | nil => rfl
    | append_singleton c' d' =>
      rw [nodeAt_concat] at h'
      obtain ⟨j', -, hj'⟩ := Option.bind_eq_some_iff.1 h'
      exact absurd hj' (childAt_ne_root htree)
  | append_singleton c d ih =>
    rw [nodeAt_concat] at h
    obtain ⟨j, hj, hjk⟩ := Option.bind_eq_some_iff.1 h
    cases c' using List.reverseRecOn with
    | nil =>
      obtain rfl : p.root = k := Option.some.inj h'
      exact absurd hjk (childAt_ne_root htree)
    | append_singleton c' d' =>
      rw [nodeAt_concat] at h'
      obtain ⟨j', hj', hjk'⟩ := Option.bind_eq_some_iff.1 h'
      obtain ⟨rfl, rfl⟩ := childAt_injective htree hjk hjk'
      rw [ih hj hj']

/-- Every entry of NODE carries a tree: children are older (rule R42 item 3). -/
theorem exists_carries {k : Nat} (hk : k < p.mem.node.length) : ∃ T, Carries p.mem.node k T := by
  induction k using Nat.strong_induction_on with
  | _ k ih =>
    have hv := List.getElem?_eq_getElem hk
    cases hvk : p.mem.node[k] with
    | leaf x f => exact ⟨.leaf ⟨x, f⟩, hv.trans (congrArg some hvk)⟩
    | internal f l r =>
      rw [hvk] at hv
      obtain ⟨-, hl, hr, rfl⟩ := nodeOk_internal (nodeOk_of_treeOk htree hv) hv
      obtain ⟨L, hL⟩ := ih l hl (hl.trans hk)
      obtain ⟨R, hR⟩ := ih r hr (hr.trans hk)
      refine ⟨.branch L R, l, r, ?_, hL, hR⟩
      rw [hv, hL.freqAt_eq, hR.freqAt_eq]

/-- The Leaf of a symbol is the one of its FT entry (rule R42 items 1 and 2). -/
theorem leaf_injective (hnodup : (p.mem.ft.map FtEntry.sym).Nodup) {k k' f f' : Nat} {x : Symbol}
    (h : p.mem.node[k]? = some (.leaf x f)) (h' : p.mem.node[k']? = some (.leaf x f')) : k = k' := by
  obtain ⟨-, hk⟩ := nodeOk_leaf (nodeOk_of_treeOk htree h) h
  obtain ⟨-, hk'⟩ := nodeOk_leaf (nodeOk_of_treeOk htree h') h'
  have hlt : k < (p.mem.ft.map FtEntry.sym).length := by
    rw [List.length_map]
    exact (List.getElem?_eq_some_iff.1 hk).1
  exact (List.getElem?_inj hlt hnodup).1 (by simp [hk, hk'])

/-- Only one path leads from ROOT to the Leaf of a symbol. -/
theorem leadsTo_root_injective (hnodup : (p.mem.ft.map FtEntry.sym).Nodup) {c c' : Code} {x : Symbol}
    (h : leadsTo p.mem.node p.root c x = true) (h' : leadsTo p.mem.node p.root c' x = true) : c = c' := by
  obtain ⟨k, f, hk, hleaf⟩ := nodeAt_of_leadsTo h
  obtain ⟨k', f', hk', hleaf'⟩ := nodeAt_of_leadsTo h'
  obtain rfl := leaf_injective htree hnodup hleaf hleaf'
  exact nodeAt_root_injective htree hk hk'

end

/-- From two symbols on every path to a leaf is a code (rule R42 items 5 and 6). -/
theorem mapFind_enc_of_leadsTo {k : Config} {p : Persistent} (hbuilt : builtOk k p) (htwo : 2 ≤ p.nsym) {c : Code}
    {x : Symbol} (h : leadsTo p.mem.node p.root c x = true) : mapFind x p.mem.enc = some c := by
  obtain ⟨⟨-, -, hnodup, -⟩, htree, -, ⟨-, -, hmapped, -⟩, -, hpaths, -⟩ := hbuilt
  obtain ⟨i, f, -, hleaf⟩ := nodeAt_of_leadsTo h
  have hentry := List.mem_of_getElem? (nodeOk_leaf (nodeOk_of_treeOk htree hleaf) hleaf).2
  obtain ⟨c', hc'⟩ := Option.isSome_iff_exists.1 (hmapped _ hentry)
  obtain rfl := leadsTo_root_injective htree hnodup h ((hpaths htwo).1 _ (mapFind_mem hc'))
  exact hc'

/-- From two symbols on HEIGHT digits or more begin with a code, for the codes are the paths of a tree (rule R167). -/
theorem exists_code_prefix {k : Config} {p : Persistent} (hbuilt : builtOk k p) (htwo : 2 ≤ p.nsym) {bits : Code}
    (hlen : p.height ≤ bits.length) : ∃ c x, c <+: bits ∧ mapFind c p.mem.dec = some x := by
  have hcode : ∀ {c x}, leadsTo p.mem.node p.root c x = true → mapFind x p.mem.enc = some c :=
    mapFind_enc_of_leadsTo hbuilt htwo
  obtain ⟨-, htree, -, hmaps, -, hpaths, -⟩ := hbuilt
  have hroot : p.root < p.mem.node.length := by
    obtain ⟨hcount, hnode, hroot, -⟩ := htree
    omega
  obtain ⟨T, hT⟩ := exists_carries htree hroot
  have hshort : ∀ q ∈ T.codes [], q.2.length ≤ ([] : Code).length + bits.length := fun q hq => by
    have hmem := mapFind_mem (hcode (HTree.leadsTo_of_mem_codes hT hq))
    rw [List.length_nil, Nat.zero_add]
    exact (longestCode_le_iff.1 (hpaths htwo).2.ge _ hmem).trans hlen
  obtain ⟨⟨x, c⟩, hc, hprefix⟩ := HTree.exists_code_prefix hshort
  exact ⟨c, x, hprefix, (mapFind_enc_iff_dec hmaps x c).1 (hcode (HTree.leadsTo_of_mem_codes hT hc))⟩

/-- With one symbol `"0"` is in DEC (rule R164). -/
theorem exists_mapFind_forcedCode {k : Config} {p : Persistent} (hbuilt : builtOk k p) (hone : p.nsym = 1) :
    ∃ x, mapFind [false] p.mem.dec = some x := by
  obtain ⟨-, -, -, hmaps, -, -, hforced⟩ := hbuilt
  obtain ⟨hlen, -, -, hdec, -⟩ := hmaps
  obtain ⟨e, he⟩ := List.exists_mem_of_length_pos (l := p.mem.enc) (by omega)
  exact ⟨e.1, (hforced hone).2 e he ▸ hdec e he⟩

/-- Settles O44: BUF never begins with a code, so it is shorter than HEIGHT, and with the one code `"0"` it does not begin
with `0`. -/
theorem bufferStaysBelowHeight : Obligations.BufferStaysBelowHeight := by
  intro s t ⟨_, _, hinv, _⟩ hvalid h
  have hbuilt := hinv hvalid
  obtain ⟨bits, -, -, hbuf⟩ := execDecompress_of_valid h hvalid
  have hempty := unmatched_nil hbuilt
  have hmiss : Unmatched s.per.mem.dec t.tr.buf :=
    hbuf ▸ decodeFrom_unmatched hempty hempty bits
  refine ⟨fun htwo => ?_, fun hone => ?_⟩
  · by_contra hlong
    obtain ⟨c, x, hprefix, hx⟩ := exists_code_prefix hbuilt htwo (Nat.not_lt.1 hlong)
    simp [hmiss c hprefix] at hx
  · obtain ⟨x, hx⟩ := exists_mapFind_forcedCode hbuilt hone
    match hb : t.tr.buf with
    | [] => exact .inl rfl
    | true :: rest => exact .inr ⟨rest, rfl⟩
    | false :: rest =>
      have hnone := hmiss [false] (by simp [hb])
      simp [hnone] at hx

end Sys2Proof.Machine

/-! ### Introspection: the three queries and RATIO (46_introspection.md) -/

namespace Sys2Proof.Machine

/-! #### What the queries share (rule R225) -/

/-- The three query commands differ in their answer alone. -/
theorem exec_eq_query {i : Instr} (hi : i = .qfreq ∨ i = .qcode ∨ i = .qmember) :
    ∃ answer, ∀ s, exec i s = query answer s := by
  obtain rfl | rfl | rfl := hi
  · exact ⟨fun x s => .qfreq (freqAnswer x s), fun _ => rfl⟩
  · exact ⟨codeAnswer, fun _ => rfl⟩
  · exact ⟨memberAnswer, fun _ => rfl⟩

/-- The response of a query to the symbol on IN. -/
theorem query_resp {answer : Symbol → State → Response} {s t : State} {x : Symbol} (hx : asText s.inp = some [x])
    (h : query answer s = .next t) : t.resp = some (.response (answer x s)) := by
  obtain ⟨y, hy, rfl⟩ := query_cases h
  obtain rfl : x = y := by simpa using hx.symm.trans (symbolOperand_ok.1 hy).1
  rfl

section
variable {s : State} {x : Symbol}

/-- QFREQ answers from the first entry of its symbol (rule R226). -/
theorem freqAnswer_eq_find : freqAnswer x s =
    ((s.per.mem.ft.find? fun e => decide (e.sym = x)).map FtEntry.count).getD 0 := by
  rw [List.find?_eq_bind_findIdx?_getElem?, freqAnswer, ftFind]
  cases s.per.mem.ft.findIdx? fun e => decide (e.sym = x) with
  | none => rfl
  | some i =>
    dsimp only [Option.bind_some]
    cases s.per.mem.ft[i]? <;> rfl

/-- With every table empty no symbol has an entry in FT (rules R43, R226). -/
theorem freqAnswer_of_emptyOk (h : emptyOk s.per) : freqAnswer x s = 0 := by
  rw [freqAnswer_eq_find, h]
  rfl

/-- With every table empty no symbol has a code (rules R43, R228). -/
theorem encFind_of_emptyOk (h : emptyOk s.per) : encFind x s = none := by
  rw [encFind, h]
  rfl

theorem codeAnswer_of_none (h : encFind x s = none) : codeAnswer x s = .qcode false 0 0 := by
  rw [codeAnswer, h]

theorem memberAnswer_of_none (h : encFind x s = none) : memberAnswer x s = .qmember false := by
  rw [memberAnswer, h]
  rfl

end

/-- Settles O51: the operand form admits the symbol, a query writes the streams and the response alone, and with no tree
the tables it searches are empty. -/
theorem queriesChangeNothing : Obligations.QueriesChangeNothing := by
  refine ⟨fun i s x hi hx hfit => ?_, fun i s t hi h => ?_, fun s t ⟨_, _, _, hempty⟩ hvalid => ?_⟩
  · obtain ⟨answer, hquery⟩ := exec_eq_query hi
    exact ⟨_, (hquery s).trans (query_of_symbol (symbolOperand_ok.2 ⟨hx, hfit⟩))⟩
  · obtain ⟨answer, hquery⟩ := exec_eq_query hi
    obtain ⟨x, -, rfl⟩ := query_cases ((hquery s).symm.trans h)
    exact ⟨rfl, rfl, rfl⟩
  · have hper := hempty hvalid
    refine ⟨fun h => ?_, fun h => ?_, fun h => ?_⟩
    · obtain ⟨x, -, rfl⟩ := query_cases (answer := fun x s => .qfreq (freqAnswer x s)) h
      rw [respond_resp, freqAnswer_of_emptyOk hper]
    · obtain ⟨x, -, rfl⟩ := query_cases (answer := codeAnswer) h
      rw [respond_resp, codeAnswer_of_none (encFind_of_emptyOk hper)]
    · obtain ⟨x, -, rfl⟩ := query_cases (answer := memberAnswer) h
      rw [respond_resp, memberAnswer_of_none (encFind_of_emptyOk hper)]

/-! #### QFREQ (rule R226) -/

/-- Settles O46: the search of FT by index finds the first entry of the symbol. -/
theorem qfreqAnswersCount : Obligations.QfreqAnswersCount := by
  intro s x hx hfit
  have h : exec .qfreq s = .next (respond (.qfreq (freqAnswer x s)) (startCommand s)) :=
    query_of_symbol (answer := fun x s => .qfreq (freqAnswer x s)) (symbolOperand_ok.2 ⟨hx, hfit⟩)
  rw [h, freqAnswer_eq_find]
  cases s.per.mem.ft.find? fun e => decide (e.sym = x) <;> rfl

/-- What is found for a symbol in the table of a text is its number of positions; nothing is found when it has none. -/
theorem find_tableOf_count (text : List Symbol) (x : Symbol) :
    (((tableOf text).find? fun e => decide (e.sym = x)).map FtEntry.count).getD 0 = text.count x := by
  cases hfind : (tableOf text).find? fun e => decide (e.sym = x) with
  | none =>
    have hx : x ∉ text := fun hx =>
      List.find?_eq_none.1 hfind _ (List.mem_map_of_mem (List.mem_eraseDups.2 hx)) (decide_eq_true rfl)
    exact (List.count_eq_zero.2 hx).symm
  | some e =>
    have hsym : e.sym = x := by simpa using List.find?_some hfind
    obtain ⟨y, -, rfl⟩ := List.mem_map.1 (List.mem_of_find?_eq_some hfind)
    exact congrArg text.count hsym

/-- Every BUILD leaves the table of its text in FT; that of the empty text is empty (rules R131, R177). -/
theorem execBuild_ft {s t : State} {text : List Symbol} (h : execBuild s = .next t) (htext : asText s.inp = some text) :
    t.per.mem.ft = tableOf text := by
  by_cases hne : text = []
  · subst hne
    have hop : textOperand s.cfg s.inp = .ok [] := textOperand_ok.2 ⟨htext, rfl, within_zero _⟩
    cases h.symm.trans (execBuild_of_nil hop)
    rfl
  · exact (execBuild_builtOk h htext hne).1

/-- Settles O47: FT holds the table of the text. -/
theorem qfreqCountsBuiltText : Obligations.QfreqCountsBuiltText := by
  intro s t u text x htext hbuild h
  rw [query_resp (answer := fun x s => .qfreq (freqAnswer x s)) rfl h, freqAnswer_eq_find,
    execBuild_ft hbuild htext, find_tableOf_count]

/-! #### QCODE (rule R227) -/

/-- Settles O48: the two answers are those of the lookup in ENC, and with no tree nothing is found. -/
theorem qcodeAnswersCode : Obligations.QcodeAnswersCode := by
  refine ⟨decode_encode .qcode, fun s x hx hfit => query_of_symbol (symbolOperand_ok.2 ⟨hx, hfit⟩), ?_⟩
  intro s x c ⟨_, _, hbuilt, hempty⟩ hc
  cases hvalid : s.per.valid with
  | false => exact absurd ((encFind_of_emptyOk (hempty hvalid)).symm.trans hc) nofun
  | true => exact (code_length_bounds (hbuilt hvalid) hc).1

/-! #### QMEMBER (rule R228) -/

/-- A COMPRESS of one symbol with a tree skips it exactly when it has no code (rule R193). -/
theorem skipcount_of_symbol {s t : State} {x : Symbol} (hx : asText s.inp = some [x]) (hvalid : s.per.valid = true)
    (h : execCompress s = .next t) : t.per.skipcount = 0 ↔ isMapped s x = true := by
  obtain ⟨text, hop, ⟨hnot, -⟩ | ⟨-, rfl, -⟩⟩ := execCompress_cases h
  · exact absurd (hvalid.symm.trans hnot) (by decide)
  · obtain rfl : text = [x] := Option.some.inj ((textOperand_ok.1 hop).1.symm.trans hx)
    rw [compressDone_loop]
    simp

/-- Settles O50: both commands look the symbol up in ENC. -/
theorem qmemberAnswersMembership : Obligations.QmemberAnswersMembership := by
  refine ⟨fun s x hx hfit => query_of_symbol (answer := memberAnswer) (symbolOperand_ok.2 ⟨hx, hfit⟩), ?_⟩
  intro s t u x hx hvalid hmember hcompress
  rw [query_resp (answer := memberAnswer) hx hmember, skipcount_of_symbol hx hvalid hcompress]
  simp [memberAnswer, isMapped]

/-! #### RATIO (rules R236, R237) -/

/-- RATIO as one fraction, the second form of the rule. -/
theorem ratio_of_pos {p : Persistent} (h : 1 ≤ p.symcount) :
    ratio p = some ((200 * (p.symcount : Rat) - 25 * (p.bitcount : Rat)) / (2 * (p.symcount : Rat))) := by
  have hne : p.symcount ≠ 0 := Nat.one_le_iff_ne_zero.1 h
  have hcast : (p.symcount : Rat) ≠ 0 := Nat.cast_ne_zero.2 hne
  rw [ratio, if_neg hne]
  congr 1
  field_simp
  ring

/-- Settles O52: the second form is the first over one denominator. -/
theorem ratioFormula : Obligations.RatioFormula :=
  fun _ h => ⟨if_neg (Nat.one_le_iff_ne_zero.1 h), ratio_of_pos h⟩

/-- Settles O53: with a positive denominator each bound on RATIO is one on the numerator of its second form. -/
theorem ratioCorners : Obligations.RatioCorners := by
  refine ⟨fun p h => if_pos h, fun p q h => ?_⟩
  have hpos : 1 ≤ p.symcount := Nat.one_le_iff_ne_zero.2 fun h0 => by simp [ratio, h0] at h
  have hden : (0 : Rat) < 2 * p.symcount := by positivity
  have hbits : (0 : Rat) ≤ p.bitcount := Nat.cast_nonneg _
  obtain rfl := Option.some.inj ((ratio_of_pos hpos).symm.trans h)
  refine ⟨?_, ?_, ?_, fun hle => ?_⟩
  · rw [div_lt_iff₀ hden, ← Nat.cast_lt (α := Rat)]
    push_cast
    constructor <;> intro h' <;> linarith
  · rw [div_le_iff₀ hden]
    linarith
  · rw [div_eq_iff hden.ne', ← Nat.cast_eq_zero (R := Rat)]
    constructor <;> intro h' <;> linarith
  · rw [div_le_iff₀ hden]
    have hle' : (p.symcount : Rat) ≤ p.bitcount := Nat.cast_le.2 hle
    linarith

end Sys2Proof.Machine

/-! ### Reset, the command that waits, and what keeps the tables (60_exceptions.md, 70_reset_and_hazards.md) -/

namespace Sys2Proof.Machine

/-! #### Idling and reset (rules R272, R275, R276) -/

theorem fetch_idle {s : State} (h : s.host = []) : fetch s = .stay s := by
  simp [fetch, h]

theorem fetch_reset {s : State} {rest : List HostAction} (h : s.host = .reset :: rest) :
    fetch s = .stay (hostReset rest s) := by
  simp [fetch, h]

theorem nextIsReset_of_reset {s : State} {rest : List HostAction} (h : s.host = .reset :: rest) :
    nextIsReset s = true := by
  simp [nextIsReset, h]

/-- Settles O7: the fetch takes a reset whatever is in progress, and between two small steps it is the same reset. -/
theorem resetTakenInEveryState : Obligations.ResetTakenInEveryState := by
  refine ⟨fun s rest hhost => ?_, fun s t h => ?_, fun m => ⟨rfl, rfl, rfl, rfl⟩⟩
  · exact ⟨_, step_of_stay (fetch_reset hhost), rfl, rfl, rfl, rfl, rfl, rfl⟩
  · cases h
    rfl

/-! #### A command whose operand never ends (rules R280, R282) -/

section
variable {s : State} {w : CommandWord} {op : Operand} {rest : List HostAction}

/-- A command that takes an operand waits for its end (log entry 24). -/
theorem fetchOpen_eq_hang {i : Instr} (hbusy : s.busy = false) (hdec : decode w = .ok i) (hclear : i ≠ .clear) :
    fetchOpen w op rest s = .stay (hang i op rest s) := by
  simp [fetchOpen, legalWord_ok.2 ⟨hbusy, hdec⟩, operandKindOf_eq_none, hclear]

/-- While a command is in progress no word is looked at (U3). -/
theorem legalWord_of_busy (hbusy : s.busy = true) : legalWord w s = .error .commandInProgress := by
  simp [legalWord, hbusy]

theorem fetchRead_of_busy {r : Reg} (hbusy : s.busy = true) : fetchRead r rest s = .refuse .commandInProgress := by
  simp [fetchRead, hbusy]

/-- While a command is in progress every host action but reset is refused (log entry 18). -/
theorem step_refused_of_busy {a : HostAction} (hbusy : s.busy = true) (hhost : s.host = a :: rest)
    (ha : a ≠ .reset) : step s = .refused .commandInProgress := by
  apply step_of_refuse
  cases a with
  | issue w op => rw [fetch_issue hhost, fetchWhole, legalWord_of_busy hbusy]
  | issueOpen w op => rw [fetch_issueOpen hhost, fetchOpen, legalWord_of_busy hbusy]
  | read r => exact (fetch_read hhost).trans (fetchRead_of_busy hbusy)
  | reset => exact absurd rfl ha

end

/-- A command in progress is left by reset alone (U12). -/
theorem step_of_busy_cases {s t : State} (hbusy : s.busy = true) (h : step s = .next t) :
    t = s ∨ ∃ rest, s.host = .reset :: rest ∧ t = hostReset rest s := by
  match hhost : s.host with
  | [] =>
    cases h.symm.trans (step_of_stay (fetch_idle hhost))
    exact .inl rfl
  | a :: rest =>
    by_cases ha : a = .reset
    · subst ha
      cases h.symm.trans (step_of_stay (fetch_reset hhost))
      exact .inr ⟨rest, rfl, rfl⟩
    · cases h.symm.trans (step_refused_of_busy hbusy hhost ha)

/-- Settles O8: the word leaves a command in progress, whose free OUT is within the limits of rule R64; from there a step
idles, resets or is refused. -/
theorem unendedOperandWaitsForReset : Obligations.UnendedOperandWaitsForReset := by
  refine ⟨fun s w op rest i hbusy hhost hdec hclear => ?_, fun s t hbusy h => ?_,
    fun s w op r rest hbusy hhost => ?_⟩
  · obtain ⟨hdigits, htext, hnoTree, hbits, hlen, hfit⟩ := voidOut_limits i op s
    have hfetch := (fetch_issueOpen hhost).trans (fetchOpen_eq_hang hbusy hdec hclear)
    refine ⟨_, step_of_stay hfetch, rfl, rfl, rfl, hdigits, htext, hnoTree, hbits, hfit, fun bits hop => ?_⟩
    simpa [hop] using hlen
  · obtain hidle | ⟨rest, hhost, rfl⟩ := step_of_busy_cases hbusy h
    · exact .inl hidle
    · exact .inr ⟨nextIsReset_of_reset hhost, rfl, rfl⟩
  · obtain hissue | hopen | hread := hhost
    · exact step_refused_of_busy hbusy hissue nofun
    · exact step_refused_of_busy hbusy hopen nofun
    · exact step_refused_of_busy hbusy hread nofun

/-! #### Only BUILD, CLEAR and reset discard state (rule R272) -/

/-- At most STATUS and the statistics registers differ: the tables, VALID, NSYM, NODECOUNT, ROOT and HEIGHT are the same. -/
def SameTables (s t : State) : Prop :=
  t.per = { s.per with
    status := t.per.status, skipcount := t.per.skipcount, bitcount := t.per.bitcount, symcount := t.per.symcount }

theorem execCompress_sameTables {s t : State} (h : execCompress s = .next t) : SameTables s t := by
  obtain ⟨text, -, ⟨-, rfl⟩ | ⟨-, rfl, -⟩⟩ := execCompress_cases h
  · rfl
  · rw [compressDone_loop]
    rfl

theorem execDecompress_sameTables {s t : State} (h : execDecompress s = .next t) : SameTables s t := by
  obtain ⟨bits, -, rfl⟩ := execDecompress_cases h
  cases hvalid : s.per.valid with
  | false => rw [decompressDigits_of_not_valid (s := startCommand s) hvalid]; rfl
  | true => rw [decompressDigits_of_valid (s := startCommand s) hvalid]; rfl

theorem query_sameTables {answer : Symbol → State → Response} {s t : State} (h : query answer s = .next t) :
    SameTables s t := by
  obtain ⟨x, -, rfl⟩ := query_cases h
  rfl

theorem exec_sameTables {i : Instr} {s t : State} (hbuild : i ≠ .build) (hclear : i ≠ .clear)
    (h : exec i s = .next t) : SameTables s t := by
  cases i with
  | build => exact absurd rfl hbuild
  | compress => exact execCompress_sameTables h
  | decompress => exact execDecompress_sameTables h
  | clear => exact absurd rfl hclear
  | qfreq => exact query_sameTables (answer := fun x s => .qfreq (freqAnswer x s)) h
  | qcode => exact query_sameTables (answer := codeAnswer) h
  | qmember => exact query_sameTables (answer := memberAnswer) h

theorem fetch_stay_sameTables {s t : State} (hreset : nextIsReset s = false) (h : fetch s = .stay t) :
    SameTables s t := by
  obtain ⟨-, rfl⟩ | ⟨rest, hhost, -⟩ | ⟨_, _, -, -, -, rfl⟩ | ⟨_, _, _, _, -, -, -, -, rfl⟩ := fetch_stay_cases h
  · rfl
  · exact absurd ((nextIsReset_of_reset hhost).symm.trans hreset) (by decide)
  · rfl
  · rfl

theorem nextWordIn_of_word {ws : List CommandWord} {s : State} {w : CommandWord} {op : Operand}
    {rest : List HostAction} (h : s.host = .issue w op :: rest ∨ s.host = .issueOpen w op :: rest) :
    nextWordIn ws s = decide (w ∈ ws) := by
  obtain h | h := h <;> simp [nextWordIn, h, actionWord]

/-- A step that is neither a BUILD nor a CLEAR nor a reset leaves the tables as they are. -/
theorem step_sameTables {s t : State} (h : step s = .next t) (hreset : nextIsReset s = false)
    (hword : nextWordIn [encode .build, encode .clear] s = false) : SameTables s t := by
  obtain ⟨i, s1, hrun, hexec⟩ | hstay := step_cases h
  · obtain ⟨-, w, op, rest, hhost, hdec, rfl⟩ := fetch_run_cases hrun
    rw [nextWordIn_of_word hhost, eq_encode_of_decode hdec, decide_eq_false_iff_not] at hword
    have hbuild : i ≠ .build := by rintro rfl; simp at hword
    have hclear : i ≠ .clear := by rintro rfl; simp at hword
    -- `accept` writes nothing of the persistent state.
    exact (exec_sameTables hbuild hclear hexec : SameTables (accept op rest s) t)
  · exact fetch_stay_sameTables hreset hstay

/-- Settles O9: 0x01 and 0x04 are the words of BUILD and CLEAR, and without them and reset a step writes at most STATUS and
the statistics. -/
theorem onlyBuildClearResetChangeTables : Obligations.OnlyBuildClearResetChangeTables := by
  refine ⟨fun s hhost => step_of_stay (fetch_idle hhost), fun s t h hreset hword => ?_⟩
  have hsame : SameTables s t := step_sameTables h hreset hword
  rw [hsame]
  exact ⟨rfl, rfl, rfl, rfl, rfl, rfl⟩

end Sys2Proof.Machine
